-- ==== Sys2Proof/Word.lean ====
section
/-! DEFINITION. The word types of the block: what the spec treats as bits. Numbers that the spec calls
mathematical integers (00_scope.md R13) are Nat or Int. -/

namespace Sys2Proof

/-- A 32-bit register, bank word or command word (10_state.md R31, R39; 30_encoding.md R110). -/
abbrev Word := BitVec 32

/-- A byte of SYMBUF, CODEBUF, the seed or the byte pool (10_state.md R34, R35, R50). -/
abbrev Byte := BitVec 8

/-- A word of the 16-bit pool (10_state.md R50). -/
abbrev Half := BitVec 16

/-- A word of the 64-bit pool, and the widest value a draw returns (10_state.md R50). -/
abbrev DWord := BitVec 64

/-- The live seed `S`, read as its 512-bit little-endian counter (10_state.md R50, 41_entropy.md R161). -/
abbrev Seed := BitVec 512

end Sys2Proof
end

