-- ==== Sys2Proof/Config.lean ====
section
/-! DEFINITION. What is fixed for a machine and never written by it: the structural parameters
(00_scope.md R10), the per-kind tables (R11), the hash (R12) and the free values. A parameter the spec
leaves OPEN is an opaque constant; where the spec bounds it, the constant is used only under that bound,
so that no configuration the spec excludes is admitted (93_implementation_defined.md U14). -/

namespace Sys2Proof

/-- The parameter sets B0 to B4 (00_scope.md R3). -/
inductive Kind where
  | b0 | b1 | b2 | b3 | b4
  deriving DecidableEq, Repr

/-- One entry of a Huffman codebook (44_huffman.md R301): the codeword is `value[len-1:0]`, most
significant bit first. -/
structure CodeEntry where
  hi : Int
  z2 : Int
  value : Nat
  len : Nat
  deriving DecidableEq, Repr

/-- The ring an NTT command computes in: modulus, size and the root of unity behind the tables. -/
structure RingParams where
  q : Nat
  n : Nat
  psi : Nat
  deriving DecidableEq, Repr

/-- The sampler's per-kind constants and table (43_sampler.md R250, R251). -/
structure SamplerParams where
  ell : Nat
  cols : Nat
  cdt : Nat → Nat → Byte
  ksigma : Nat
  ksigmaBits : Nat

/-- The codec's per-kind codebook and limits (44_huffman.md R301, R302). -/
structure CodecParams where
  book : List CodeEntry
  lmax : Nat
  n : Nat
  deriving DecidableEq, Repr

/-- The entropy unit's hash and refill size (00_scope.md R10, R12). -/
structure PoolParams where
  hash : Vector Byte 64 → Vector Byte 64
  blocks : Nat

/-- `ψ` is in [1, q) and `ψ^n ≡ q - 1 (mod q)` (42_ntt.md R201). -/
def RingParams.rootValid (r : RingParams) : Bool :=
  decide (1 ≤ r.psi) && decide (r.psi < r.q) && decide (r.psi ^ r.n % r.q = r.q - 1)

/-- The codeword of `e` is a beginning of the codeword of `f`, or equal to it. -/
def CodeEntry.begins (e f : CodeEntry) : Bool :=
  decide (e.len ≤ f.len) && decide (f.value / 2 ^ (f.len - e.len) = e.value)

/-- The bounds of one entry (44_huffman.md R301). -/
def CodeEntry.valid (e : CodeEntry) : Bool :=
  decide (1 ≤ e.len) && decide (e.len ≤ 32) && decide (e.value < 2 ^ e.len)

/-- Two entries may stand in one codebook: different pairs, and neither codeword begins the other. -/
def CodeEntry.compatible (e f : CodeEntry) : Bool :=
  !(decide (e.hi = f.hi) && decide (e.z2 = f.z2)) && !e.begins f && !f.begins e

/-- The constraints of 44_huffman.md R301 on a codebook. -/
def codebookValid : List CodeEntry → Bool
  | [] => true
  | e :: rest => e.valid && rest.all (fun f => e.compatible f) && codebookValid rest

namespace Config

/-- `NBANKS` (00_scope.md R10). -/
def NBANKS : Nat := 8

/-- `BANK_WORDS` (00_scope.md R10). -/
def BANK_WORDS : Nat := 512

/-- `SYMBUF_BYTES` (00_scope.md R10). -/
def SYMBUF_BYTES : Nat := 512

/-- `CODEBUF_BYTES` (00_scope.md R10). -/
def CODEBUF_BYTES : Nat := 512

/-- `POSBIN_CEIL` (00_scope.md R10). -/
def POSBIN_CEIL : Nat := 16

/-- `RANDBITS_MAX` (00_scope.md R10). -/
def RANDBITS_MAX : Nat := 32

/-- OPEN (D24): which of the rings R11 admits a kind other than B1 has. Log 6. -/
opaque shapeRaw : Kind → Nat

/-- A ring of R11 by its number: the pairs with n in (256, 512) and q in (7681, 12289) that have a negacyclic
NTT (00_scope.md R11, 90_conflicts.md C7). -/
def ringPair : Nat → Nat × Nat
  | 0 => (256, 7681)
  | 1 => (256, 12289)
  | _ => (512, 12289)

/-- A kind other than B0 and B1 has q = 7681. -/
def smallElsewhere : Bool := [Kind.b2, .b3, .b4].any fun k => shapeRaw k % 3 == 0

/-- `(N(k), Q(k))`: B1's pair is fixed; another kind has any of R11's pairs, but both moduli, and so both
sizes, occur: where no other kind has q = 7681, B0 does (00_scope.md R11). Log 6. -/
def shape : Kind → Nat × Nat
  | .b1 => (512, 12289)
  | .b0 => if smallElsewhere then ringPair (shapeRaw .b0 % 3) else ringPair 0
  | k => ringPair (shapeRaw k % 3)

/-- `N(k)` (00_scope.md R11). -/
def N (k : Kind) : Nat := (shape k).1

/-- `Q(k)` (00_scope.md R11). -/
def Q (k : Kind) : Nat := (shape k).2

/-- `NBITS(k)` = log2 N(k) (00_scope.md R11). -/
def NBITS (k : Kind) : Nat := Nat.log2 (N k)

/-- `LMAX(k)` = 2^(NBITS+3) - 1 (00_scope.md R11, 44_huffman.md R302). -/
def LMAX (k : Kind) : Nat := 2 ^ (NBITS k + 3) - 1

/-- OPEN (D24): what stands for `PSI(k)` before R201's constraint is applied. Log 9. -/
opaque psiRaw : Kind → Nat

/-- A root that meets R201 for the kind's own (q, n), used only where `psiRaw` does not. -/
def psiSpare (k : Kind) : Nat := if Q k = 7681 then 62 else if N k = 256 then 2401 else 49

/-- `PSI(k)`: any root the constraint of 42_ntt.md R201 admits, none else (U14). Log 9. -/
def PSI (k : Kind) : Nat :=
  if (RingParams.mk (Q k) (N k) (psiRaw k)).rootValid then psiRaw k else psiSpare k

/-- The ring of kind `k` (00_scope.md R16). -/
def ring (k : Kind) : RingParams := ⟨Q k, N k, PSI k⟩

/-- OPEN (D24): fixes `ELL(k)` within its bound. -/
opaque ellRaw : Kind → Nat

/-- `ELL(k)`: any number from 1 to 32 (00_scope.md R11). Log 9. -/
def ELL (k : Kind) : Nat := ellRaw k % 32 + 1

/-- OPEN (D24): fixes `COLS(k)` within its bound. -/
opaque colsRaw : Kind → Nat

/-- `COLS(k)`: any number from 1 (00_scope.md R11). Log 9. -/
def COLS (k : Kind) : Nat := colsRaw k + 1

/-- `CDT(k)[i][j]`, any bytes: OPEN (43_sampler.md R251, D24). Log 9. -/
opaque CDT : Kind → Nat → Nat → Byte

/-- OPEN (D24): fixes `KSIGMABITS(k)` within its bound. -/
opaque ksigmaBitsRaw : Kind → Nat

/-- `KSIGMABITS(k)`: any number from 0 to 32 (00_scope.md R11). Log 9. -/
def KSIGMABITS (k : Kind) : Nat := ksigmaBitsRaw k % 33

/-- OPEN (D24): fixes `KSIGMA(k)` within its bound. -/
opaque ksigmaRaw : Kind → Nat

/-- `KSIGMA(k)`: any number from 1 to 2^KSIGMABITS(k) (00_scope.md R11). U12's tighter limits are not
imposed: R256's truncations give the value beyond them. DESIGN CHOICE, safe: logs 9 and 10. -/
def KSIGMA (k : Kind) : Nat := ksigmaRaw k % 2 ^ KSIGMABITS k + 1

/-- The sampler's parameters for kind `k` (43_sampler.md R250). -/
def sampler (k : Kind) : SamplerParams := ⟨ELL k, COLS k, CDT k, KSIGMA k, KSIGMABITS k⟩

/-- OPEN (D24): what stands for `HUFF(k)` before R301's constraints are applied. Log 9. -/
opaque huffRaw : Kind → List CodeEntry

/-- `HUFF(k)`: any codebook that meets 44_huffman.md R301, one that encodes nothing included; a raw list
that does not meet it is no configuration (U14), and the empty codebook stands in for it. Log 9. -/
def HUFF (k : Kind) : List CodeEntry := if codebookValid (huffRaw k) then huffRaw k else []

/-- The codec's parameters for kind `k` (44_huffman.md R301, R302). -/
def codec (k : Kind) : CodecParams := ⟨HUFF k, LMAX k, N k⟩

/-- `HASH`: any total function of the 64 input bytes (00_scope.md R12, D51, U13). Log 8. -/
opaque HASH : Vector Byte 64 → Vector Byte 64

/-- OPEN (D25): fixes `POOL_BLOCKS` within its bound. -/
opaque poolBlocksRaw : Nat

/-- `POOL_BLOCKS`: any number from 1 (00_scope.md R10, D25; the spec's default 10 is one of them).
Log 7. -/
def POOL_BLOCKS : Nat := poolBlocksRaw + 1

/-- The entropy unit's parameters. -/
def pool : PoolParams := ⟨HASH, POOL_BLOCKS⟩

/-- The i-th free value: what a host read of a bank, a buffer or `DOMAIN` returns while the engine is
busy (20_memory.md R88, U2). Log 5. -/
opaque freeValue : Nat → Word

end Config
end Sys2Proof
end

