-- ==== Sys2Proof/Syntax.lean ====
section
/-! DEFINITION. The command set BLE-1.0: one constructor for each row of the opcode map
(30_encoding.md R114), operands in the assembler's order D, A, B (R117). -/

namespace Sys2Proof

/-- A bank number, the 3-bit field of R111 and R112: the value b names bank `Pb`. Every value of the type
is a bank, so an operand cannot be ill-formed. -/
abbrev Bank := BitVec 3

inductive Instr where
  | nop
  | nttFwd (d a : Bank)
  | nttInv (d a : Bank)
  | nttPmul (d a b : Bank)
  | nttNeg (d a : Bank)
  | nttInvert (d a : Bank)
  | nttMul (d a b : Bank)
  | nttModq (d a : Bank)
  | smpGauss (d : Bank)
  | smpGauss1
  | smpPosbin
  | smpBer
  | smpBerexp
  | smpBercosh
  | entSeed
  | entBit
  | entBits
  | entByte
  | entR16
  | entR64
  | hufEnc
  | hufDec
  deriving DecidableEq, Repr

/-- The fields of a command word before any of them is judged (30_encoding.md R111). -/
structure CmdFields where
  op : BitVec 8
  d : BitVec 3
  z0 : BitVec 1
  a : BitVec 3
  z1 : BitVec 1
  b : BitVec 3
  z2 : BitVec 13
  deriving DecidableEq, Repr

end Sys2Proof
end

