-- ==== Sys2Proof/WellFormed.lean ====
section
/-! DEFINITION. When the fields of a command word are legal (30_encoding.md R115), said from the opcode
map's table and apart from the decoder: the three ways to be illegal are three checks. An operand of
`Instr` is a 3-bit bank number, so a term of `Instr` needs no check of its own. -/

namespace Sys2Proof

/-- A row of R114: the opcode and the bank fields it uses. -/
structure OpRow where
  op : BitVec 8
  usesD : Bool
  usesA : Bool
  usesB : Bool
  deriving DecidableEq, Repr

def nttRows : List OpRow :=
  [⟨0x01, true, true, false⟩, ⟨0x02, true, true, false⟩, ⟨0x03, true, true, true⟩,
   ⟨0x04, true, true, false⟩, ⟨0x05, true, true, false⟩, ⟨0x06, true, true, true⟩,
   ⟨0x07, true, true, false⟩]

def smpRows : List OpRow :=
  [⟨0x10, true, false, false⟩, ⟨0x11, false, false, false⟩, ⟨0x12, false, false, false⟩,
   ⟨0x13, false, false, false⟩, ⟨0x14, false, false, false⟩, ⟨0x15, false, false, false⟩]

def entRows : List OpRow :=
  [⟨0x20, false, false, false⟩, ⟨0x21, false, false, false⟩, ⟨0x22, false, false, false⟩,
   ⟨0x23, false, false, false⟩, ⟨0x24, false, false, false⟩, ⟨0x25, false, false, false⟩]

def hufRows : List OpRow :=
  [⟨0x30, false, false, false⟩, ⟨0x31, false, false, false⟩]

/-- The opcode map of R114. -/
def opRows : List OpRow :=
  ⟨0x00, false, false, false⟩ :: (nttRows ++ smpRows ++ entRows ++ hufRows)

/-- The opcode is listed (R115, first way to be illegal). -/
def CmdFields.opListed (f : CmdFields) : Bool := opRows.any (fun r => r.op == f.op)

/-- The reserved fields are zero (R115, second way). -/
def CmdFields.reservedZero (f : CmdFields) : Bool := f.z0 == 0 && f.z1 == 0 && f.z2 == 0

/-- Each bank field the opcode does not use is zero (R113; R115, third way). -/
def CmdFields.unusedZero (f : CmdFields) : Bool :=
  opRows.all (fun r => r.op != f.op ||
    ((r.usesD || f.d == 0) && (r.usesA || f.a == 0) && (r.usesB || f.b == 0)))

/-- The command word is legal (R115). -/
def CmdFields.legal (f : CmdFields) : Bool := f.opListed && f.reservedZero && f.unusedZero

end Sys2Proof
end

