-- ==== Sys2Proof/Decode.lean ====
section
/-! DEFINITION. The decoder of command words, total, rejecting by name (30_encoding.md R110 to R115), and
after it the encoder (R111, R114). -/

namespace Sys2Proof

/-- Why a word is no command (30_encoding.md R115). The engine ends every one of them with
`ERR_ILLEGAL` (60_exceptions.md R341). -/
inductive DecodeError where
  | unlistedOp
  | reservedBit
  | unusedField
  deriving DecidableEq, Repr

/-- The fields of a word (R111). -/
def fieldsOf (w : Word) : CmdFields where
  op := w.extractLsb' 0 8
  d := w.extractLsb' 8 3
  z0 := w.extractLsb' 11 1
  a := w.extractLsb' 12 3
  z1 := w.extractLsb' 15 1
  b := w.extractLsb' 16 3
  z2 := w.extractLsb' 19 13

/-- A row that uses no bank field. -/
def rowNone (f : CmdFields) (i : Instr) : Except DecodeError Instr :=
  if f.d = 0 ∧ f.a = 0 ∧ f.b = 0 then .ok i else .error .unusedField

/-- A row that uses D. -/
def rowD (f : CmdFields) (mk : Bank → Instr) : Except DecodeError Instr :=
  if f.a = 0 ∧ f.b = 0 then .ok (mk f.d) else .error .unusedField

/-- A row that uses D and A. -/
def rowDA (f : CmdFields) (mk : Bank → Bank → Instr) : Except DecodeError Instr :=
  if f.b = 0 then .ok (mk f.d f.a) else .error .unusedField

/-- A row that uses D, A and B. -/
def rowDAB (f : CmdFields) (mk : Bank → Bank → Bank → Instr) : Except DecodeError Instr :=
  .ok (mk f.d f.a f.b)

/-- The opcode map (R114). -/
def decodeOp (f : CmdFields) : Except DecodeError Instr :=
  match f.op.toNat with
  | 0x00 => rowNone f .nop
  | 0x01 => rowDA f .nttFwd
  | 0x02 => rowDA f .nttInv
  | 0x03 => rowDAB f .nttPmul
  | 0x04 => rowDA f .nttNeg
  | 0x05 => rowDA f .nttInvert
  | 0x06 => rowDAB f .nttMul
  | 0x07 => rowDA f .nttModq
  | 0x10 => rowD f .smpGauss
  | 0x11 => rowNone f .smpGauss1
  | 0x12 => rowNone f .smpPosbin
  | 0x13 => rowNone f .smpBer
  | 0x14 => rowNone f .smpBerexp
  | 0x15 => rowNone f .smpBercosh
  | 0x20 => rowNone f .entSeed
  | 0x21 => rowNone f .entBit
  | 0x22 => rowNone f .entBits
  | 0x23 => rowNone f .entByte
  | 0x24 => rowNone f .entR16
  | 0x25 => rowNone f .entR64
  | 0x30 => rowNone f .hufEnc
  | 0x31 => rowNone f .hufDec
  | _ => .error .unlistedOp

/-- The command a word is, or why it is illegal (R115). -/
def decode (w : Word) : Except DecodeError Instr :=
  let f := fieldsOf w
  if f.z0 = 0 ∧ f.z1 = 0 ∧ f.z2 = 0 then decodeOp f else .error .reservedBit

/-- The word of an instruction whose bits are `w`, numbered as the opcode table numbers them: every row
is one 32-bit word, so bit i of `w` is bit i of the word. -/
def tableWord (nbits w : Nat) : Word := BitVec.ofNat 32 (w % 2 ^ nbits)

/-- The instruction the decoder reads from a table word. -/
def decodeTableWord (nbits w : Nat) : Option Instr :=
  match decode (tableWord nbits w) with
  | .ok i => some i
  | .error _ => none

/-- `word = OP | (D << 8) | (A << 12) | (B << 16)` (R111). -/
def assemble (op : BitVec 8) (d a b : Bank) : Word :=
  op.setWidth 32 ||| (d.setWidth 32 <<< 8) ||| (a.setWidth 32 <<< 12) ||| (b.setWidth 32 <<< 16)

/-- The command word of an instruction (R111, R113, R114). -/
def encode : Instr → Word
  | .nop => assemble 0x00 0 0 0
  | .nttFwd d a => assemble 0x01 d a 0
  | .nttInv d a => assemble 0x02 d a 0
  | .nttPmul d a b => assemble 0x03 d a b
  | .nttNeg d a => assemble 0x04 d a 0
  | .nttInvert d a => assemble 0x05 d a 0
  | .nttMul d a b => assemble 0x06 d a b
  | .nttModq d a => assemble 0x07 d a 0
  | .smpGauss d => assemble 0x10 d 0 0
  | .smpGauss1 => assemble 0x11 0 0 0
  | .smpPosbin => assemble 0x12 0 0 0
  | .smpBer => assemble 0x13 0 0 0
  | .smpBerexp => assemble 0x14 0 0 0
  | .smpBercosh => assemble 0x15 0 0 0
  | .entSeed => assemble 0x20 0 0 0
  | .entBit => assemble 0x21 0 0 0
  | .entBits => assemble 0x22 0 0 0
  | .entByte => assemble 0x23 0 0 0
  | .entR16 => assemble 0x24 0 0 0
  | .entR64 => assemble 0x25 0 0 0
  | .hufEnc => assemble 0x30 0 0 0
  | .hufDec => assemble 0x31 0 0 0

end Sys2Proof
end

