-- ==== Sys2Proof/Machine/State.lean ====
section
/-! DEFINITION. The state of the block (10_state.md), plain data, and its value right after reset
(10_state.md R54, 70_reset_and_hazards.md R380). -/

namespace Sys2Proof.Machine

/-- The host-visible memories of the window: (offset, byte) pairs at strictly rising offsets. A byte that
nothing has written since reset is not listed and has no value (10_state.md R33, R36). Safe: log 3. -/
abbrev Memory := List Host.Cell

/-- The stored fields of `CTRL` (10_state.md R42). `ABORT` and the reserved bits have no storage. -/
structure Ctrl where
  kind : BitVec 3
  slow : Bool
  irqEn : Bool
  deriving DecidableEq, Repr

/-- The fields of `STATUS` (10_state.md R43). -/
structure Status where
  busy : Bool
  done : Bool
  err : Bool
  ovr : Bool
  errcode : BitVec 4
  deriving DecidableEq, Repr

/-- The entropy unit (10_state.md R50, 41_entropy.md R160): the live seed, the byte, 16-bit and 64-bit
pools with their cursors, and the bit pool. -/
structure Entropy where
  S : Seed
  BP : List Byte
  bpos : Nat
  HP : List Half
  hpos : Nat
  WP : List DWord
  wpos : Nat
  bitbuf : DWord
  bitavail : Nat
  deriving DecidableEq, Repr

/-- The engine's latched context (10_state.md R51, 40_control.md R142) and its position inside a command:
`drawn` holds the draws made so far for the value being computed, `pending` the pending results already
known (40_control.md R144). DESIGN CHOICE, safe: log 13. -/
structure Latched where
  cmd : Word
  kind : BitVec 3
  slow : Bool
  a0 : Word
  a1 : Word
  dom : BitVec 8
  seedstage : Vector Word 16
  drawn : List DWord
  pending : List Word
  deriving DecidableEq, Repr

/-- The widths a host access can have (20_memory.md R80 `size`, R87). DESIGN CHOICE: log 16. -/
inductive AccessSize where
  | byte | half | word
  deriving DecidableEq, Repr

/-- One host access as the bus request port carries it (20_memory.md R80). -/
structure BusReq where
  addr : BitVec 15
  write : Bool
  wdata : Word
  size : AccessSize
  deriving DecidableEq, Repr

/-- The response to the last host access (20_memory.md R80): a read's `rdata`, or a write's answer, both
with `error` = 0. A bus error is `Fault.busError`. -/
inductive BusResp where
  | none
  | readData (rdata : Word)
  | writeDone
  deriving DecidableEq, Repr

/-- What the host side does in one of its turns: a bus access, or a level of `rst` at a clock edge
(20_memory.md R80, 70_reset_and_hazards.md R380). -/
inductive HostOp where
  | access (r : BusReq)
  | rst (level : Bool)
  deriving DecidableEq, Repr

/-- Whose transition comes next (70_reset_and_hazards.md R387). -/
inductive Agent where
  | host | engine
  deriving DecidableEq, Repr

/-- The error codes a command can end with (60_exceptions.md R341, codes 1 to 10). -/
inductive ErrCode where
  | illegal | kind | arg | domain | range | notinv | symbol | overflow | corrupt | aborted
  deriving DecidableEq, Repr

structure State where
  ctrl : Ctrl
  status : Status
  cmd : Word
  domain : BitVec 8
  arg0 : Word
  arg1 : Word
  result0 : Word
  result1 : Word
  seeds : Vector Word 16
  mem : Memory
  ent : Entropy
  run : Latched
  rst : Bool
  resp : BusResp
  /-- The host actions still to come, in issue order (the environment). Log 1. -/
  inbox : List HostOp
  /-- Whose turn the coming steps are. Log 1. -/
  turns : List Agent
  /-- The model's own counter: the index of the next free value. Log 5. -/
  freeIdx : Nat
  deriving DecidableEq, Repr

/-- Why the machine stops. Both are safe: the block itself goes on. -/
inductive Fault where
  /-- Raised by a command or a host read that reads a byte of a bank, SYMBUF or CODEBUF which nothing
  has written since reset (10_state.md R33, R36, U1). Safe: log 3. -/
  | unwrittenRead
  /-- Raised by a host access that is not a word, not aligned or not mapped (20_memory.md R87, which
  answers it with `error` = 1, `rdata` = 0 and no effect; R346, U8). Safe: log 4. -/
  | busError
  deriving DecidableEq, Repr

/-- Why the model gives no meaning. -/
inductive Refusal where
  /-- Raised by an arm of `exec` that has no meaning yet; no arm is left so. Safe. -/
  | notModelled (mnemonic : String)
  deriving DecidableEq, Repr

/-- The entropy state after reset: live seed 0, every pool empty (10_state.md R50). The contents of an
empty pool are unspecified and unreadable: DESIGN CHOICE empty lists and 0, log 12. -/
def Entropy.reset : Entropy where
  S := 0
  BP := []
  bpos := 64 * Config.POOL_BLOCKS
  HP := []
  hpos := 32 * Config.POOL_BLOCKS
  WP := []
  wpos := 8 * Config.POOL_BLOCKS
  bitbuf := 0
  bitavail := 0

/-- The latched context after reset. The spec gives it no value and no command reads it before an
acceptance overwrites it: DESIGN CHOICE zero and empty, log 11. -/
def Latched.reset : Latched where
  cmd := 0
  kind := 0
  slow := false
  a0 := 0
  a1 := 0
  dom := 0
  seedstage := Vector.replicate 16 0
  drawn := []
  pending := []

/-- The machine right after reset (10_state.md R54, 70_reset_and_hazards.md R380), `rst` low again. -/
def State.reset : State where
  ctrl := { kind := 0, slow := false, irqEn := false }
  status := { busy := false, done := false, err := false, ovr := false, errcode := 0 }
  cmd := 0
  domain := 0
  arg0 := 0
  arg1 := 0
  result0 := 0
  result1 := 0
  seeds := Vector.replicate 16 0
  mem := []
  ent := Entropy.reset
  run := Latched.reset
  rst := false
  resp := .none
  inbox := []
  turns := []
  freeIdx := 0

end Sys2Proof.Machine
end

