-- ==== Sys2Proof/Machine/Flags.lean ====
section
/-! DEFINITION. Every flag computation of the spec: the fields of `STATUS` and `CTRL` as words, the events
that change them, and the interrupt output (10_state.md R42, R43; 60_exceptions.md R340 to R352). -/

namespace Sys2Proof.Machine

/-- The value of `STATUS.ERRCODE` (60_exceptions.md R341). -/
def ErrCode.bits : ErrCode → BitVec 4
  | .illegal => 1
  | .kind => 2
  | .arg => 3
  | .domain => 4
  | .range => 5
  | .notinv => 6
  | .symbol => 7
  | .overflow => 8
  | .corrupt => 9
  | .aborted => 10

/-- A flag as one bit. -/
def flagBit (b : Bool) : BitVec 1 := BitVec.ofBool b

/-- What a read of `STATUS` returns (10_state.md R43): bits 31:12 and 7:4 read 0. -/
def Status.word (st : Status) : Word :=
  (0 : BitVec 20) ++ st.errcode ++ (0 : BitVec 4) ++ flagBit st.ovr ++ flagBit st.err ++
    flagBit st.done ++ flagBit st.busy

/-- What a read of `CTRL` returns (10_state.md R42): the reserved bits and `ABORT` read 0. -/
def Ctrl.word (c : Ctrl) : Word :=
  (0 : BitVec 23) ++ flagBit c.irqEn ++ (0 : BitVec 3) ++ flagBit c.slow ++ (0 : BitVec 1) ++ c.kind

/-- The fields a write of `CTRL` stores (10_state.md R42). -/
def Ctrl.ofWord (w : Word) : Ctrl where
  kind := w.extractLsb' 0 3
  slow := w.getLsbD 4
  irqEn := w.getLsbD 8

/-- The write asks for an abort (10_state.md R42 bit 16). -/
def abortBit (w : Word) : Bool := w.getLsbD 16

/-- A host write of `STATUS` (10_state.md R43): write 1 to clear `DONE`, `ERR` (and `ERRCODE` with it)
and `OVR`. -/
def Status.writeClear (st : Status) (w : Word) : Status :=
  { busy := st.busy
    done := st.done && !w.getLsbD 1
    err := st.err && !w.getLsbD 2
    ovr := st.ovr && !w.getLsbD 3
    errcode := if w.getLsbD 2 then 0 else st.errcode }

/-- Acceptance of a command (40_control.md R140). -/
def Status.accepted (st : Status) : Status := { st with done := false, busy := true }

/-- An ignored host write (40_control.md R141, 20_memory.md R88). -/
def Status.overrun (st : Status) : Status := { st with ovr := true }

/-- Successful completion (40_control.md R145). -/
def Status.completed (st : Status) : Status := { st with busy := false, done := true }

/-- Error completion (60_exceptions.md R340). -/
def Status.failed (st : Status) (e : ErrCode) : Status :=
  { st with errcode := e.bits, err := true, busy := false, done := true }

/-- The level of the `irq` output (60_exceptions.md R352). -/
def State.irq (s : State) : Bool := s.ctrl.irqEn && s.status.done

end Sys2Proof.Machine
end

