-- ==== Sys2Proof/Machine/Ops.lean ====
section
/-! DEFINITION. The named operations over memory and registers: bytes and words of the window, the
domain tags, acceptance, commit, error completion and abort, and reset. -/

namespace Sys2Proof.Machine

/-- What one step answers. -/
abbrev Result := Host.Outcome State Fault Refusal

/-! ### Memory -/

/-- Offsets of SYMBUF, CODEBUF and the banks in the window (20_memory.md R82). -/
def symBase : Nat := 0x0800
def codeBase : Nat := 0x0C00
def bankBase : Nat := 0x4000

/-- The offset is a byte of SYMBUF, CODEBUF or a bank (20_memory.md R82). -/
def isStore (a : Nat) : Bool :=
  (decide (0x0800 ≤ a) && decide (a < 0x0A00)) || (decide (0x0C00 ≤ a) && decide (a < 0x0E00)) ||
    (decide (0x4000 ≤ a) && decide (a < 0x8000))

/-- The canonical form: offsets strictly rise, and each is one a memory of the window has. An unlisted
byte has no value, so no entry can equal one. -/
def Memory.wf (m : Memory) : Bool :=
  decide (m.Pairwise (fun x y => x.1 < y.1)) && m.all (fun c => isStore c.1)

/-- The byte at an offset, if something wrote it since reset. -/
def Memory.byte? (m : Memory) (a : Nat) : Option Byte := List.lookup a m

/-- The bytes `bs` as cells from offset `a` on. -/
def cellsFrom (a : Nat) : List Byte → List Host.Cell
  | [] => []
  | b :: bs => (a, b) :: cellsFrom (a + 1) bs

/-- Store the bytes `bs` from offset `a` on. -/
def Memory.write (m : Memory) (a : Nat) (bs : List Byte) : Memory :=
  m.filter (fun c => decide (c.1 < a)) ++ cellsFrom a bs ++
    m.filter (fun c => decide (a + bs.length ≤ c.1))

/-- A word as its bytes, least significant first (20_memory.md R86). -/
def wordBytes (w : Word) : List Byte :=
  [w.extractLsb' 0 8, w.extractLsb' 8 8, w.extractLsb' 16 8, w.extractLsb' 24 8]

/-- A word from its bytes, least significant first (20_memory.md R84 to R86). -/
def wordOfBytes (b0 b1 b2 b3 : Byte) : Word := b3 ++ b2 ++ b1 ++ b0

/-- The word at an offset, if all its bytes have been written since reset. -/
def Memory.word? (m : Memory) (a : Nat) : Option Word :=
  match m.byte? a, m.byte? (a + 1), m.byte? (a + 2), m.byte? (a + 3) with
  | some b0, some b1, some b2, some b3 => some (wordOfBytes b0 b1 b2 b3)
  | _, _, _, _ => none

/-- All the values, if each is there. -/
def collect {α : Type} : List (Option α) → Option (List α)
  | [] => some []
  | none :: _ => none
  | some x :: rest =>
    match collect rest with
    | some xs => some (x :: xs)
    | none => none

/-! ### Banks, buffers and tags -/

/-- Offset of word i of a bank (20_memory.md R83). -/
def bankAddr (b : Bank) (i : Nat) : Nat := bankBase + 0x800 * b.toNat + 4 * i

/-- `P[b][i]` (00_scope.md R15). -/
def State.bankWord? (s : State) (b : Bank) (i : Nat) : Option Word := s.mem.word? (bankAddr b i)

/-- Words 0..n-1 of a bank (10_state.md R32), if each has been written since reset (R33). -/
def State.readBank (s : State) (b : Bank) (n : Nat) : Option (List Word) :=
  collect ((List.range n).map (fun i => s.bankWord? b i))

/-- `SYM[j]` (00_scope.md R15, 20_memory.md R84). -/
def State.sym? (s : State) (j : Nat) : Option Byte := s.mem.byte? (symBase + j)

/-- `CODE[j]` (00_scope.md R15, 20_memory.md R85). -/
def State.code? (s : State) (j : Nat) : Option Byte := s.mem.byte? (codeBase + j)

/-- `CODE[0..n-1]`, if each has been written since reset (10_state.md R36). -/
def State.readCode (s : State) (n : Nat) : Option (List Byte) :=
  collect ((List.range n).map (fun j => s.code? j))

/-- The tag of bank b: true is T, transform; false is N, normal (10_state.md R37, 42_ntt.md R207). -/
def tagOf (dom : BitVec 8) (b : Bank) : Bool := dom.getLsbD b.toNat

/-- Bank b's tag set to t (10_state.md R37). -/
def setTag (dom : BitVec 8) (b : Bank) (t : Bool) : BitVec 8 :=
  if t then dom ||| (1#8 <<< b.toNat) else dom &&& ~~~(1#8 <<< b.toNat)

/-- Store words 0.. of bank b. -/
def State.writeBank (s : State) (b : Bank) (ws : List Word) : State :=
  { s with mem := s.mem.write (bankAddr b 0) (ws.flatMap wordBytes) }

/-! ### The command lifecycle -/

/-- Nothing is pending: a completed, failed or aborted command leaves no pending result. -/
def Latched.cleared (l : Latched) : Latched := { l with drawn := [], pending := [] }

/-- The latched context taken at acceptance of `w` (40_control.md R142). -/
def State.latch (s : State) (w : Word) : Latched where
  cmd := w
  kind := s.ctrl.kind
  slow := s.ctrl.slow
  a0 := s.arg0
  a1 := s.arg1
  dom := s.domain
  seedstage := s.seeds
  drawn := []
  pending := []

/-- Acceptance of a command word (40_control.md R140). -/
def State.accept (s : State) (w : Word) : State :=
  { s with cmd := w, status := s.status.accepted, run := s.latch w }

/-- A host write that is ignored and recorded (40_control.md R141, 20_memory.md R88). -/
def State.overrun (s : State) : State := { s with status := s.status.overrun }

/-- Successful completion (40_control.md R145); the pending writes are made before it, in the same step. -/
def State.commit (s : State) : State :=
  { s with status := s.status.completed, run := s.run.cleared }

/-- Error completion, the one way a command ends in an error, an abort included (60_exceptions.md R340,
R356): every pending result is discarded and `STATUS` reports the code. -/
def State.fail (s : State) (e : ErrCode) : State :=
  { s with status := s.status.failed e, run := s.run.cleared }

/-- The host's way back from a completion (60_exceptions.md R354): the write-1-to-clear of `STATUS`. -/
def State.clearStatus (s : State) (w : Word) : State :=
  { s with status := s.status.writeClear w }

/-- A write of `CTRL` (10_state.md R42): its fields are stored, and with `ABORT` = 1 a running command
ends (60_exceptions.md R356). -/
def State.writeCtrl (s : State) (w : Word) : State :=
  let s' := { s with ctrl := Ctrl.ofWord w }
  if abortBit w && s.status.busy then s'.fail .aborted else s'

/-- A write of `CMD` (40_control.md R140, R141). -/
def State.issue (s : State) (w : Word) : State :=
  if s.status.busy || s.status.err then s.overrun else s.accept w

/-- `rst` = 1 at a clock edge (70_reset_and_hazards.md R380). The environment's lists, the last response
and the model's counter are no registers of the block and stay. DESIGN CHOICE, safe: log 17. -/
def State.pinReset (s : State) : State :=
  { State.reset with
    rst := true, resp := s.resp, inbox := s.inbox, turns := s.turns, freeIdx := s.freeIdx }

/-- Commit a bank and its tag (40_control.md R145, 42_ntt.md R200). -/
def State.commitBank (s : State) (d : Bank) (ws : List Word) (tag : Bool) : State :=
  ({ s.writeBank d ws with domain := setTag s.domain d tag }).commit

/-- Commit `RESULT0` (40_control.md R145). -/
def State.commitResult (s : State) (v : Word) : State := ({ s with result0 := v }).commit

/-- Commit `RESULT0` and `RESULT1` (40_control.md R145). -/
def State.commitResults (s : State) (lo hi : Word) : State :=
  ({ s with result0 := lo, result1 := hi }).commit

/-- Commit bytes of SYMBUF (40_control.md R145). -/
def State.commitSym (s : State) (bs : List Byte) : State :=
  ({ s with mem := s.mem.write symBase bs }).commit

/-- Commit bytes of CODEBUF and `RESULT0` (40_control.md R145). -/
def State.commitCode (s : State) (bs : List Byte) (len : Word) : State :=
  ({ s with mem := s.mem.write codeBase bs, result0 := len }).commit

end Sys2Proof.Machine
end

