-- ==== Sys2Proof/Machine/Operands.lean ====
section
/-! DEFINITION. Every operand form of a command: the latched kind, the scalar operands, the source banks
with their tag and range checks, in the order of 40_control.md R143 (30_encoding.md R112, R116). -/

namespace Sys2Proof.Machine

/-- The parameter set a latched kind selects: 5, 6 and 7 select none (00_scope.md R3). -/
def kindOf (k : BitVec 3) : Option Kind :=
  match k.toNat with
  | 0 => some .b0
  | 1 => some .b1
  | 2 => some .b2
  | 3 => some .b3
  | 4 => some .b4
  | _ => none

/-- Check 2 of 40_control.md R143: the latched kind is valid, else `ERR_KIND`. -/
def withKind (s : State) (body : Kind → Result) : Result :=
  match kindOf s.run.kind with
  | some k => body k
  | none => .next (s.fail .kind)

/-- Check 3 of R143: a scalar operand is in its legal range, else `ERR_ARG`. -/
def withArg (s : State) (legal : Bool) (body : Result) : Result :=
  if legal then body else .next (s.fail .arg)

/-- Check 4 of R143: a source bank's latched tag is the one required, else `ERR_DOMAIN`. -/
def withTag (s : State) (b : Bank) (tag : Bool) (body : Result) : Result :=
  if tagOf s.run.dom b = tag then body else .next (s.fail .domain)

/-- Words 0..n-1 of a source bank as they stand; an unwritten one stops the run (10_state.md R33). -/
def withWords (s : State) (b : Bank) (n : Nat) (body : List Word → Result) : Result :=
  match s.readBank b n with
  | some ws => body ws
  | none => .fault .unwrittenRead

/-- A word read as s32 lies in [0, q) (42_ntt.md R206). -/
def inRange (q : Nat) (w : Word) : Bool := decide (0 ≤ w.toInt) && decide (w.toInt < (q : Int))

/-- Check 5 of R143: the coefficients of a source bank, each in [0, q), else `ERR_RANGE`. -/
def withCoeffs (s : State) (b : Bank) (r : RingParams) (body : List Nat → Result) : Result :=
  withWords s b r.n fun ws =>
    if ws.all (inRange r.q) then body (ws.map BitVec.toNat) else .next (s.fail .range)

/-- A coefficient as the word a bank stores. -/
def coeffWord (c : Nat) : Word := BitVec.ofNat 32 c

end Sys2Proof.Machine
end

