-- ==== Sys2Proof/Machine/Bus.lean ====
section
/-! DEFINITION. The host's side: the register map and the bus accesses (20_memory.md, 10_state.md), the
`rst` input, and what the host does in one of its turns. -/

namespace Sys2Proof.Machine

/-- What an offset of the window is (20_memory.md R82). -/
inductive Target where
  | id | version | ctrl | status | cmd | domain | arg0 | arg1 | result0 | result1 | paramQ | paramN
  | reserved
  | seed (j : Fin 16)
  | store (a : Nat)
  deriving DecidableEq, Repr

/-- The map of R82, for a word-aligned offset; none where it is unmapped. -/
def targetAt (a : Nat) : Option Target :=
  if a < 0x40 then
    match a / 4 with
    | 0 => some .id
    | 1 => some .version
    | 2 => some .ctrl
    | 3 => some .status
    | 4 => some .cmd
    | 5 => some .domain
    | 6 => some .arg0
    | 7 => some .arg1
    | 8 => some .result0
    | 9 => some .result1
    | 10 => some .paramQ
    | 11 => some .paramN
    | _ => some .reserved
  else if a < 0x80 then some (.seed (Fin.ofNat 16 ((a - 0x40) / 4)))
  else if isStore a then some (.store a)
  else none

/-- The access is a word, aligned, and mapped: its target; none is a bus error (R87). -/
def BusReq.target (r : BusReq) : Option Target :=
  if r.size = .word ∧ r.addr.toNat % 4 = 0 then targetAt r.addr.toNat else none

/-- `PARAM_Q` and `PARAM_N` follow the current `CTRL.KIND`, and read 0 for an invalid one (10_state.md
R47). -/
def paramOf (f : Kind → Nat) (c : Ctrl) : Word :=
  match kindOf c.kind with
  | some k => BitVec.ofNat 32 (f k)
  | none => 0

/-- The value a register reads as (10_state.md R37 to R48); the memories are read elsewhere. -/
def State.regValue (s : State) : Target → Word
  | .id => 0x424C4953
  | .version => 0x00010000
  | .ctrl => s.ctrl.word
  | .status => s.status.word
  | .cmd => s.cmd
  | .domain => s.domain.setWidth 32
  | .arg0 => s.arg0
  | .arg1 => s.arg1
  | .result0 => s.result0
  | .result1 => s.result1
  | .paramQ => paramOf Config.Q s.ctrl
  | .paramN => paramOf Config.N s.ctrl
  | .reserved => 0
  | .seed j => s.seeds[j]
  | .store _ => 0

/-- `DOMAIN`, the buffers and the banks are the engine's while a command runs (20_memory.md R88). -/
def Target.engineOwned : Target → Bool
  | .domain => true
  | .store _ => true
  | _ => false

/-- The host access is answered with a read's data. -/
def State.answer (s : State) (w : Word) : State := { s with resp := .readData w }

/-- The host access is answered with data the spec does not fix (20_memory.md R88, U2): a free value. All
32 bits are free for `DOMAIN` too, whose bits 31:8 read 0 while idle (10_state.md R37, R39). DESIGN CHOICE,
safe: log 5. -/
def State.answerFree (s : State) : State :=
  { s with resp := .readData (Config.freeValue s.freeIdx), freeIdx := s.freeIdx + 1 }

/-- A host read (20_memory.md R83 to R89). -/
def busRead (t : Target) (s : State) : Result :=
  if t.engineOwned && s.status.busy then .next s.answerFree
  else
    match t with
    | .store a =>
      match s.mem.word? a with
      | some w => .next (s.answer w)
      | none => .fault .unwrittenRead
    | t => .next (s.answer (s.regValue t))

/-- The effect of a host write (20_memory.md R88, R89; 10_state.md R37 to R48). A write of a read-only or
reserved register is ignored (R39). -/
def State.busStore (s : State) (t : Target) (w : Word) : State :=
  if t.engineOwned && s.status.busy then s.overrun
  else
    match t with
    | .ctrl => s.writeCtrl w
    | .status => s.clearStatus w
    | .cmd => s.issue w
    | .domain => { s with domain := w.setWidth 8 }
    | .arg0 => { s with arg0 := w }
    | .arg1 => { s with arg1 := w }
    | .seed j => { s with seeds := s.seeds.set j w }
    | .store a => { s with mem := s.mem.write a (wordBytes w) }
    | .id | .version | .result0 | .result1 | .paramQ | .paramN | .reserved => s

/-- One host access (20_memory.md R80, R87). -/
def busAccess (r : BusReq) (s : State) : Result :=
  match r.target with
  | none => .fault .busError
  | some t =>
    if r.write then .next { s.busStore t r.wdata with resp := .writeDone } else busRead t s

/-- While `rst` = 1 an access has no effect, reads return 0 and no bus error is signalled
(70_reset_and_hazards.md R380). -/
def State.answerInReset (s : State) (r : BusReq) : State :=
  { s with resp := if r.write then .writeDone else .readData 0 }

/-- One action of the host side. -/
def hostOp (op : HostOp) (s : State) : Result :=
  match op with
  | .rst true => .next s.pinReset
  | .rst false => .next { s with rst := false }
  | .access r => if s.rst then .next (s.answerInReset r) else busAccess r s

/-- The host's turn: its next action, if it has one. -/
def hostTurn (s : State) : Result :=
  match s.inbox with
  | [] => .next s
  | op :: rest => hostOp op { s with inbox := rest }

/-- Whose transition comes next, and the state with that turn taken: the schedule's first entry; with none
left, the engine while a command runs (70_reset_and_hazards.md R387, R390) and else the host. Log 1. -/
def State.takeTurn (s : State) : Agent × State :=
  match s.turns with
  | a :: rest => (a, { s with turns := rest })
  | [] => (if s.status.busy then .engine else .host, s)

/-- A command word placed where the engine takes its command from, as an accepted write of `CMD` leaves it
(40_control.md R140), with the engine's turn next. -/
def State.placeCommand (s : State) (w : Word) : State :=
  let s' := { s with status := { s.status with err := false, errcode := 0 }, rst := false,
                     turns := .engine :: s.turns }
  s'.accept w

end Sys2Proof.Machine
end

