-- ==== Sys2Proof/Machine/Control.lean ====
section
/-! DEFINITION. The control command. -/

namespace Sys2Proof.Machine

/-- `NOP` (40_control.md R147): commit with no pending results. -/
def execNop (s : State) : Result := .next s.commit

end Sys2Proof.Machine
end

