-- ==== Sys2Proof/Machine/Huffman.lean ====
section
/-! DEFINITION. The Huffman codec (44_huffman.md): symbols, codebook search, the stream, and the two HUF
commands. -/

namespace Sys2Proof.Machine

/-- The coarse component `hi = b[7:4]` of a byte (R300). -/
def symHi (b : Byte) : Int := ((b.extractLsb' 4 4).toNat : Int)

/-- The signed-magnitude component of a byte: `b[2:0]`, negated where `b[3]` = 1 (R300). -/
def symZ2 (b : Byte) : Int :=
  if b.getLsbD 3 then -((b.extractLsb' 0 3).toNat : Int) else ((b.extractLsb' 0 3).toNat : Int)

/-- A byte denotes the pair (R300). -/
def pairHasByte (hi z2 : Int) : Bool :=
  decide (0 ≤ hi) && decide (hi ≤ 15) && decide (-7 ≤ z2) && decide (z2 ≤ 7)

/-- The canonical byte of a pair (R300). -/
def canonByte (hi z2 : Int) : Byte :=
  BitVec.ofInt 8 (hi * 16 + (if 0 ≤ z2 then z2 else 8 + -z2))

/-- The entry of the symbol a byte denotes (R310). -/
def entryOfByte (book : List CodeEntry) (b : Byte) : Option CodeEntry :=
  book.find? (fun e => decide (e.hi = symHi b) && decide (e.z2 = symZ2 b))

/-- How encoding ends. -/
inductive Encoded where
  | stream (a len : Nat)
  | failed (e : ErrCode)
  | unwritten
  deriving DecidableEq, Repr

/-- R310's loop over the symbols j, j+1, ..., `left` of them; `a` and `len` are the rule's A and L. -/
def encodeFrom (book : List CodeEntry) (lmax : Nat) (rd : Nat → Option Byte) :
    Nat → Nat → Nat → Nat → Encoded
  | 0, _, a, len => .stream a len
  | left + 1, j, a, len =>
    match rd j with
    | none => .unwritten
    | some b =>
      match entryOfByte book b with
      | none => .failed .symbol
      | some e =>
        if lmax < len + e.len then .failed .overflow
        else encodeFrom book lmax rd left (j + 1) (a * 2 ^ e.len + e.value) (len + e.len)

/-- `ceil(L/8)`. -/
def streamBytes (len : Nat) : Nat := (len + 7) / 8

/-- The stream's bytes: `CODE[j] = (A >> 8j) mod 256` (R303). -/
def streamOf (a len : Nat) : List Byte :=
  (List.range (streamBytes len)).map fun j => BitVec.ofNat 8 (a >>> (8 * j))

/-- A byte's bits, most significant first (R311). -/
def byteBits (b : Byte) : List Bool := (List.range 8).map fun i => b.getLsbD (7 - i)

/-- The L bits of a stream after the pad, from bytes `CODE[0..]` (R311). -/
def streamBits (bytes : List Byte) (len : Nat) : List Bool :=
  (bytes.reverse.flatMap byteBits).drop (8 * bytes.length - len)

/-- The entry whose codeword is (v, l) (R311). -/
def entryOfCode (book : List CodeEntry) (v l : Nat) : Option CodeEntry :=
  book.find? (fun e => decide (e.value = v) && decide (e.len = l))

/-- Some codeword has (v, l) as a proper beginning (R311). -/
def codeContinues (book : List CodeEntry) (v l : Nat) : Bool :=
  book.any (fun e => decide (l < e.len) && decide (e.value / 2 ^ (e.len - l) = v))

/-- R311's walk, bit by bit: `left` symbols still to come, (v, l) the codeword read so far, `out` the
symbols found. None is `ERR_CORRUPT`. -/
def decodeBits (book : List CodeEntry) : List Bool → Nat → Nat → Nat → List Byte → Option (List Byte)
  | [], left, _, _, out => if left = 0 then some out else none
  | _ :: _, 0, _, _, _ => none
  | b :: bits, left + 1, v, l, out =>
    let v' := 2 * v + b.toNat
    let l' := l + 1
    match entryOfCode book v' l' with
    | some e =>
      if pairHasByte e.hi e.z2 then decodeBits book bits left 0 0 (out ++ [canonByte e.hi e.z2])
      else none
    | none => if codeContinues book v' l' then decodeBits book bits (left + 1) v' l' out else none

/-- R310 on a codebook and its limits. -/
def hufEnc (c : CodecParams) (s : State) : Result :=
  withArg s (decide (1 ≤ s.run.a0.toNat) && decide (s.run.a0.toNat ≤ c.n)) <|
    match encodeFrom c.book c.lmax s.sym? s.run.a0.toNat 0 0 0 with
    | .stream a len => .next (s.commitCode (streamOf a len) (BitVec.ofNat 32 len))
    | .failed e => .next (s.fail e)
    | .unwritten => .fault .unwrittenRead

/-- R311 on a codebook and its limits. -/
def hufDec (c : CodecParams) (s : State) : Result :=
  withArg s (decide (s.run.a0.toNat ≤ c.lmax) && decide (1 ≤ s.run.a1.toNat) &&
      decide (s.run.a1.toNat ≤ c.n)) <|
    match s.readCode (streamBytes s.run.a0.toNat) with
    | none => .fault .unwrittenRead
    | some bytes =>
      match decodeBits c.book (streamBits bytes s.run.a0.toNat) s.run.a1.toNat 0 0 [] with
      | some out => .next (s.commitSym out)
      | none => .next (s.fail .corrupt)

/-- `HUF.ENC` (R310). -/
def execHufEnc (s : State) : Result := withKind s fun k => hufEnc (Config.codec k) s

/-- `HUF.DEC` (R311). -/
def execHufDec (s : State) : Result := withKind s fun k => hufDec (Config.codec k) s

end Sys2Proof.Machine
end

