-- ==== Sys2Proof/Machine/Ntt.lean ====
section
/-! DEFINITION. The NTT family (42_ntt.md): arithmetic mod q (00_scope.md R16), the twiddle laws, the
transforms, and the seven commands. -/

namespace Sys2Proof.Machine

/-! ### Arithmetic mod q (00_scope.md R16) -/

def addq (q a b : Nat) : Nat := (a + b) % q

/-- `(a - b) mod q`, floored (R13, R16). -/
def subq (q a b : Nat) : Nat := (((a : Int) - (b : Int)) % (q : Int)).toNat

def mulq (q a b : Nat) : Nat := (a * b) % q

def powq (q a e : Nat) : Nat := a ^ e % q

/-- The inverse of a mod the prime q, by Fermat. -/
def invq (q a : Nat) : Nat := powq q a (q - 2)

/-! ### Tables and transforms -/

/-- The forward twiddle `W[i]` (R201). -/
def twiddleW (r : RingParams) (i : Nat) : Nat := powq r.q r.psi i

/-- The inverse twiddle `R[i]` (R202). -/
def twiddleR (r : RingParams) (i : Nat) : Nat :=
  (r.q - mulq r.q (twiddleW r i) (invq r.q r.n)) % r.q

/-- Pointwise product with a table, `xmu` (R204). -/
def xmu (q : Nat) (v : List Nat) (table : Nat → Nat) : List Nat :=
  v.mapIdx (fun i c => mulq q c (table i))

/-- `FFT(v)[k]` by its closed form: the sum over i of `v[i]·ω^(i·k)` mod q, with `ω = ψ^2` (R203). -/
def fftCoeff (r : RingParams) (v : List Nat) (k : Nat) : Nat :=
  (v.mapIdx (fun i c => mulq r.q c (powq r.q (powq r.q r.psi (2 * k)) i))).sum % r.q

/-- The transform core: R203's closed form, in natural order. Any implementation of that form conforms
(R203); `fftLoop` below is the rule's own loop. DEDUCED, safe: log 14. -/
def fft (r : RingParams) (v : List Nat) : List Nat := (List.range r.n).map (fftCoeff r v)

/-- `Flip` (R205). -/
def flip (r : RingParams) (v : List Nat) : List Nat :=
  (List.range r.n).map fun i =>
    if i = 0 then (r.q - v.getD 0 0) % r.q else v.getD (r.n - i) 0

/-- `Forward(a) = FFT(xmu(a, W))` (R204). -/
def forward (r : RingParams) (a : List Nat) : List Nat := fft r (xmu r.q a (twiddleW r))

/-- `Inverse(t) = Flip(xmu(FFT(t), R))` (R205). -/
def inverse (r : RingParams) (t : List Nat) : List Nat := flip r (xmu r.q (fft r t) (twiddleR r))

/-- The pointwise product of two transforms (R212). -/
def pointwise (q : Nat) (a b : List Nat) : List Nat := List.zipWith (mulq q) a b

/-! ### R203's loop, as the rule writes it -/

/-- The L low bits of i, reversed (R203 `rev_L`). -/
def revBits : Nat → Nat → Nat
  | 0, _ => 0
  | l + 1, i => (i % 2) * 2 ^ l + revBits l (i / 2)

/-- One butterfly of R203: the pair (s+j, s+j+h) with its twiddle `W[j·(n/h)]`. -/
def butterfly (r : RingParams) (h s j : Nat) (u : List Nat) : List Nat :=
  let t := mulq r.q (u.getD (s + j + h) 0) (twiddleW r (j * (r.n / h)))
  let x := u.getD (s + j) 0
  (u.set (s + j) (addq r.q x t)).set (s + j + h) (subq r.q x t)

/-- One pass of R203: every block start s = 0, 2h, 4h, ... and every j below h. -/
def fftPass (r : RingParams) (h : Nat) (u : List Nat) : List Nat :=
  (List.range (r.n / (2 * h))).foldl
    (fun u b => (List.range h).foldl (fun u j => butterfly r h (2 * h * b) j u) u) u

/-- The L passes h = 1, 2, 4, ..., n/2 of R203. -/
def fftPasses (r : RingParams) : Nat → Nat → List Nat → List Nat
  | 0, _, u => u
  | l + 1, h, u => fftPasses r l (2 * h) (fftPass r h u)

/-- R203's loop on n = 2^L values: bit-reversal permutation, then L passes. -/
def fftLoop (r : RingParams) (v : List Nat) : List Nat :=
  let l := Nat.log2 r.n
  fftPasses r l 1 ((List.range r.n).map fun i => v.getD (revBits l i) 0)

/-! ### The commands -/

/-- `NTT.FWD` (R210). -/
def execNttFwd (d a : Bank) (s : State) : Result :=
  withKind s fun k => withTag s a false <| withCoeffs s a (Config.ring k) fun v =>
    .next (s.commitBank d ((forward (Config.ring k) v).map coeffWord) true)

/-- `NTT.INV` (R211). -/
def execNttInv (d a : Bank) (s : State) : Result :=
  withKind s fun k => withTag s a true <| withCoeffs s a (Config.ring k) fun v =>
    .next (s.commitBank d ((inverse (Config.ring k) v).map coeffWord) false)

/-- `NTT.PMUL` (R212). -/
def execNttPmul (d a b : Bank) (s : State) : Result :=
  withKind s fun k => withTag s a true <| withTag s b true <|
    withCoeffs s a (Config.ring k) fun v => withCoeffs s b (Config.ring k) fun w =>
      .next (s.commitBank d ((pointwise (Config.Q k) v w).map coeffWord) true)

/-- `NTT.NEG` (R213): either tag, and D takes A's latched tag (90_conflicts.md C2). -/
def execNttNeg (d a : Bank) (s : State) : Result :=
  withKind s fun k => withCoeffs s a (Config.ring k) fun v =>
    .next (s.commitBank d ((v.map fun c => mulq (Config.Q k) c (Config.Q k - 1)).map coeffWord)
      (tagOf s.run.dom a))

/-- `NTT.INVERT` (R214): the test for 0 is on Forward(A), before the exponentiation (D53). -/
def execNttInvert (d a : Bank) (s : State) : Result :=
  withKind s fun k => withTag s a false <| withCoeffs s a (Config.ring k) fun v =>
    let f := forward (Config.ring k) v
    if 0 ∈ f then .next (s.fail .notinv)
    else .next (s.commitBank d ((f.map fun c => powq (Config.Q k) c (Config.Q k - 2)).map coeffWord)
      true)

/-- `NTT.MUL` (R215). -/
def execNttMul (d a b : Bank) (s : State) : Result :=
  withKind s fun k => withTag s a false <| withTag s b true <|
    withCoeffs s a (Config.ring k) fun v => withCoeffs s b (Config.ring k) fun w =>
      .next (s.commitBank d
        ((inverse (Config.ring k) (pointwise (Config.Q k) (forward (Config.ring k) v) w)).map coeffWord)
        false)

/-- `NTT.MODQ` (R216): floored mod q of each s32 word; no range and no domain check. -/
def execNttModq (d a : Bank) (s : State) : Result :=
  withKind s fun k => withWords s a (Config.N k) fun ws =>
    .next (s.commitBank d (ws.map fun w => coeffWord (w.toInt % (Config.Q k : Int)).toNat)
      (tagOf s.run.dom a))

end Sys2Proof.Machine
end

