-- ==== Sys2Proof/Machine/Entropy.lean ====
section
/-! DEFINITION. The entropy unit (41_entropy.md): refill, the draw primitives, a command's draws one
engine step at a time (40_control.md R144), and the ENT commands. -/

namespace Sys2Proof.Machine

/-! ### Seed, hash and refill -/

/-- Byte j of the seed's little-endian form (R161). -/
def seedByte (x : Seed) (j : Nat) : Byte := x.extractLsb' (8 * j) 8

/-- The 64 seed bytes, `s[0]` first (R162). -/
def seedBytes (x : Seed) : Vector Byte 64 := Vector.ofFn (fun j => seedByte x j.val)

/-- The output of `n` calls of `Block()` from seed `x` on (R162, R163); the seed wraps at 2^512 (R161). -/
def blockBytes (hash : Vector Byte 64 → Vector Byte 64) : Nat → Seed → List Byte
  | 0, _ => []
  | n + 1, x => (hash (seedBytes x)).toList ++ blockBytes hash n (x + 1)

/-- The bytes `Refill()` returns (R163). -/
def refillBytes (p : PoolParams) (e : Entropy) : List Byte := blockBytes p.hash p.blocks e.S

/-- The seed after `Refill()` (R163). -/
def refillSeed (p : PoolParams) (e : Entropy) : Seed := e.S + BitVec.ofNat 512 p.blocks

/-- Word j of the 16-bit pool from refill bytes (R165). -/
def halfAt (r : List Byte) (j : Nat) : Half := r.getD (2 * j + 1) 0 ++ r.getD (2 * j) 0

/-- Word j of the 64-bit pool from refill bytes (R166). -/
def dwordAt (r : List Byte) (j : Nat) : DWord :=
  r.getD (8 * j + 7) 0 ++ r.getD (8 * j + 6) 0 ++ r.getD (8 * j + 5) 0 ++ r.getD (8 * j + 4) 0 ++
    r.getD (8 * j + 3) 0 ++ r.getD (8 * j + 2) 0 ++ r.getD (8 * j + 1) 0 ++ r.getD (8 * j) 0

/-! ### Draw primitives: the value, and the unit afterwards -/

/-- The byte pool, refilled if its cursor is at its capacity (R164). -/
def Entropy.fillBytes (p : PoolParams) (e : Entropy) : Entropy :=
  if e.bpos = 64 * p.blocks then { e with BP := refillBytes p e, S := refillSeed p e, bpos := 0 }
  else e

/-- The 16-bit pool, refilled if its cursor is at its capacity (R165). -/
def Entropy.fillHalves (p : PoolParams) (e : Entropy) : Entropy :=
  if e.hpos = 32 * p.blocks then
    { e with HP := (List.range (32 * p.blocks)).map (halfAt (refillBytes p e)),
             S := refillSeed p e, hpos := 0 }
  else e

/-- The 64-bit pool, refilled if its cursor is at its capacity (R166). -/
def Entropy.fillDWords (p : PoolParams) (e : Entropy) : Entropy :=
  if e.wpos = 8 * p.blocks then
    { e with WP := (List.range (8 * p.blocks)).map (dwordAt (refillBytes p e)),
             S := refillSeed p e, wpos := 0 }
  else e

/-- `RandomByte()` (R164). A pool always lists every word below its capacity (Safety.lean, `Entropy.wf`),
so the default of the lookup is never read in a run: log 12. -/
def Entropy.randomByte (p : PoolParams) (e : Entropy) : Byte × Entropy :=
  let e' := e.fillBytes p
  (e'.BP.getD e'.bpos 0, { e' with bpos := e'.bpos + 1 })

/-- `Random16()` (R165). -/
def Entropy.random16 (p : PoolParams) (e : Entropy) : Half × Entropy :=
  let e' := e.fillHalves p
  (e'.HP.getD e'.hpos 0, { e' with hpos := e'.hpos + 1 })

/-- `Random64()` (R166). -/
def Entropy.random64 (p : PoolParams) (e : Entropy) : DWord × Entropy :=
  let e' := e.fillDWords p
  (e'.WP.getD e'.wpos 0, { e' with wpos := e'.wpos + 1 })

/-- The bit pool filled from `Random64()`; what it held is discarded (R167, R168). -/
def Entropy.fillBits (p : PoolParams) (e : Entropy) : Entropy :=
  let x := e.random64 p
  { x.2 with bitbuf := x.1, bitavail := 64 }

/-- `RandomBit()` (R167). -/
def Entropy.randomBit (p : PoolParams) (e : Entropy) : Bool × Entropy :=
  let e' := if e.bitavail = 0 then e.fillBits p else e
  (e'.bitbuf.getLsbD 0, { e' with bitbuf := e'.bitbuf >>> 1, bitavail := e'.bitavail - 1 })

/-- `RandomBits(k)` in fast mode, for 1 ≤ k ≤ 32 (R168). -/
def Entropy.bitsFast (p : PoolParams) (k : Nat) (e : Entropy) : Word × Entropy :=
  let e' := if e.bitavail < k then e.fillBits p else e
  (BitVec.ofNat 32 (e'.bitbuf.toNat % 2 ^ k),
   { e' with bitbuf := e'.bitbuf >>> k, bitavail := e'.bitavail - k })

/-- `RandomBits(k)` in slow mode: k single bits, the first one the most significant (R169). -/
def Entropy.bitsSlow (p : PoolParams) : Nat → Word → Entropy → Word × Entropy
  | 0, v, e => (v, e)
  | k + 1, v, e =>
    let x := e.randomBit p
    Entropy.bitsSlow p k ((v <<< 1) ||| (flagBit x.1).setWidth 32) x.2

/-- `RandomBits(k)` in the latched mode (R168 to R171); `RandomBits(0)` returns 0 and draws nothing. -/
def Entropy.randomBits (p : PoolParams) (slow : Bool) (k : Nat) (e : Entropy) : Word × Entropy :=
  if k = 0 then (0, e) else if slow then e.bitsSlow p k 0 else e.bitsFast p k

/-- The draws a command can ask for (00_scope.md R17). -/
inductive DrawReq where
  | bit
  | bits (k : Nat)
  | byte
  | r16
  | r64
  deriving DecidableEq, Repr

/-- One draw: its value, zero-extended, and the unit afterwards. -/
def Entropy.draw (p : PoolParams) (slow : Bool) (r : DrawReq) (e : Entropy) : DWord × Entropy :=
  match r with
  | .bit => let x := e.randomBit p; ((flagBit x.1).setWidth 64, x.2)
  | .bits k => let x := e.randomBits p slow k; (x.1.setWidth 64, x.2)
  | .byte => let x := e.randomByte p; (x.1.setWidth 64, x.2)
  | .r16 => let x := e.random16 p; (x.1.setWidth 64, x.2)
  | .r64 => e.random64 p

/-- The engine step that makes one draw of the running command: the entropy state changes at once and the
value joins the draws made so far (40_control.md R144). -/
def State.draw (s : State) (r : DrawReq) : State :=
  let x := s.ent.draw Config.pool s.run.slow r
  { s with ent := x.2, run := { s.run with drawn := s.run.drawn ++ [x.1] } }

/-! ### Procedures that draw

A procedure is read against the draws made so far: it either needs one more, or is done with a value and
the draws it has not used. The engine makes the draw a procedure needs, one a step. -/

/-- Where a procedure stands on given draws. -/
inductive Sampled (α : Type) where
  | need (r : DrawReq)
  | done (v : α) (rest : List DWord)
  deriving Repr

/-- A procedure, as a function of the draws (00_scope.md R17: the draws can be any oracle's). -/
abbrev Sampler (α : Type) := List DWord → Sampled α

/-- A procedure that is done without a draw. -/
def Sampler.ret {α : Type} (v : α) : Sampler α := fun ds => .done v ds

/-- One procedure, then another on its value. -/
def Sampler.andThen {α β : Type} (m : Sampler α) (f : α → Sampler β) : Sampler β := fun ds =>
  match m ds with
  | .need r => .need r
  | .done v rest => f v rest

/-- A draw of `RandomBit()`. -/
def drawBit : Sampler Bool
  | [] => .need .bit
  | v :: rest => .done (v.getLsbD 0) rest

/-- A draw of `RandomByte()`. -/
def drawByte : Sampler Byte
  | [] => .need .byte
  | v :: rest => .done (v.setWidth 8) rest

/-- A draw of `Random16()`. -/
def draw16 : Sampler Half
  | [] => .need .r16
  | v :: rest => .done (v.setWidth 16) rest

/-- A draw of `Random64()`. -/
def draw64 : Sampler DWord
  | [] => .need .r64
  | v :: rest => .done v rest

/-- A draw of `RandomBits(k)`; `RandomBits(0)` is 0 without a draw (R170). -/
def drawBits (k : Nat) : Sampler Word := fun ds =>
  if k = 0 then .done 0 ds
  else
    match ds with
    | [] => .need (.bits k)
    | v :: rest => .done (v.setWidth 32) rest

/-- One engine step of a command that computes one value by a procedure: the draw it needs, or the
completion (40_control.md R144, R145). -/
def runSampler {α : Type} (p : Sampler α) (s : State) (finish : α → State → State) : Result :=
  match p s.run.drawn with
  | .need r => .next (s.draw r)
  | .done v _ => .next (finish v s)

/-- Commit one value into `RESULT0`. -/
def intoResult0 {α : Type} (f : α → Word) (v : α) (s : State) : State := s.commitResult (f v)

/-- A Boolean result (10_state.md R49). -/
def boolWord (b : Bool) : Word := if b then 1 else 0

/-! ### The ENT commands -/

/-- The staged seed as a number: byte 4j+m is `SEEDj[8m+7:8m]` (10_state.md R48, R180). -/
def stagedSeed (v : Vector Word 16) : Seed :=
  BitVec.ofNat 512
    (((List.range 16).map fun j =>
      ((List.range 4).map fun m =>
        ((v.toList.getD j 0).extractLsb' (8 * m) 8).toNat * 256 ^ (4 * j + m)).sum).sum)

/-- The unit with seed `x` and every pool empty (R180). What the emptied pools and `bitbuf` hold is
unspecified and unreadable (10_state.md R50); they keep what they held. DESIGN CHOICE: log 12. -/
def Entropy.load (p : PoolParams) (x : Seed) (e : Entropy) : Entropy :=
  { e with S := x, bpos := 64 * p.blocks, hpos := 32 * p.blocks, wpos := 8 * p.blocks, bitavail := 0 }

/-- `ENT.SEED` (R180). -/
def execEntSeed (s : State) : Result :=
  .next ({ s with ent := s.ent.load Config.pool (stagedSeed s.run.seedstage) }).commit

/-- `ENT.BIT` (R181). -/
def execEntBit (s : State) : Result := runSampler drawBit s (intoResult0 boolWord)

/-- `ENT.BITS` (R182). -/
def execEntBits (s : State) : Result :=
  withArg s (decide (s.run.a0.toNat ≤ Config.RANDBITS_MAX)) <|
    runSampler (drawBits s.run.a0.toNat) s (intoResult0 id)

/-- `ENT.BYTE` (R183). -/
def execEntByte (s : State) : Result := runSampler drawByte s (intoResult0 (BitVec.setWidth 32))

/-- `ENT.R16` (R184). -/
def execEntR16 (s : State) : Result := runSampler draw16 s (intoResult0 (BitVec.setWidth 32))

/-- `ENT.R64` (R185). -/
def execEntR64 (s : State) : Result :=
  runSampler draw64 s fun v s => s.commitResults (v.extractLsb' 0 32) (v.extractLsb' 32 32)

end Sys2Proof.Machine
end

