-- ==== Sys2Proof/Machine/Sampler.lean ====
section
/-! DEFINITION. The discrete Gaussian sampler (43_sampler.md): the procedures R252 to R256 and the six
SMP commands. A loop is bounded by the number of draws it is given plus one: every turn of it uses up a
draw, so the bound is never what ends it (Laws/Sampler.lean). -/

namespace Sys2Proof.Machine

/-- R252's loop over the bytes j, j+1, ... of row i, `left` of them. -/
def bernoulliFrom (c : SamplerParams) (i : Nat) : Nat → Nat → Sampler Bool
  | 0, _ => Sampler.ret true
  | left + 1, j => drawByte.andThen fun u =>
      if u.toNat < (c.cdt i j).toNat then Sampler.ret true
      else if (c.cdt i j).toNat < u.toNat then Sampler.ret false
      else bernoulliFrom c i left (j + 1)

/-- `Bernoulli(i)` (R252). -/
def bernoulli (c : SamplerParams) (i : Nat) : Sampler Bool := bernoulliFrom c i c.cols 0

/-- R253's loop over the bits of x below the given one, highest first: bit i consults row i, and the bits
at positions ≥ ELL are ignored. -/
def bernoulliRows (c : SamplerParams) (x : Word) : Nat → Sampler Bool
  | 0 => Sampler.ret true
  | i + 1 =>
      if x.getLsbD i && decide (i < c.ell) then
        (bernoulli c i).andThen fun b => if b then bernoulliRows c x i else Sampler.ret false
      else bernoulliRows c x i

/-- `BernoulliExp(x)` (R253); ELL is at most 32 (00_scope.md R11), so x's 32 bits hold every row's. -/
def bernoulliExp (c : SamplerParams) (x : Word) : Sampler Bool := bernoulliRows c x 32

/-- R254's loop. -/
def coshLoop (c : SamplerParams) (xx : Word) : Nat → Sampler Bool
  | 0 => fun _ => .need .byte
  | f + 1 => (bernoulliExp c xx).andThen fun p =>
      if p then Sampler.ret true
      else drawBit.andThen fun b =>
        if b then coshLoop c xx f
        else (bernoulliExp c xx).andThen fun p' =>
          if p' then coshLoop c xx f else Sampler.ret false

/-- `xx = (2·|x|) mod 2^32` for an s32 x (R254). -/
def coshArg (x : Word) : Word := BitVec.ofNat 32 (2 * x.toInt.natAbs)

/-- `BernoulliCosh(x)` (R254). -/
def bernoulliCosh (c : SamplerParams) (x : Word) : Sampler Bool :=
  fun ds => coshLoop c (coshArg x) (ds.length + 1) ds

/-- R255's bit groups i, i+1, ..., `left` of them: a value to return, or none to restart. -/
def posGroups : Nat → Nat → Sampler (Option Nat)
  | 0, _ => Sampler.ret (some 0)
  | left + 1, i => (drawBits (2 * i - 1)).andThen fun u =>
      if u = 0 then Sampler.ret (some i)
      else if u = 1 then posGroups left (i + 1)
      else Sampler.ret none

/-- R255's restart loop. -/
def posLoop : Nat → Sampler Nat
  | 0 => fun _ => .need .bit
  | f + 1 => drawBit.andThen fun b =>
      if b then (posGroups Config.POSBIN_CEIL 1).andThen fun o =>
        match o with
        | some v => Sampler.ret v
        | none => posLoop f
      else Sampler.ret 0

/-- `PositiveBinary()` (R255). -/
def positiveBinary : Sampler Nat := fun ds => posLoop (ds.length + 1) ds

/-- R256's residue: `RandomBits(KSIGMABITS)` until it is below `KSIGMA`. -/
def residueLoop (c : SamplerParams) : Nat → Sampler Nat
  | 0 => fun _ => .need (.bits c.ksigmaBits)
  | f + 1 => (drawBits c.ksigmaBits).andThen fun y =>
      if y.toNat < c.ksigma then Sampler.ret y.toNat else residueLoop c f

def residue (c : SamplerParams) : Sampler Nat := fun ds => residueLoop c (ds.length + 1) ds

/-- R256's acceptance value, truncated to 32 bits. -/
def acceptValue (c : SamplerParams) (x y : Nat) : Word :=
  BitVec.ofNat 32 (y * (y + 2 * c.ksigma * x))

/-- R256's loop. -/
def gaussLoop (c : SamplerParams) : Nat → Sampler Int
  | 0 => fun _ => .need .bit
  | f + 1 => positiveBinary.andThen fun x => (residue c).andThen fun y =>
      (bernoulliExp c (acceptValue c x y)).andThen fun ok =>
        if ok then drawBit.andThen fun u =>
          let z := c.ksigma * x + y
          if z = 0 ∧ u = false then gaussLoop c f
          else Sampler.ret (if u then (z : Int) else -(z : Int))
        else gaussLoop c f

/-- `Gauss()` (R256). -/
def gauss (c : SamplerParams) : Sampler Int := fun ds => gaussLoop c (ds.length + 1) ds

/-- A sample as s32 (R256). -/
def sampleWord (z : Int) : Word := BitVec.ofInt 32 z

/-! ### The commands -/

/-- `SMP.GAUSS` (R260): n calls of `Gauss()`, ascending. Each sample that is complete joins the pending
results, and the next call begins with the draw `PositiveBinary()` begins with, a bit (R255), in the same
engine step. -/
def execSmpGauss (d : Bank) (s : State) : Result :=
  withKind s fun k =>
    match gauss (Config.sampler k) s.run.drawn with
    | .need r => .next (s.draw r)
    | .done z _ =>
      let vs := s.run.pending ++ [sampleWord z]
      if vs.length < Config.N k then
        .next (State.draw { s with run := { s.run with drawn := [], pending := vs } } .bit)
      else .next (s.commitBank d vs false)

/-- `SMP.GAUSS1` (R261). -/
def execSmpGauss1 (s : State) : Result :=
  withKind s fun k => runSampler (gauss (Config.sampler k)) s (intoResult0 sampleWord)

/-- `SMP.POSBIN` (R262). -/
def execSmpPosbin (s : State) : Result :=
  withKind s fun _ => runSampler positiveBinary s (intoResult0 (BitVec.ofNat 32))

/-- `SMP.BER` (R263). -/
def execSmpBer (s : State) : Result :=
  withKind s fun k => withArg s (decide (s.run.a0.toNat < Config.ELL k)) <|
    runSampler (bernoulli (Config.sampler k) s.run.a0.toNat) s (intoResult0 boolWord)

/-- `SMP.BEREXP` (R264). -/
def execSmpBerexp (s : State) : Result :=
  withKind s fun k => runSampler (bernoulliExp (Config.sampler k) s.run.a0) s (intoResult0 boolWord)

/-- `SMP.BERCOSH` (R265). -/
def execSmpBercosh (s : State) : Result :=
  withKind s fun k => runSampler (bernoulliCosh (Config.sampler k) s.run.a0) s (intoResult0 boolWord)

end Sys2Proof.Machine
end

