-- ==== Sys2Proof/Machine/Dispatch.lean ====
section
/-! DEFINITION. One engine step of each command: one arm per constructor. -/

namespace Sys2Proof.Machine

def exec (i : Instr) (s : State) : Host.Outcome State Fault Refusal :=
  match i with
  | .nop => Sys2Proof.Machine.execNop s
  | .nttFwd d a => Sys2Proof.Machine.execNttFwd d a s
  | .nttInv d a => Sys2Proof.Machine.execNttInv d a s
  | .nttPmul d a b => Sys2Proof.Machine.execNttPmul d a b s
  | .nttNeg d a => Sys2Proof.Machine.execNttNeg d a s
  | .nttInvert d a => Sys2Proof.Machine.execNttInvert d a s
  | .nttMul d a b => Sys2Proof.Machine.execNttMul d a b s
  | .nttModq d a => Sys2Proof.Machine.execNttModq d a s
  | .smpGauss d => Sys2Proof.Machine.execSmpGauss d s
  | .smpGauss1 => Sys2Proof.Machine.execSmpGauss1 s
  | .smpPosbin => Sys2Proof.Machine.execSmpPosbin s
  | .smpBer => Sys2Proof.Machine.execSmpBer s
  | .smpBerexp => Sys2Proof.Machine.execSmpBerexp s
  | .smpBercosh => Sys2Proof.Machine.execSmpBercosh s
  | .entSeed => Sys2Proof.Machine.execEntSeed s
  | .entBit => Sys2Proof.Machine.execEntBit s
  | .entBits => Sys2Proof.Machine.execEntBits s
  | .entByte => Sys2Proof.Machine.execEntByte s
  | .entR16 => Sys2Proof.Machine.execEntR16 s
  | .entR64 => Sys2Proof.Machine.execEntR64 s
  | .hufEnc => Sys2Proof.Machine.execHufEnc s
  | .hufDec => Sys2Proof.Machine.execHufDec s

end Sys2Proof.Machine
end

