-- ==== Sys2Proof/Machine/Step.lean ====
section
/-! DEFINITION. One step of the machine: one host transition or one engine transition
(40_control.md R144, 70_reset_and_hazards.md R387). -/

namespace Sys2Proof.Machine

/-- The engine's turn: one engine step of the running command, an illegal word ending in `ERR_ILLEGAL`
(40_control.md R143 step 1); idle, it does nothing. -/
def engineTurn (s : State) : Host.Outcome State Fault Refusal :=
  if s.status.busy then
    match decode s.run.cmd with
    | .ok i => exec i s
    | .error _ => .next (s.fail .illegal)
  else .next s

/-- One transition of the agent whose turn it is. -/
def step (s : State) : Host.Outcome State Fault Refusal :=
  match s.takeTurn.1 with
  | .engine => engineTurn s.takeTurn.2
  | .host => hostTurn s.takeTurn.2

/-- `s` with the command of a table word accepted and the engine's turn next, so that the very next step
runs exactly it. Log 2. -/
def State.withFetchWord (s : State) (nbits w : Nat) : State := s.placeCommand (tableWord nbits w)

end Sys2Proof.Machine
end

