-- ==== Sys2Proof/Safety.lean ====
section
/-! DEFINITION. The terms the claims use: what a well-formed state is, what a safe run is, and the frames:
what a completion, an error or a draw leaves unchanged. -/

namespace Sys2Proof.Machine

/-! ### Invariants -/

/-- The entropy unit is well-formed: each cursor is at most its capacity, a pool that is not empty lists
every one of its words, and the bit pool holds at most 64 bits (10_state.md R50). -/
def Entropy.wf (p : PoolParams) (e : Entropy) : Prop :=
  (e.bpos = 64 * p.blocks ∨ (e.bpos < 64 * p.blocks ∧ e.BP.length = 64 * p.blocks)) ∧
  (e.hpos = 32 * p.blocks ∨ (e.hpos < 32 * p.blocks ∧ e.HP.length = 32 * p.blocks)) ∧
  (e.wpos = 8 * p.blocks ∨ (e.wpos < 8 * p.blocks ∧ e.WP.length = 8 * p.blocks)) ∧
  e.bitavail ≤ 64

/-- The invariant of the status register: while a command runs, `ERR` and `DONE` are 0
(40_control.md R146); `ERRCODE` is 0 while `ERR` is (10_state.md R43), and 1 to 10 while `ERR` is 1
(60_exceptions.md R341). -/
def Status.wf (st : Status) : Prop :=
  (st.busy = true → st.err = false ∧ st.done = false) ∧
  (st.err = false → st.errcode = 0) ∧
  (st.err = true → 1 ≤ st.errcode.toNat ∧ st.errcode.toNat ≤ 10)

/-- The invariant of the machine: memory in canonical form, the status register and the entropy unit
well-formed, the running command the one `CMD` shows (10_state.md R44), nothing pending while idle, fewer
than 512 pending samples, and no command running while `rst` is high (70_reset_and_hazards.md R380). -/
structure State.Inv (s : State) : Prop where
  memory : s.mem.wf = true
  status : s.status.wf
  entropy : s.ent.wf Config.pool
  command : s.status.busy = true → s.run.cmd = s.cmd
  idle : s.status.busy = false → s.run.drawn = [] ∧ s.run.pending = []
  pending : s.run.pending.length < 512
  inReset : s.rst = true → s.status.busy = false

/-! ### Safe runs -/

/-- Every byte of the banks, SYMBUF and CODEBUF has been written since reset. -/
def State.allWritten (s : State) : Prop := ∀ a, isStore a = true → s.mem.byte? a ≠ none

/-- A host action that keeps a run safe: a word access, aligned and mapped (20_memory.md R87), or `rst`
low. -/
def HostOp.isSafe : HostOp → Prop
  | .access r => r.target ≠ none
  | .rst level => level = false

/-- A run of `k` steps from `s` never stops. -/
def State.runsSafely : Nat → State → Prop
  | 0, _ => True
  | k + 1, s => ∃ t, step s = .next t ∧ State.runsSafely k t

/-! ### Frames -/

/-- The host's registers, the reset input, the bus response, the environment's lists and the model's
counter are unchanged. -/
structure HostSideKept (s t : State) : Prop where
  ctrl : t.ctrl = s.ctrl
  cmd : t.cmd = s.cmd
  arg0 : t.arg0 = s.arg0
  arg1 : t.arg1 = s.arg1
  seeds : t.seeds = s.seeds
  rst : t.rst = s.rst
  resp : t.resp = s.resp
  inbox : t.inbox = s.inbox
  turns : t.turns = s.turns
  freeIdx : t.freeIdx = s.freeIdx

/-- The latched copies are unchanged and nothing is left pending. -/
structure LatchKept (s t : State) : Prop where
  cmd : t.run.cmd = s.run.cmd
  kind : t.run.kind = s.run.kind
  slow : t.run.slow = s.run.slow
  a0 : t.run.a0 = s.run.a0
  a1 : t.run.a1 = s.run.a1
  dom : t.run.dom = s.run.dom
  seedstage : t.run.seedstage = s.run.seedstage
  drawn : t.run.drawn = []
  pending : t.run.pending = []

/-- Both results are unchanged. -/
def ResultsKept (s t : State) : Prop := t.result0 = s.result0 ∧ t.result1 = s.result1

/-- Every byte of memory is unchanged. -/
def MemoryKept (s t : State) : Prop := ∀ a, t.mem.byte? a = s.mem.byte? a

/-- Every byte of memory outside the `len` bytes from offset `base` on is unchanged. -/
def MemoryKeptOutside (s t : State) (base len : Nat) : Prop :=
  ∀ a, (a < base ∨ base + len ≤ a) → t.mem.byte? a = s.mem.byte? a

/-- A successful completion: `BUSY` 0 and `DONE` 1, the other status bits, the host's registers and the
latched copies unchanged (40_control.md R145). -/
structure Completes (s t : State) : Prop where
  busy : t.status.busy = false
  done : t.status.done = true
  err : t.status.err = s.status.err
  ovr : t.status.ovr = s.status.ovr
  errcode : t.status.errcode = s.status.errcode
  host : HostSideKept s t
  latch : LatchKept s t

/-- An error completion with a code: `STATUS` reports it, and nothing else changes (60_exceptions.md
R340). -/
structure FailsWith (s t : State) (code : Nat) : Prop where
  busy : t.status.busy = false
  done : t.status.done = true
  err : t.status.err = true
  ovr : t.status.ovr = s.status.ovr
  errcode : t.status.errcode.toNat = code
  memory : MemoryKept s t
  domain : t.domain = s.domain
  results : ResultsKept s t
  entropy : t.ent = s.ent
  host : HostSideKept s t
  latch : LatchKept s t

/-- A completion that writes words 0..n-1 of bank d and d's tag, and nothing else besides `STATUS`
(42_ntt.md R200, 10_state.md R32, R37). -/
structure CommitsBank (s t : State) (d : Bank) (n : Nat) (tag : Bool) : Prop where
  completes : Completes s t
  memory : MemoryKeptOutside s t (bankAddr d 0) (4 * n)
  tagD : tagOf t.domain d = tag
  tagOthers : ∀ b, b ≠ d → tagOf t.domain b = tagOf s.domain b
  results : ResultsKept s t
  entropy : t.ent = s.ent

/-- A completion that writes `RESULT0` alone besides `STATUS`. -/
structure CommitsResult0 (s t : State) : Prop where
  completes : Completes s t
  memory : MemoryKept s t
  domain : t.domain = s.domain
  result1 : t.result1 = s.result1
  entropy : t.ent = s.ent

/-- One draw and nothing else: the entropy unit is as the draw leaves it, the value joins the draws made
so far, and every register, tag, memory byte, status bit and latched copy is unchanged
(40_control.md R144). -/
structure DrawsOnce (s t : State) (r : DrawReq) : Prop where
  entropy : t.ent = (s.ent.draw Config.pool s.run.slow r).2
  run : t.run = { s.run with drawn := s.run.drawn ++ [(s.ent.draw Config.pool s.run.slow r).1] }
  status : t.status = s.status
  memory : MemoryKept s t
  domain : t.domain = s.domain
  results : ResultsKept s t
  host : HostSideKept s t

/-- One engine step of `SMP.GAUSS` that keeps the finished sample v and makes the first draw of the next
one, a bit, and nothing else (43_sampler.md R260, R255; log 13). -/
structure KeepsSample (s t : State) (v : Word) : Prop where
  entropy : t.ent = (s.ent.draw Config.pool s.run.slow .bit).2
  run : t.run = { s.run with drawn := [(s.ent.draw Config.pool s.run.slow .bit).1],
                             pending := s.run.pending ++ [v] }
  status : t.status = s.status
  memory : MemoryKept s t
  domain : t.domain = s.domain
  results : ResultsKept s t
  host : HostSideKept s t

/-- Words 0..n-1 of a bank hold the numbers `v`. -/
def BankHolds (s : State) (b : Bank) (n : Nat) (v : Nat → Nat) : Prop :=
  ∀ i, i < n → s.bankWord? b i = some (BitVec.ofNat 32 (v i))

end Sys2Proof.Machine
end

