-- ==== Sys2Proof/Certificates/Slice0/Obligations.lean ====
section
/-! DEFINITION. The statements for the provers, each from the rules it cites, and the few terms of the spec
they are written in. -/

namespace Sys2Proof.Claims

open Sys2Proof.Machine

/-! ### Terms of the spec, written apart from the machine -/

/-- The value of the polynomial `v` at the odd power `ψ^(2j+1)`, mod q (42_ntt.md R204). -/
def evalOdd (k : Kind) (v : Nat → Nat) (j : Nat) : Nat :=
  (∑ i ∈ Finset.range (Config.N k), v i * Config.PSI k ^ (i * (2 * j + 1))) % Config.Q k

/-- Coefficient m of the negacyclic product `a·b mod (x^n + 1)`, mod q (42_ntt.md R209). -/
def negacyclic (k : Kind) (a b : Nat → Nat) (m : Nat) : Nat :=
  ((∑ i ∈ Finset.range (Config.N k), ∑ j ∈ Finset.range (Config.N k),
      (if i + j = m then (a i : Int) * b j
       else if i + j = m + Config.N k then -((a i : Int) * b j) else 0)) %
    (Config.Q k : Int)).toNat

/-- The coefficients `v` of a polynomial of kind k lie in [0, q). -/
def InField (k : Kind) (v : Nat → Nat) : Prop := ∀ i, i < Config.N k → v i < Config.Q k

/-- The bit length of symbols `lo` to `hi - 1` (44_huffman.md R303). -/
def codeLength (es : Nat → CodeEntry) (lo hi : Nat) : Nat := ∑ i ∈ Finset.Ico lo hi, (es i).len

/-- The codewords of `c` symbols concatenated, the first most significant (44_huffman.md R303). -/
def streamNumber (es : Nat → CodeEntry) (c : Nat) : Nat :=
  ∑ j ∈ Finset.range c, (es j).value * 2 ^ codeLength es (j + 1) c

/-- The pair the byte b denotes (44_huffman.md R300), on numbers: the high nibble, and the low three bits
with bit 3 as their sign. -/
def pairOf (b : Byte) : Int × Int :=
  ((b.toNat / 16 : Nat),
   if b.toNat % 16 < 8 then ((b.toNat % 8 : Nat) : Int) else -((b.toNat % 8 : Nat) : Int))

/-- The canonical byte of a pair (44_huffman.md R300), as a number. -/
def canonNumber (hi z2 : Int) : Int := hi * 16 + (if z2 ≥ 0 then z2 else 8 + (-z2))

/-- The entry `e` of the codebook is that of the symbol the byte b denotes. -/
def Encodes (book : List CodeEntry) (b : Byte) (e : CodeEntry) : Prop :=
  e ∈ book ∧ (e.hi, e.z2) = pairOf b

/-- No entry of the codebook is that of the symbol the byte b denotes. -/
def Unencodable (book : List CodeEntry) (b : Byte) : Prop := ∀ e, ¬ Encodes book b e

/-- The bytes `CODE[0..ceil(L/8)-1]` as a little-endian number (44_huffman.md R303). -/
def codeNumber (code : Nat → Byte) (len : Nat) : Nat :=
  ∑ j ∈ Finset.range ((len + 7) / 8), (code j).toNat * 256 ^ j

/-- The L bits of CODEBUF are the codewords of `c` entries of the codebook, each with a byte: the streams
`HUF.DEC` accepts (44_huffman.md R303, R311). The pad bits are free. -/
def IsStream (book : List CodeEntry) (code : Nat → Byte) (len c : Nat) (es : Nat → CodeEntry) : Prop :=
  (∀ j, j < c → es j ∈ book ∧
    0 ≤ (es j).hi ∧ (es j).hi ≤ 15 ∧ -7 ≤ (es j).z2 ∧ (es j).z2 ≤ 7) ∧
  codeLength es 0 c = len ∧ codeNumber code len % 2 ^ len = streamNumber es c

/-- Codec parameters 44_huffman.md R301 and R302 admit: a codebook that meets R301's conditions, and limits
within the buffers. -/
def Admitted (c : CodecParams) : Prop := codebookValid c.book = true ∧ c.n ≤ 512 ∧ c.lmax ≤ 4095

/-- What 44_huffman.md R310 and R303 say of `HUF.ENC`, run as `run`: where every symbol has an entry and the
stream fits, the stream and its length are committed and all else is left; the first symbol without an entry
ends it with ERR_SYMBOL, the first that makes the stream longer than LMAX with ERR_OVERFLOW. -/
def WritesTheStream (c : CodecParams) (run : State → Result) (s : State) : Prop :=
  (∀ (b : Nat → Byte) (es : Nat → CodeEntry), 1 ≤ s.run.a0.toNat → s.run.a0.toNat ≤ c.n →
    (∀ j, j < s.run.a0.toNat → s.sym? j = some (b j) ∧ Encodes c.book (b j) (es j)) →
    codeLength es 0 s.run.a0.toNat ≤ c.lmax →
    ∃ t, run s = .next t ∧ t.result0.toNat = codeLength es 0 s.run.a0.toNat ∧
      (∀ j, j < (codeLength es 0 s.run.a0.toNat + 7) / 8 →
        t.code? j = some (BitVec.ofNat 8 (streamNumber es s.run.a0.toNat / 2 ^ (8 * j) % 256))) ∧
      MemoryKeptOutside s t 0x0C00 ((codeLength es 0 s.run.a0.toNat + 7) / 8) ∧ Completes s t ∧
      t.domain = s.domain ∧ t.result1 = s.result1 ∧ t.ent = s.ent) ∧
  (∀ (m : Nat) (b : Nat → Byte) (es : Nat → CodeEntry), m < s.run.a0.toNat → s.run.a0.toNat ≤ c.n →
    (∀ j, j < m → s.sym? j = some (b j) ∧ Encodes c.book (b j) (es j)) →
    codeLength es 0 m ≤ c.lmax → s.sym? m = some (b m) →
    (Unencodable c.book (b m) → ∃ t, run s = .next t ∧ FailsWith s t 7) ∧
    (Encodes c.book (b m) (es m) → c.lmax < codeLength es 0 (m + 1) →
      ∃ t, run s = .next t ∧ FailsWith s t 8))

/-- What 44_huffman.md R311 and R303 say of `HUF.DEC`, run as `run` on written bytes: it completes exactly
when the bits after the pad are the codewords of `count` entries with a byte, and then commits their canonical
bytes and leaves all else; otherwise it ends with ERR_CORRUPT. -/
def ReadsTheStream (c : CodecParams) (run : State → Result) (s : State) : Prop :=
  ∀ code : Nat → Byte, s.run.a0.toNat ≤ c.lmax → 1 ≤ s.run.a1.toNat → s.run.a1.toNat ≤ c.n →
    (∀ j, j < (s.run.a0.toNat + 7) / 8 → s.code? j = some (code j)) →
    (∀ es, IsStream c.book code s.run.a0.toNat s.run.a1.toNat es → ∃ t, run s = .next t ∧
      (∀ j, j < s.run.a1.toNat → ∃ y, t.sym? j = some y ∧
        (y.toNat : Int) = canonNumber (es j).hi (es j).z2) ∧
      MemoryKeptOutside s t 0x0800 s.run.a1.toNat ∧ Completes s t ∧ t.domain = s.domain ∧
      ResultsKept s t ∧ t.ent = s.ent) ∧
    ((¬ ∃ es, IsStream c.book code s.run.a0.toNat s.run.a1.toNat es) →
      ∃ t, run s = .next t ∧ FailsWith s t 9)

/-- What 44_huffman.md R312 says of `HUF.ENC` from s, run as `enc`, and `HUF.DEC` from u, run as `dec`. -/
def RoundTrips (enc dec : State → Result) (s u : State) : Prop :=
  ∀ (t : State) (b : Nat → Byte), (∀ j, j < s.run.a0.toNat → s.sym? j = some (b j)) →
    enc s = .next t → t.status.err = false → u.run.a0 = t.result0 → u.run.a1 = s.run.a0 →
    (∀ j, j < 512 → u.code? j = t.code? j) →
    ∃ z, dec u = .next z ∧ Completes u z ∧
      ∀ j, j < s.run.a0.toNat → ∃ y, z.sym? j = some y ∧
        (y.toNat : Int) = canonNumber (pairOf (b j)).1 (pairOf (b j)).2

/-- `n` draws f, one after another: the values, and the unit afterwards. -/
def drawMany {α : Type} (f : Entropy → α × Entropy) : Nat → Entropy → List α × Entropy
  | 0, e => ([], e)
  | n + 1, e => ((f e).1 :: (drawMany f n (f e).2).1, (drawMany f n (f e).2).2)

/-- Byte j of a refill from seed x: byte j mod 64 of the hash of x + j / 64 (41_entropy.md R162, R163). -/
def refillByte (p : PoolParams) (x : Seed) (j : Nat) : Nat :=
  ((p.hash (seedBytes (x + BitVec.ofNat 512 (j / 64)))).toList.getD (j % 64) 0).toNat

/-- A byte sequence read big-endian (00_scope.md R14). -/
def bigEndian : List Byte → Nat
  | [] => 0
  | b :: bs => b.toNat * 256 ^ bs.length + bigEndian bs

/-- Draws of bytes, as the engine keeps them. -/
def byteDraws (us : List Byte) : List DWord := us.map (BitVec.setWidth 64)

/-- The request is a word read at offset o. -/
def IsRead (r : BusReq) (o : Nat) : Prop := r.size = .word ∧ r.write = false ∧ r.addr.toNat = o

/-- The request is a word write of w at offset o. -/
def IsWrite (r : BusReq) (o : Nat) (w : Word) : Prop :=
  r.size = .word ∧ r.write = true ∧ r.addr.toNat = o ∧ r.wdata = w

/-- The access is answered with `w`, and nothing but the response changes. -/
def Answers (s : State) (r : BusReq) (w : Word) : Prop :=
  busAccess r s = .next { s with resp := .readData w }

/-- An offset of the window that no register and no memory has (20_memory.md R82). -/
def Unmapped (a : Nat) : Prop :=
  (0x0080 ≤ a ∧ a ≤ 0x07FF) ∨ (0x0A00 ≤ a ∧ a ≤ 0x0BFF) ∨ (0x0E00 ≤ a ∧ a ≤ 0x3FFF)

/-- A word offset of SYMBUF, CODEBUF or a bank (20_memory.md R82). -/
def MemoryWord (a : Nat) : Prop :=
  a % 4 = 0 ∧ ((0x0800 ≤ a ∧ a ≤ 0x09FF) ∨ (0x0C00 ≤ a ∧ a ≤ 0x0DFF) ∨ (0x4000 ≤ a ∧ a ≤ 0x7FFF))

/-- The command is of the NTT, SMP or HUF family (30_encoding.md R114). -/
def UsesKind : Instr → Prop
  | .nop | .entSeed | .entBit | .entBits | .entByte | .entR16 | .entR64 => False
  | _ => True

/-- A command with draws, and the checks of 40_control.md R143 it must pass: a valid latched kind for the
SMP family, and the scalar operand's range. -/
def DrawsWhenLegal (s : State) : Instr → Prop
  | .smpGauss _ | .smpGauss1 | .smpPosbin | .smpBerexp | .smpBercosh => kindOf s.run.kind ≠ none
  | .smpBer => ∃ k, kindOf s.run.kind = some k ∧ s.run.a0.toNat < Config.ELL k
  | .entBit | .entByte | .entR16 | .entR64 => True
  | .entBits => s.run.a0.toNat ≤ 32
  | _ => False

/-- The command's procedure, on the draws made so far, asks for the draw r next. -/
def Requests (s : State) (r : DrawReq) : Instr → Prop
  | .smpGauss _ | .smpGauss1 =>
    ∃ k, kindOf s.run.kind = some k ∧ gauss (Config.sampler k) s.run.drawn = .need r
  | .smpPosbin => positiveBinary s.run.drawn = .need r
  | .smpBer => ∃ k, kindOf s.run.kind = some k ∧
      Sys2Proof.Machine.bernoulli (Config.sampler k) s.run.a0.toNat s.run.drawn = .need r
  | .smpBerexp => ∃ k, kindOf s.run.kind = some k ∧
      bernoulliExp (Config.sampler k) s.run.a0 s.run.drawn = .need r
  | .smpBercosh => ∃ k, kindOf s.run.kind = some k ∧
      bernoulliCosh (Config.sampler k) s.run.a0 s.run.drawn = .need r
  | .entBit => s.run.drawn = [] ∧ r = .bit
  | .entBits => s.run.drawn = [] ∧ 1 ≤ s.run.a0.toNat ∧ r = .bits s.run.a0.toNat
  | .entByte => s.run.drawn = [] ∧ r = .byte
  | .entR16 => s.run.drawn = [] ∧ r = .r16
  | .entR64 => s.run.drawn = [] ∧ r = .r64
  | _ => False

/-- 43_sampler.md R256's residue y, from draws ws on: 0 without a draw where KSIGMABITS is 0
(41_entropy.md R170), else the first of them below KSIGMA. -/
def ResidueIs (c : SamplerParams) (ws : List DWord) (y : Nat) (rest : List DWord) : Prop :=
  (c.ksigmaBits = 0 ∧ y = 0 ∧ rest = ws) ∨
  (c.ksigmaBits ≠ 0 ∧ ∃ (rs : List DWord) (u : DWord), ws = rs ++ u :: rest ∧
    (∀ r ∈ rs, c.ksigma ≤ (r.setWidth 32).toNat) ∧ (u.setWidth 32).toNat = y ∧ y < c.ksigma)

/-- The state with other values in the host registers a running command has latched. -/
def withHostRegisters (c : Ctrl) (x y : Word) (v : Vector Word 16) (s : State) : State :=
  { s with ctrl := c, arg0 := x, arg1 := y, seeds := v }

/-- An answer with its next state changed by f. -/
def mapNext (f : State → State) : Result → Result
  | .next t => .next (f t)
  | .fault e => .fault e
  | .refused e => .refused e

end Sys2Proof.Claims

open Sys2Proof Sys2Proof.Machine Sys2Proof.Claims

/-! ### Encoding -/

/-- 30_encoding.md R119: the encoding examples, and the three words it judges. -/
def Obligations.EncodingExamplesDecode : Prop :=
  decode 0x00000000 = .ok .nop ∧ decode 0x00000201 = .ok (.nttFwd 2 0) ∧
  decode 0x00003102 = .ok (.nttInv 1 3) ∧ decode 0x00021303 = .ok (.nttPmul 3 1 2) ∧
  decode 0x00020306 = .ok (.nttMul 3 0 2) ∧ decode 0x00000105 = .ok (.nttInvert 1 0) ∧
  decode 0x00000007 = .ok (.nttModq 0 0) ∧ decode 0x00000410 = .ok (.smpGauss 4) ∧
  decode 0x00000025 = .ok .entR64 ∧ decode 0x00000031 = .ok .hufDec ∧
  decode 0x00000401 = .ok (.nttFwd 4 0) ∧
  decode 0x00010401 = .error .unusedField ∧ decode 0x00000801 = .error .reservedBit

/-- 30_encoding.md R111, R114, R115: decoding an encoded command gives it back, with every operand, and a
word that decodes is the encoding of what it decodes to, so each command has exactly one word. -/
def Obligations.DecodeAndEncodeAgree : Prop :=
  (∀ i : Instr, decode (encode i) = .ok i) ∧
  (∀ (w : Word) (i : Instr), decode w = .ok i → encode i = w)

/-- 30_encoding.md R115: a word is rejected exactly when its opcode is not in the map, a reserved field is
nonzero, or a bank field its opcode does not use is nonzero; a running illegal word completes with
ERR_ILLEGAL and changes nothing else; a mnemonic has one word per choice of its fields. -/
def Obligations.WordRejectedExactlyWhenIllegal : Prop :=
  (∀ w : Word, (∃ e, decode w = .error e) ↔
    ((¬ ∃ r ∈ opRows, r.op = w.extractLsb' 0 8) ∨
     (w.getLsbD 11 = true ∨ w.getLsbD 15 = true ∨ ∃ i, 19 ≤ i ∧ w.getLsbD i = true) ∨
     (∃ r ∈ opRows, r.op = w.extractLsb' 0 8 ∧
       ((r.usesD = false ∧ w.extractLsb' 8 3 ≠ 0) ∨ (r.usesA = false ∧ w.extractLsb' 12 3 ≠ 0) ∨
        (r.usesB = false ∧ w.extractLsb' 16 3 ≠ 0))))) ∧
  (∀ (s : State) (e : DecodeError), s.status.busy = true → decode s.run.cmd = .error e → s.turns = [] →
    ∃ t, step s = .next t ∧ FailsWith s t 1) ∧
  (∀ (w w' : Word) (i : Instr), decode w = .ok i → decode w' = .ok i → w = w')

/-! ### Steps -/

/-- 40_control.md R143, R144: when the engine's turn comes while a command runs whose word decodes to i,
the step is one engine step of i, after the turn is taken. -/
def Obligations.StepRunsTheDecodedCommand : Prop :=
  ∀ (s : State) (i : Instr), s.status.busy = true → decode s.run.cmd = .ok i →
    (s.turns = [] → step s = exec i s) ∧
    (∀ rest, s.turns = .engine :: rest → step s = exec i { s with turns := rest })

/-- 70_reset_and_hazards.md R387: host accesses and engine steps are separate transitions; the host's turn
takes its next action, the engine's runs the command, an illegal word ending in ERR_ILLEGAL (40_control.md
R143), and a turn with nothing to do changes nothing but the schedule (log 1: the schedule is the model's). -/
def Obligations.TurnsInterleave : Prop :=
  ∀ (s : State) (rest : List Agent),
    (s.turns = .host :: rest → s.inbox = [] → step s = .next { s with turns := rest }) ∧
    (∀ op ops, s.turns = .host :: rest → s.inbox = op :: ops →
      step s = hostOp op { s with turns := rest, inbox := ops }) ∧
    (s.turns = .engine :: rest → s.status.busy = false → step s = .next { s with turns := rest }) ∧
    (∀ i, s.turns = .engine :: rest → s.status.busy = true → decode s.run.cmd = .ok i →
      step s = exec i { s with turns := rest }) ∧
    (∀ e, s.turns = .engine :: rest → s.status.busy = true → decode s.run.cmd = .error e →
      ∃ t, step s = .next t ∧ FailsWith { s with turns := rest } t 1) ∧
    (∀ op ops, s.turns = [] → s.status.busy = false → s.inbox = op :: ops →
      step s = hostOp op { s with inbox := ops }) ∧
    (s.turns = [] → s.status.busy = false → s.inbox = [] → step s = .next s)

/-! ### The command lifecycle -/

/-- 40_control.md R140, R142: a CMD write with BUSY = 0 and ERR = 0 is accepted and latches the context, and
the engine's next step executes the word. -/
def Obligations.AcceptanceLatchesTheContext : Prop :=
  ∀ (s : State) (r : BusReq) (w : Word), IsWrite r 0x10 w → s.status.busy = false →
    s.status.err = false → ∃ t, busAccess r s = .next t ∧
      t.cmd = w ∧ t.status.done = false ∧ t.status.busy = true ∧
      t.run.cmd = w ∧ t.run.kind = s.ctrl.kind ∧ t.run.slow = s.ctrl.slow ∧ t.run.a0 = s.arg0 ∧
      t.run.a1 = s.arg1 ∧ t.run.dom = s.domain ∧ t.run.seedstage = s.seeds ∧
      t.run.drawn = [] ∧ t.run.pending = [] ∧
      t.status.err = false ∧ t.status.ovr = s.status.ovr ∧ t.status.errcode = s.status.errcode ∧
      t.mem = s.mem ∧ t.ent = s.ent ∧ t.domain = s.domain ∧ t.ctrl = s.ctrl ∧ t.arg0 = s.arg0 ∧
      t.arg1 = s.arg1 ∧ t.seeds = s.seeds ∧ ResultsKept s t ∧
      (s.turns = [] → ∀ i, decode w = .ok i → step t = exec i t)

/-- 40_control.md R141: a CMD write while BUSY = 1 or ERR = 1 is ignored and sets OVR; nothing else
changes (but for the response on the bus). -/
def Obligations.RefusedCommandWriteSetsOvr : Prop :=
  ∀ (s : State) (r : BusReq) (w : Word), IsWrite r 0x10 w →
    (s.status.busy = true ∨ s.status.err = true) →
    busAccess r s = .next { s with status := { s.status with ovr := true }, resp := .writeDone }

/-- 20_memory.md R88: while BUSY = 1 a host write of a bank word, SYMBUF, CODEBUF or DOMAIN has no effect
on the target and sets OVR; a host read of the same returns a value nothing constrains and changes nothing
of the block (93_implementation_defined.md U2), whatever the free value and the model's counter of log 5. -/
def Obligations.BusyOperandAccessesAreLostOrFree : Prop :=
  ∀ (s : State) (r : BusReq) (a : Nat), (MemoryWord a ∨ a = 0x14) → s.status.busy = true →
    (∀ w, IsWrite r a w →
      busAccess r s = .next { s with status := { s.status with ovr := true }, resp := .writeDone }) ∧
    (IsRead r a → ∃ (v : Word) (n : Nat),
      busAccess r s = .next { s with resp := .readData v, freeIdx := n })

/-- 20_memory.md R88, 10_state.md R42, R45, R48, R37: CTRL (without ABORT), ARG0, ARG1 and SEEDj writes take
effect at once, busy or not, and do not change the running command; CTRL reads back its KIND (5 to 7 too),
MODE_SLOW and IRQ_EN and nothing else; DOMAIN can be written while idle. -/
def Obligations.HostRegisterWritesTakeEffect : Prop :=
  ∀ (s : State) (r : BusReq) (w : Word),
    (IsWrite r 0x08 w → w.getLsbD 16 = false → ∃ c : Ctrl,
      c.kind = w.extractLsb' 0 3 ∧ c.slow = w.getLsbD 4 ∧ c.irqEn = w.getLsbD 8 ∧
      busAccess r s = .next { s with ctrl := c, resp := .writeDone } ∧
      ∀ r' : BusReq, IsRead r' 0x08 →
        Answers { s with ctrl := c, resp := .writeDone } r' (w &&& 0x00000117)) ∧
    (IsWrite r 0x18 w → busAccess r s = .next { s with arg0 := w, resp := .writeDone }) ∧
    (IsWrite r 0x1C w → busAccess r s = .next { s with arg1 := w, resp := .writeDone }) ∧
    (∀ j : Fin 16, IsWrite r (0x40 + 4 * j.val) w →
      busAccess r s = .next { s with seeds := s.seeds.set j w, resp := .writeDone }) ∧
    (IsWrite r 0x14 w → s.status.busy = false →
      busAccess r s = .next { s with domain := w.extractLsb' 0 8, resp := .writeDone })

/-- 10_state.md R43: STATUS reads as its fields, and a write clears DONE, ERR with ERRCODE, and OVR where
it holds a 1, and nothing else. -/
def Obligations.StatusReadsAndClears : Prop :=
  ∀ (s : State) (r r' : BusReq) (w : Word), IsWrite r 0x0C w → IsRead r' 0x0C →
    (∃ v : Word, Answers s r' v ∧ v.toNat = s.status.busy.toNat + 2 * s.status.done.toNat +
      4 * s.status.err.toNat + 8 * s.status.ovr.toNat + 256 * s.status.errcode.toNat) ∧
    (∃ st : Status, busAccess r s = .next { s with status := st, resp := .writeDone } ∧
      st.busy = s.status.busy ∧
      st.done = (if w.getLsbD 1 then false else s.status.done) ∧
      st.err = (if w.getLsbD 2 then false else s.status.err) ∧
      st.ovr = (if w.getLsbD 3 then false else s.status.ovr) ∧
      st.errcode = (if w.getLsbD 2 then 0 else s.status.errcode))

/-- 10_state.md R44, R45, R48, R37, R39 with 20_memory.md R82 and R89: what the registers read as; a read
changes nothing but the response. The reserved registers read 0 and ignore a write. -/
def Obligations.RegistersReadTheirValue : Prop :=
  ∀ (s : State) (r : BusReq),
    (IsRead r 0x10 → Answers s r s.cmd) ∧ (IsRead r 0x18 → Answers s r s.arg0) ∧
    (IsRead r 0x1C → Answers s r s.arg1) ∧
    (∀ j : Fin 16, IsRead r (0x40 + 4 * j.val) → Answers s r s.seeds[j]) ∧
    (IsRead r 0x14 → s.status.busy = false →
      ∃ v : Word, Answers s r v ∧ v.toNat = s.domain.toNat) ∧
    (∀ j : Fin 4, (IsRead r (0x30 + 4 * j.val) → Answers s r 0) ∧
      ∀ w, IsWrite r (0x30 + 4 * j.val) w → busAccess r s = .next { s with resp := .writeDone })

/-- 10_state.md R40, R41, R47: ID and VERSION read their constants; PARAM_Q and PARAM_N read Q and N of the
current CTRL.KIND, and 0 when it is above 4; a write of any of them is ignored. -/
def Obligations.IdentityAndParameterRegisters : Prop :=
  ∀ (s : State) (r : BusReq),
    (IsRead r 0x00 → Answers s r 0x424C4953) ∧ (IsRead r 0x04 → Answers s r 0x00010000) ∧
    (∀ k, kindOf s.ctrl.kind = some k →
      (IsRead r 0x28 → ∃ q : Word, Answers s r q ∧ q.toNat = Config.Q k) ∧
      (IsRead r 0x2C → ∃ n : Word, Answers s r n ∧ n.toNat = Config.N k)) ∧
    (4 < s.ctrl.kind.toNat → IsRead r 0x28 ∨ IsRead r 0x2C → Answers s r 0) ∧
    (∀ (a : Nat) (w : Word), IsWrite r a w → (a = 0x00 ∨ a = 0x04 ∨ a = 0x28 ∨ a = 0x2C) →
      busAccess r s = .next { s with resp := .writeDone })

/-- 60_exceptions.md R356: ABORT ends a running command with code 10, discards what is pending, keeps the
entropy state, and stores the other CTRL fields; while idle it has no effect; ABORT reads 0. -/
def Obligations.AbortEndsTheRunningCommand : Prop :=
  ∀ (s : State) (r : BusReq) (w : Word), IsWrite r 0x08 w → w.getLsbD 16 = true →
    ∃ t, busAccess r s = .next t ∧ t.ctrl.kind = w.extractLsb' 0 3 ∧ t.ctrl.slow = w.getLsbD 4 ∧
      t.ctrl.irqEn = w.getLsbD 8 ∧
      (s.status.busy = false → t = { s with ctrl := t.ctrl, resp := .writeDone }) ∧
      (s.status.busy = true → t.status.busy = false ∧ t.status.done = true ∧ t.status.err = true ∧
        t.status.errcode = 10 ∧ t.status.ovr = s.status.ovr ∧ t.mem = s.mem ∧
        t.domain = s.domain ∧ ResultsKept s t ∧ t.ent = s.ent ∧ LatchKept s t ∧ t.cmd = s.cmd ∧
        t.arg0 = s.arg0 ∧ t.arg1 = s.arg1 ∧ t.seeds = s.seeds) ∧
      ∀ r' : BusReq, IsRead r' 0x08 → ∃ v : Word, Answers t r' v ∧ v.getLsbD 16 = false

/-- 60_exceptions.md R352: irq is IRQ_EN and DONE at every moment; IRQ_EN resets to 0, setting it while DONE
is 1 raises irq at once, and clearing DONE or IRQ_EN, or the next acceptance, lowers it; a completion with
IRQ_EN = 1 raises it. -/
def Obligations.IrqFollowsEnableAndDone : Prop :=
  State.reset.ctrl.irqEn = false ∧ State.reset.irq = false ∧
  ∀ (s : State) (r : BusReq) (w : Word),
    (s.irq = true ↔ s.ctrl.irqEn = true ∧ s.status.done = true) ∧
    (IsWrite r 0x08 w → ∃ t, busAccess r s = .next t ∧ (w.getLsbD 8 = false → t.irq = false) ∧
      (w.getLsbD 8 = true → s.status.done = true → t.irq = true)) ∧
    (IsWrite r 0x0C w → w.getLsbD 1 = true → ∃ t, busAccess r s = .next t ∧ t.irq = false) ∧
    (IsWrite r 0x10 w → s.status.busy = false → s.status.err = false →
      ∃ t, busAccess r s = .next t ∧ t.irq = false) ∧
    (∀ t, step s = .next t → s.status.busy = true → t.status.busy = false → t.rst = false →
      t.ctrl.irqEn = true → t.irq = true)

/-! ### Bus and memory -/

/-- 20_memory.md R87, R82 (60_exceptions.md R346): an access ends in the host fault exactly when it is not
a word, not aligned, or at an unmapped offset. -/
def Obligations.BusErrorExactlyWhenIllFormed : Prop :=
  ∀ (s : State) (r : BusReq), busAccess r s = .fault .busError ↔
    (r.size ≠ .word ∨ r.addr.toNat % 4 ≠ 0 ∨ Unmapped r.addr.toNat)

/-- 20_memory.md R83, R84, R85: an idle host read at the offset of a bank word returns it as stored, and a
write stores it; the words of SYMBUF and CODEBUF are four of its bytes, the first in bits 7:0. A write
changes nothing else (10_state.md R38). -/
def Obligations.MemoryWordsAtTheirOffsets : Prop :=
  ∀ (s : State) (r : BusReq) (w : Word), s.status.busy = false →
    (∀ (b : Bank) (i : Nat), i < 512 →
      (IsRead r (0x4000 + 0x800 * b.toNat + 4 * i) → s.bankWord? b i = some w → Answers s r w) ∧
      (IsWrite r (0x4000 + 0x800 * b.toNat + 4 * i) w →
        ∃ t, busAccess r s = .next t ∧ t.bankWord? b i = some w ∧
          MemoryKeptOutside s t (0x4000 + 0x800 * b.toNat + 4 * i) 4 ∧
          t = { s with mem := t.mem, resp := .writeDone })) ∧
    (∀ n, n < 128 →
      (IsRead r (0x0800 + 4 * n) → (∀ m, m < 4 → s.sym? (4 * n + m) = some (w.extractLsb' (8 * m) 8)) →
        Answers s r w) ∧
      (IsWrite r (0x0800 + 4 * n) w → ∃ t, busAccess r s = .next t ∧
        (∀ m, m < 4 → t.sym? (4 * n + m) = some (w.extractLsb' (8 * m) 8)) ∧
        MemoryKeptOutside s t (0x0800 + 4 * n) 4 ∧ t = { s with mem := t.mem, resp := .writeDone })) ∧
    (∀ n, n < 128 →
      (IsRead r (0x0C00 + 4 * n) →
        (∀ m, m < 4 → s.code? (4 * n + m) = some (w.extractLsb' (8 * m) 8)) → Answers s r w) ∧
      (IsWrite r (0x0C00 + 4 * n) w → ∃ t, busAccess r s = .next t ∧
        (∀ m, m < 4 → t.code? (4 * n + m) = some (w.extractLsb' (8 * m) 8)) ∧
        MemoryKeptOutside s t (0x0C00 + 4 * n) 4 ∧ t = { s with mem := t.mem, resp := .writeDone }))

/-- 10_state.md R33, R36 (93_implementation_defined.md U1, log 3): reading a byte that nothing has written
since reset is the named fault: for an idle host read; for every NTT command whose source holds an unwritten
word, B being read when A is in range; for HUF.ENC when it comes to an unwritten symbol; for HUF.DEC when a
byte of its stream is unwritten. That the fault comes before 42_ntt.md R206's ERR_RANGE where another word of
the source is out of range is the model's choice: a source is read whole before its range check (log 15). -/
def Obligations.UnwrittenReadsFault : Prop :=
  (∀ (s : State) (r : BusReq) (a i : Nat), MemoryWord a → IsRead r a → s.status.busy = false → i < 4 →
    s.mem.byte? (a + i) = none → busAccess r s = .fault .unwrittenRead) ∧
  (∀ (d a b : Bank) (s : State) (k : Kind) (i : Nat), kindOf s.run.kind = some k → i < Config.N k →
    (s.bankWord? a i = none →
      exec (.nttModq d a) s = .fault .unwrittenRead ∧ exec (.nttNeg d a) s = .fault .unwrittenRead ∧
      (tagOf s.run.dom a = false → exec (.nttFwd d a) s = .fault .unwrittenRead ∧
        exec (.nttInvert d a) s = .fault .unwrittenRead) ∧
      (tagOf s.run.dom a = true → exec (.nttInv d a) s = .fault .unwrittenRead) ∧
      (tagOf s.run.dom a = true → tagOf s.run.dom b = true →
        exec (.nttPmul d a b) s = .fault .unwrittenRead) ∧
      (tagOf s.run.dom a = false → tagOf s.run.dom b = true →
        exec (.nttMul d a b) s = .fault .unwrittenRead)) ∧
    (s.bankWord? b i = none → ∀ v : Nat → Nat, BankHolds s a (Config.N k) v → InField k v →
      (tagOf s.run.dom a = true → tagOf s.run.dom b = true →
        exec (.nttPmul d a b) s = .fault .unwrittenRead) ∧
      (tagOf s.run.dom a = false → tagOf s.run.dom b = true →
        exec (.nttMul d a b) s = .fault .unwrittenRead))) ∧
  (∀ (s : State) (k : Kind) (m : Nat) (b : Nat → Byte) (es : Nat → CodeEntry),
    kindOf s.run.kind = some k → m < s.run.a0.toNat → s.run.a0.toNat ≤ Config.N k →
    (∀ j, j < m → s.sym? j = some (b j) ∧ Encodes (Config.HUFF k) (b j) (es j)) →
    codeLength es 0 m ≤ Config.LMAX k → s.sym? m = none → exec .hufEnc s = .fault .unwrittenRead) ∧
  (∀ (s : State) (k : Kind) (j : Nat), kindOf s.run.kind = some k →
    s.run.a0.toNat ≤ Config.LMAX k → 1 ≤ s.run.a1.toNat → s.run.a1.toNat ≤ Config.N k →
    j < (s.run.a0.toNat + 7) / 8 → s.code? j = none → exec .hufDec s = .fault .unwrittenRead)

/-! ### Reset -/

/-- 10_state.md R54, R50; 70_reset_and_hazards.md R380: the values the spec gives for reset. -/
def Obligations.ResetValues : Prop :=
  State.reset.ctrl = ⟨0, false, false⟩ ∧ State.reset.status = ⟨false, false, false, false, 0⟩ ∧
  State.reset.cmd = 0 ∧ State.reset.domain = 0 ∧ State.reset.arg0 = 0 ∧ State.reset.arg1 = 0 ∧
  State.reset.result0 = 0 ∧ State.reset.result1 = 0 ∧ (∀ j : Fin 16, State.reset.seeds[j] = 0) ∧
  (∀ a, State.reset.mem.byte? a = none) ∧ State.reset.ent.S = 0 ∧
  State.reset.ent.bpos = 64 * Config.POOL_BLOCKS ∧ State.reset.ent.hpos = 32 * Config.POOL_BLOCKS ∧
  State.reset.ent.wpos = 8 * Config.POOL_BLOCKS ∧ State.reset.ent.bitavail = 0

/-- 70_reset_and_hazards.md R380: rst = 1 puts every register and the entropy state at its reset value,
discards a running command without a completion, and leaves the memories unspecified; while it is high an
access has no effect, a read returns 0 and no bus error is signalled; when it falls the block is idle with
all else as it was. (Log 3 says what an unspecified byte is here.) -/
def Obligations.ResetPinResets : Prop :=
  ∀ (s : State),
    (∃ t, hostOp (.rst true) s = .next t ∧ t.rst = true ∧ t.ctrl = ⟨0, false, false⟩ ∧
      t.status = ⟨false, false, false, false, 0⟩ ∧ t.cmd = 0 ∧ t.domain = 0 ∧ t.arg0 = 0 ∧
      t.arg1 = 0 ∧ t.result0 = 0 ∧ t.result1 = 0 ∧ (∀ j : Fin 16, t.seeds[j] = 0) ∧ t.ent.S = 0 ∧
      t.ent.bpos = 64 * Config.POOL_BLOCKS ∧ t.ent.hpos = 32 * Config.POOL_BLOCKS ∧
      t.ent.wpos = 8 * Config.POOL_BLOCKS ∧ t.ent.bitavail = 0 ∧ (∀ a, t.mem.byte? a = none) ∧
      t.irq = false) ∧
    hostOp (.rst false) s = .next { s with rst := false } ∧
    (∀ r : BusReq, s.rst = true →
      (r.write = false → hostOp (.access r) s = .next { s with resp := .readData 0 }) ∧
      (r.write = true → hostOp (.access r) s = .next { s with resp := .writeDone }))

/-! ### Whole-machine rules -/

/-- The reset state meets the invariant. -/
def Obligations.ResetMeetsTheInvariant : Prop := State.reset.Inv

/-- From every state that meets the invariant, a step that goes on gives a state that meets it: canonical
memory, a legal STATUS (40_control.md R146, 10_state.md R43, 60_exceptions.md R341), a well-formed entropy
unit (10_state.md R50), CMD showing the running command (10_state.md R44), and nothing pending while idle. -/
def Obligations.StepKeepsTheInvariant : Prop :=
  ∀ s t : State, s.Inv → step s = .next t → t.Inv

/-- 60_exceptions.md R350: a running command ends, unless reset ends it, by a successful commit, by an error
completion, or by an abort, each of which sets DONE and clears BUSY; no other step sets DONE. -/
def Obligations.OnlyCompletionSetsDone : Prop :=
  ∀ s t : State, step s = .next t →
    (s.status.busy = true → t.status.busy = false → t.rst = true ∨ (t.status.done = true ∧
      ((t.status.err = s.status.err ∧ t.status.errcode = s.status.errcode) ∨
       (t.status.err = true ∧ 1 ≤ t.status.errcode.toNat ∧ t.status.errcode.toNat ≤ 9) ∨
       (t.status.err = true ∧ t.status.errcode = 10 ∧
         ∃ r ops w, s.inbox = .access r :: ops ∧ IsWrite r 0x08 w ∧ w.getLsbD 16 = true)))) ∧
    (s.status.done = false → t.status.done = true → s.status.busy = true ∧ t.status.busy = false)

/-- 10_state.md R46: RESULT0 and RESULT1 read their value at any time, ignore a write, are 0 after reset,
and change only in the successful completion of a command that defines a result (30_encoding.md R116), or
in a reset. -/
def Obligations.ResultsChangeOnlyAtSuccess : Prop :=
  (State.reset.result0 = 0 ∧ State.reset.result1 = 0) ∧
  (∀ (s : State) (r : BusReq) (w : Word),
    (IsRead r 0x20 → Answers s r s.result0) ∧ (IsRead r 0x24 → Answers s r s.result1) ∧
    (IsWrite r 0x20 w ∨ IsWrite r 0x24 w → busAccess r s = .next { s with resp := .writeDone })) ∧
  (∀ s t : State, step s = .next t → ¬ ResultsKept s t → t.rst = true ∨
    (s.status.busy = true ∧ t.status.busy = false ∧ t.status.done = true ∧
      t.status.err = s.status.err ∧ t.status.errcode = s.status.errcode ∧
      ∃ i, decode s.run.cmd = .ok i ∧ (i = .entR64 ∨ t.result1 = s.result1) ∧
        i ∈ [Instr.smpGauss1, .smpPosbin, .smpBer, .smpBerexp, .smpBercosh, .entBit, .entBits, .entByte,
          .entR16, .entR64, .hufEnc]))

/-- 10_state.md R38 (and R380): a host write of a bank word leaves DOMAIN as it is; a tag changes only by a
host write of DOMAIN, by the engine's commit, or by reset. -/
def Obligations.TagsChangeOnlyByDomainWriteOrCommit : Prop :=
  (∀ (s : State) (r : BusReq) (a : Nat) (w : Word), IsWrite r a w → MemoryWord a →
    ∃ t, busAccess r s = .next t ∧ t.domain = s.domain) ∧
  (∀ s t : State, step s = .next t → t.domain ≠ s.domain →
    t.rst = true ∨ (∃ r ops w, s.inbox = .access r :: ops ∧ IsWrite r 0x14 w ∧ s.status.busy = false) ∨
    (s.status.busy = true ∧ t.status.busy = false ∧ t.status.done = true ∧
      t.status.err = s.status.err))

/-- 60_exceptions.md R340: an engine step that ends a command in an error sets STATUS and changes nothing
else, whatever the command: no memory byte, no tag, no result; the draws made before keep their effect. -/
def Obligations.ErrorsChangeOnlyStatus : Prop :=
  ∀ s t : State, s.status.busy = true → s.status.err = false → s.turns = [] → step s = .next t →
    t.status.err = true → ∃ code, 1 ≤ code ∧ code ≤ 9 ∧ FailsWith s t code

/-- 40_control.md R142, 10_state.md R51: a running command uses the latched copies only, so other values in
CTRL, ARG0, ARG1 and SEEDj change nothing in what it does. -/
def Obligations.RunningCommandUsesLatchedCopiesOnly : Prop :=
  ∀ (i : Instr) (s : State) (c : Ctrl) (x y : Word) (v : Vector Word 16),
    exec i (withHostRegisters c x y v s) = mapNext (withHostRegisters c x y v) (exec i s)

/-- 41_entropy.md R163: an engine step moves the live seed only by one refill of POOL_BLOCKS blocks, or by
ENT.SEED; 42_ntt.md R200, 44_huffman.md R304, 40_control.md R147: NTT, HUF and NOP leave the entropy state
as it is. -/
def Obligations.SeedMovesOnlyByRefill : Prop :=
  ∀ (i : Instr) (s t : State), exec i s = .next t →
    (i = .entSeed ∨ t.ent.S = s.ent.S ∨ t.ent.S = s.ent.S + BitVec.ofNat 512 Config.POOL_BLOCKS) ∧
    ((∃ d a b, i ∈ [Instr.nop, .nttFwd d a, .nttInv d a, .nttPmul d a b, .nttNeg d a, .nttInvert d a,
        .nttMul d a b, .nttModq d a, .hufEnc, .hufDec]) → t.ent = s.ent)

/-- 40_control.md R144: a command with draws, its checks passed, always goes on. While its procedure asks for
a draw r, the step makes exactly that draw, which is a real one: RandomBits is asked for 1 to 32 bits
(41_entropy.md R170). When it asks for none, the step completes the command and draws nothing, but for an
SMP.GAUSS sample that is not the last: the step keeps it and makes the next one's first draw (log 13). -/
def Obligations.DrawingCommandsDrawOrComplete : Prop :=
  ∀ (i : Instr) (s : State), DrawsWhenLegal s i →
    (∀ r, Requests s r i → (∀ n, r = .bits n → 1 ≤ n ∧ n ≤ 32) ∧
      ∃ t, exec i s = .next t ∧ DrawsOnce s t r) ∧
    ((∀ r, ¬ Requests s r i) → ∃ t, exec i s = .next t ∧
      ((t.ent = s.ent ∧ Completes s t) ∨
       (∃ d k v, i = .smpGauss d ∧ kindOf s.run.kind = some k ∧
          s.run.pending.length + 1 < Config.N k ∧ KeepsSample s t v)))

/-- 70_reset_and_hazards.md R388 (and the named faults, logs 3 and 4): with every memory byte written and
only well-formed accesses to come, a run never stops. -/
def Obligations.WrittenMachineRunsSafely : Prop :=
  ∀ (s : State) (n : Nat), s.allWritten → (∀ op ∈ s.inbox, op.isSafe) → s.runsSafely n

/-! ### Checks -/

/-- 60_exceptions.md R343: every NTT, SMP and HUF command fails with ERR_KIND when the latched kind is
above 4; NOP and the ENT commands never do; CTRL stores 5 to 7 as written. -/
def Obligations.KindErrors : Prop :=
  (∀ (i : Instr) (s : State), UsesKind i → 4 < s.run.kind.toNat →
    ∃ t, exec i s = .next t ∧ FailsWith s t 2) ∧
  (∀ (i : Instr) (s t : State), ¬ UsesKind i → s.status.errcode ≠ 2 → exec i s = .next t →
    t.status.errcode ≠ 2) ∧
  (∀ (s : State) (r : BusReq) (w : Word), IsWrite r 0x08 w →
    ∃ t, busAccess r s = .next t ∧ t.ctrl.kind = w.extractLsb' 0 3)

/-- 60_exceptions.md R344: the four commands with a scalar operand fail with ERR_ARG exactly outside its
legal range, and no other command ever does. -/
def Obligations.ArgErrors : Prop :=
  (∀ (i : Instr) (s t : State), s.status.errcode.toNat ≠ 3 → exec i s = .next t →
    (t.status.errcode.toNat = 3 ↔
      (i = .entBits ∧ 32 < s.run.a0.toNat) ∨
      (∃ k, kindOf s.run.kind = some k ∧
        ((i = .smpBer ∧ Config.ELL k ≤ s.run.a0.toNat) ∨
         (i = .hufEnc ∧ (s.run.a0.toNat = 0 ∨ Config.N k < s.run.a0.toNat)) ∨
         (i = .hufDec ∧ (Config.LMAX k < s.run.a0.toNat ∨ s.run.a1.toNat = 0 ∨
            Config.N k < s.run.a1.toNat)))))) ∧
  (∀ s : State, 32 < s.run.a0.toNat → ∃ t, exec .entBits s = .next t ∧ FailsWith s t 3) ∧
  (∀ (s : State) (k : Kind), kindOf s.run.kind = some k →
    (Config.ELL k ≤ s.run.a0.toNat → ∃ t, exec .smpBer s = .next t ∧ FailsWith s t 3) ∧
    (s.run.a0.toNat = 0 ∨ Config.N k < s.run.a0.toNat →
      ∃ t, exec .hufEnc s = .next t ∧ FailsWith s t 3) ∧
    (Config.LMAX k < s.run.a0.toNat ∨ s.run.a1.toNat = 0 ∨ Config.N k < s.run.a1.toNat →
      ∃ t, exec .hufDec s = .next t ∧ FailsWith s t 3))

/-- 42_ntt.md R207, 40_control.md R143 step 4: a source whose latched tag is not the one the command needs
ends it with ERR_DOMAIN, before any bank is read. -/
def Obligations.DomainErrors : Prop :=
  ∀ (d a b : Bank) (s : State) (k : Kind), kindOf s.run.kind = some k →
    (tagOf s.run.dom a = true → (∃ t, exec (.nttFwd d a) s = .next t ∧ FailsWith s t 4) ∧
      (∃ t, exec (.nttInvert d a) s = .next t ∧ FailsWith s t 4) ∧
      (∃ t, exec (.nttMul d a b) s = .next t ∧ FailsWith s t 4)) ∧
    (tagOf s.run.dom a = false → (∃ t, exec (.nttInv d a) s = .next t ∧ FailsWith s t 4) ∧
      (∃ t, exec (.nttPmul d a b) s = .next t ∧ FailsWith s t 4)) ∧
    (tagOf s.run.dom b = false → (∃ t, exec (.nttPmul d a b) s = .next t ∧ FailsWith s t 4) ∧
      (∃ t, exec (.nttMul d a b) s = .next t ∧ FailsWith s t 4))

/-- 42_ntt.md R206, 40_control.md R143 step 5: with the tags right and a written source A that holds a word
outside [0, q), read as s32, a command ends with ERR_RANGE; the same for B when A is in range. -/
def Obligations.RangeErrors : Prop :=
  ∀ (d a b : Bank) (s : State) (k : Kind) (x : Bank) (i : Nat) (w : Word),
    kindOf s.run.kind = some k → (∀ j, j < Config.N k → s.bankWord? x j ≠ none) → i < Config.N k →
    s.bankWord? x i = some w → (w.toInt < 0 ∨ (Config.Q k : Int) ≤ w.toInt) →
    (x = a → (∃ t, exec (.nttNeg d a) s = .next t ∧ FailsWith s t 5) ∧
      (tagOf s.run.dom a = false → (∃ t, exec (.nttFwd d a) s = .next t ∧ FailsWith s t 5) ∧
        (∃ t, exec (.nttInvert d a) s = .next t ∧ FailsWith s t 5)) ∧
      (tagOf s.run.dom a = true → ∃ t, exec (.nttInv d a) s = .next t ∧ FailsWith s t 5) ∧
      (tagOf s.run.dom a = true → tagOf s.run.dom b = true →
        ∃ t, exec (.nttPmul d a b) s = .next t ∧ FailsWith s t 5) ∧
      (tagOf s.run.dom a = false → tagOf s.run.dom b = true →
        ∃ t, exec (.nttMul d a b) s = .next t ∧ FailsWith s t 5)) ∧
    (x = b → ∀ v : Nat → Nat, BankHolds s a (Config.N k) v → InField k v →
      (tagOf s.run.dom a = true → tagOf s.run.dom b = true →
        ∃ t, exec (.nttPmul d a b) s = .next t ∧ FailsWith s t 5) ∧
      (tagOf s.run.dom a = false → tagOf s.run.dom b = true →
        ∃ t, exec (.nttMul d a b) s = .next t ∧ FailsWith s t 5))

/-! ### Control -/

/-- 40_control.md R147: 0x00000000 is NOP, and a word with opcode 0 and any other bit set is illegal; NOP
completes from every state, draws nothing and changes nothing but STATUS. -/
def Obligations.NopCompletes : Prop :=
  encode .nop = 0 ∧
  (∀ w : Word, w.extractLsb' 0 8 = 0 → w ≠ 0 → ∃ e, decode w = .error e) ∧
  ∀ s : State, ∃ t, exec .nop s = .next t ∧ Completes s t ∧ MemoryKept s t ∧ t.domain = s.domain ∧
    ResultsKept s t ∧ t.ent = s.ent

/-! ### NTT -/

/-- 42_ntt.md R210 with R204: NTT.FWD writes the values of A at the odd powers of ψ, tags D as a transform,
and leaves all else. -/
def Obligations.NttFwdEvaluatesAtOddPowers : Prop :=
  ∀ (d a : Bank) (s : State) (k : Kind) (v : Nat → Nat), kindOf s.run.kind = some k →
    tagOf s.run.dom a = false → BankHolds s a (Config.N k) v → InField k v →
    ∃ t, exec (.nttFwd d a) s = .next t ∧ BankHolds t d (Config.N k) (evalOdd k v) ∧
      CommitsBank s t d (Config.N k) true

/-- 42_ntt.md R211 with R205 and the NTT identity: NTT.INV writes the polynomial in [0, q) whose values at
the odd powers of ψ are A, tags D as normal, and leaves all else. -/
def Obligations.NttInvInterpolates : Prop :=
  ∀ (d a : Bank) (s : State) (k : Kind) (v : Nat → Nat), kindOf s.run.kind = some k →
    tagOf s.run.dom a = true → BankHolds s a (Config.N k) v → InField k v →
    ∃ t c, exec (.nttInv d a) s = .next t ∧ BankHolds t d (Config.N k) c ∧ InField k c ∧
      (∀ j, j < Config.N k → evalOdd k c j = v j) ∧ CommitsBank s t d (Config.N k) false

/-- 42_ntt.md R211, R202: NTT.INV after NTT.FWD restores the original words, from every polynomial with
coefficients in [0, q), in whatever state the second command finds its source. -/
def Obligations.NttInvAfterFwdRestores : Prop :=
  ∀ (d a x : Bank) (s u : State) (k : Kind) (v : Nat → Nat), kindOf s.run.kind = some k →
    tagOf s.run.dom a = false → BankHolds s a (Config.N k) v → InField k v →
    ∃ t, exec (.nttFwd d a) s = .next t ∧
      ((∀ i, i < Config.N k → u.bankWord? d i = t.bankWord? d i) → kindOf u.run.kind = some k →
        tagOf u.run.dom d = true →
        ∃ z, exec (.nttInv x d) u = .next z ∧ BankHolds z x (Config.N k) v)

/-- 42_ntt.md R212: NTT.PMUL writes the products mod q, word by word. -/
def Obligations.NttPmulMultipliesPointwise : Prop :=
  ∀ (d a b : Bank) (s : State) (k : Kind) (v w : Nat → Nat), kindOf s.run.kind = some k →
    tagOf s.run.dom a = true → tagOf s.run.dom b = true →
    BankHolds s a (Config.N k) v → InField k v → BankHolds s b (Config.N k) w → InField k w →
    ∃ t, exec (.nttPmul d a b) s = .next t ∧
      BankHolds t d (Config.N k) (fun i => v i * w i % Config.Q k) ∧
      CommitsBank s t d (Config.N k) true

/-- 42_ntt.md R213, R216, R207: NTT.NEG writes the negatives mod q (0 stays 0), NTT.MODQ the floored
remainders of the s32 words, whatever they are; each gives D the tag of A and leaves all else. -/
def Obligations.NttNegAndModqReduce : Prop :=
  ∀ (d a : Bank) (s : State) (k : Kind), kindOf s.run.kind = some k →
    (∀ v : Nat → Nat, BankHolds s a (Config.N k) v → InField k v →
      ∃ t, exec (.nttNeg d a) s = .next t ∧
        BankHolds t d (Config.N k) (fun i => (Config.Q k - v i) % Config.Q k) ∧
        CommitsBank s t d (Config.N k) (tagOf s.run.dom a)) ∧
    (∀ x : Nat → Word, (∀ i, i < Config.N k → s.bankWord? a i = some (x i)) →
      ∃ t, exec (.nttModq d a) s = .next t ∧
        BankHolds t d (Config.N k) (fun i => ((x i).toInt % (Config.Q k : Int)).toNat) ∧
        CommitsBank s t d (Config.N k) (tagOf s.run.dom a))

/-- 42_ntt.md R214: NTT.INVERT writes the inverses mod q of the transform's values where none is 0, and
ends with ERR_NOTINV where one is. -/
def Obligations.NttInvertInvertsTheTransform : Prop :=
  ∀ (d a : Bank) (s : State) (k : Kind) (v : Nat → Nat), kindOf s.run.kind = some k →
    tagOf s.run.dom a = false → BankHolds s a (Config.N k) v → InField k v →
    ((∀ j, j < Config.N k → evalOdd k v j ≠ 0) →
      ∃ t c, exec (.nttInvert d a) s = .next t ∧ BankHolds t d (Config.N k) c ∧ InField k c ∧
        (∀ j, j < Config.N k → c j * evalOdd k v j % Config.Q k = 1) ∧
        CommitsBank s t d (Config.N k) true) ∧
    (∀ j, j < Config.N k → evalOdd k v j = 0 →
      ∃ t, exec (.nttInvert d a) s = .next t ∧ FailsWith s t 6)

/-- 42_ntt.md R215: NTT.MUL writes the polynomial in [0, q) whose transform is the pointwise product of
A's transform and B. -/
def Obligations.NttMulMultipliesTransforms : Prop :=
  ∀ (d a b : Bank) (s : State) (k : Kind) (v w : Nat → Nat), kindOf s.run.kind = some k →
    tagOf s.run.dom a = false → tagOf s.run.dom b = true →
    BankHolds s a (Config.N k) v → InField k v → BankHolds s b (Config.N k) w → InField k w →
    ∃ t c, exec (.nttMul d a b) s = .next t ∧ BankHolds t d (Config.N k) c ∧ InField k c ∧
      (∀ j, j < Config.N k → evalOdd k c j = evalOdd k v j * w j % Config.Q k) ∧
      CommitsBank s t d (Config.N k) false

/-- 42_ntt.md R209, R215: with B the transform of b, NTT.MUL writes the negacyclic product of A and b,
reduced mod q. -/
def Obligations.NttMulIsTheNegacyclicProduct : Prop :=
  ∀ (d a b : Bank) (s : State) (k : Kind) (v w : Nat → Nat), kindOf s.run.kind = some k →
    tagOf s.run.dom a = false → tagOf s.run.dom b = true →
    BankHolds s a (Config.N k) v → InField k v → InField k w →
    BankHolds s b (Config.N k) (evalOdd k w) →
    ∃ t, exec (.nttMul d a b) s = .next t ∧ BankHolds t d (Config.N k) (negacyclic k v w)

/-- 42_ntt.md R203: the loop of the transform core, as the rule writes it, and the transform the commands
use both compute the closed form, the natural-order DFT at ω = ψ^2, on every vector of n values in
[0, q). -/
def Obligations.FftLoopComputesTheClosedForm : Prop :=
  ∀ (k : Kind) (v : List Nat), v.length = Config.N k → (∀ c ∈ v, c < Config.Q k) →
    (fftLoop (Config.ring k) v).length = Config.N k ∧ (fft (Config.ring k) v).length = Config.N k ∧
    ∀ m, m < Config.N k →
      (fftLoop (Config.ring k) v).getD m 0 =
        (∑ i ∈ Finset.range (Config.N k), v.getD i 0 * (Config.PSI k ^ 2) ^ (i * m)) % Config.Q k ∧
      (fft (Config.ring k) v).getD m 0 =
        (∑ i ∈ Finset.range (Config.N k), v.getD i 0 * (Config.PSI k ^ 2) ^ (i * m)) % Config.Q k

/-! ### Entropy -/

/-- 41_entropy.md R180: ENT.SEED makes staged byte i the byte i of the live seed, empties every pool, and
changes nothing else but STATUS. -/
def Obligations.EntSeedLoadsTheStagedSeed : Prop :=
  ∀ s : State, ∃ t, exec .entSeed s = .next t ∧
    (∀ (j : Fin 16) (m : Nat), m < 4 → t.ent.S.extractLsb' (8 * (4 * j.val + m)) 8 =
      (s.run.seedstage[j]).extractLsb' (8 * m) 8) ∧
    t.ent.bpos = 64 * Config.POOL_BLOCKS ∧ t.ent.hpos = 32 * Config.POOL_BLOCKS ∧
    t.ent.wpos = 8 * Config.POOL_BLOCKS ∧ t.ent.bitavail = 0 ∧
    Completes s t ∧ MemoryKept s t ∧ t.domain = s.domain ∧ ResultsKept s t

/-- 41_entropy.md R181, R183, R184, R185; 40_control.md R144: ENT.BIT, ENT.BYTE, ENT.R16 and ENT.R64 make
their draw in one engine step and complete in the next with its value, zero-extended in RESULT0, and for
ENT.R64 the low half in RESULT0 and the high half in RESULT1. -/
def Obligations.EntDrawsThenCommits : Prop :=
  ∀ s : State, s.run.drawn = [] →
    (∃ t u, exec .entBit s = .next t ∧ exec .entBit t = .next u ∧ DrawsOnce s t .bit ∧
      CommitsResult0 t u ∧ u.result0.toNat = (s.ent.randomBit Config.pool).1.toNat) ∧
    (∃ t u, exec .entByte s = .next t ∧ exec .entByte t = .next u ∧ DrawsOnce s t .byte ∧
      CommitsResult0 t u ∧ u.result0.toNat = (s.ent.randomByte Config.pool).1.toNat) ∧
    (∃ t u, exec .entR16 s = .next t ∧ exec .entR16 t = .next u ∧ DrawsOnce s t .r16 ∧
      CommitsResult0 t u ∧ u.result0.toNat = (s.ent.random16 Config.pool).1.toNat) ∧
    (∃ t u, exec .entR64 s = .next t ∧ exec .entR64 t = .next u ∧ DrawsOnce s t .r64 ∧
      u.result0.toNat + 2 ^ 32 * u.result1.toNat = (s.ent.random64 Config.pool).1.toNat ∧
      Completes t u ∧ MemoryKept t u ∧ u.domain = t.domain ∧ u.ent = t.ent)

/-- 41_entropy.md R182, R170: ENT.BITS with k = 0 completes with 0 and no draw; with k from 1 to 32 it draws
in the latched mode and completes with the value. -/
def Obligations.EntBitsDrawsThenCommits : Prop :=
  ∀ s : State, s.run.drawn = [] →
    (s.run.a0 = 0 → ∃ t, exec .entBits s = .next t ∧ CommitsResult0 s t ∧ t.result0 = 0) ∧
    (1 ≤ s.run.a0.toNat → s.run.a0.toNat ≤ 32 →
      ∃ t u, exec .entBits s = .next t ∧ exec .entBits t = .next u ∧
        DrawsOnce s t (.bits s.run.a0.toNat) ∧ CommitsResult0 t u ∧
        u.result0 = (s.ent.randomBits Config.pool s.run.slow s.run.a0.toNat).1)

/-- 41_entropy.md R167, R168, R169: RandomBit takes the low bit of the bit pool, which is refilled from the
64-bit pool when it is empty. RandomBits in fast mode takes the low k bits, discarding what is left and
refilling when fewer than k bits are; in slow mode it takes k single bits, the first the most significant. -/
def Obligations.FastAndSlowBits : Prop :=
  ∀ (p : PoolParams) (e : Entropy),
    (e.bitavail ≠ 0 → e.randomBit p =
      (e.bitbuf.getLsbD 0, { e with bitbuf := e.bitbuf >>> 1, bitavail := e.bitavail - 1 })) ∧
    (e.bitavail = 0 → e.randomBit p = ((e.random64 p).1.getLsbD 0,
      { (e.random64 p).2 with bitbuf := (e.random64 p).1 >>> 1, bitavail := 63 })) ∧
    ∀ k, 1 ≤ k → k ≤ 32 →
      (k ≤ e.bitavail → (e.randomBits p false k).1.toNat = e.bitbuf.toNat % 2 ^ k ∧
        (e.randomBits p false k).2 = { e with bitbuf := e.bitbuf >>> k, bitavail := e.bitavail - k }) ∧
      (e.bitavail < k → (e.randomBits p false k).1.toNat = (e.random64 p).1.toNat % 2 ^ k ∧
        (e.randomBits p false k).2 =
          { (e.random64 p).2 with bitbuf := (e.random64 p).1 >>> k, bitavail := 64 - k }) ∧
      (∀ j, j < k → (e.randomBits p true k).1.getLsbD (k - 1 - j) =
        (drawMany (Entropy.randomBit p) k e).1.getD j false) ∧
      (e.randomBits p true k).1.toNat < 2 ^ k ∧
      (e.randomBits p true k).2 = (drawMany (Entropy.randomBit p) k e).2

/-- 41_entropy.md R162 to R166, R172: a draw from a pool that is not empty returns the word at its cursor and
moves the cursor alone. From an empty pool, one refill comes out whole and in order: word j is the
little-endian number of the refill's bytes at its place, byte i of the refill being byte i mod 64 of the hash
of the seed plus i / 64; then the pool is empty again, the seed has moved by POOL_BLOCKS, and no other pool
has changed. -/
def Obligations.PoolDrawsFollowTheHash : Prop :=
  ∀ (p : PoolParams) (e : Entropy), 1 ≤ p.blocks →
    (e.bpos < 64 * p.blocks → e.randomByte p = (e.BP.getD e.bpos 0, { e with bpos := e.bpos + 1 })) ∧
    (e.hpos < 32 * p.blocks → e.random16 p = (e.HP.getD e.hpos 0, { e with hpos := e.hpos + 1 })) ∧
    (e.wpos < 8 * p.blocks → e.random64 p = (e.WP.getD e.wpos 0, { e with wpos := e.wpos + 1 })) ∧
    (e.bpos = 64 * p.blocks →
      (∀ j, j < 64 * p.blocks → ∃ v, (drawMany (Entropy.randomByte p) (64 * p.blocks) e).1[j]? = some v ∧
        v.toNat = refillByte p e.S j) ∧
      ∃ bs, (drawMany (Entropy.randomByte p) (64 * p.blocks) e).2 =
        { e with BP := bs, bpos := 64 * p.blocks, S := e.S + BitVec.ofNat 512 p.blocks }) ∧
    (e.hpos = 32 * p.blocks →
      (∀ j, j < 32 * p.blocks → ∃ v, (drawMany (Entropy.random16 p) (32 * p.blocks) e).1[j]? = some v ∧
        v.toNat = ∑ m ∈ Finset.range 2, refillByte p e.S (2 * j + m) * 256 ^ m) ∧
      ∃ hs, (drawMany (Entropy.random16 p) (32 * p.blocks) e).2 =
        { e with HP := hs, hpos := 32 * p.blocks, S := e.S + BitVec.ofNat 512 p.blocks }) ∧
    (e.wpos = 8 * p.blocks →
      (∀ j, j < 8 * p.blocks → ∃ v, (drawMany (Entropy.random64 p) (8 * p.blocks) e).1[j]? = some v ∧
        v.toNat = ∑ m ∈ Finset.range 8, refillByte p e.S (8 * j + m) * 256 ^ m) ∧
      ∃ ws, (drawMany (Entropy.random64 p) (8 * p.blocks) e).2 =
        { e with WP := ws, wpos := 8 * p.blocks, S := e.S + BitVec.ofNat 512 p.blocks })

/-! ### Sampler -/

/-- 43_sampler.md R252: on COLS drawn bytes, Bernoulli(i) is done, true exactly when the big-endian number
drawn is at most the row's, having used at least one draw; while the bytes drawn equal the row's and are fewer
than COLS, it asks for another byte. -/
def Obligations.BernoulliComparesWithTheRow : Prop :=
  ∀ (c : SamplerParams) (i : Nat) (us : List Byte), 1 ≤ c.cols →
    (us.length = c.cols →
      ∃ rest, Sys2Proof.Machine.bernoulli c i (byteDraws us) = .done
          (decide (bigEndian us ≤ bigEndian ((List.range c.cols).map (c.cdt i)))) rest ∧
        rest.length < us.length) ∧
    (us.length < c.cols → (∀ j, j < us.length → us.getD j 0 = c.cdt i j) →
      Sys2Proof.Machine.bernoulli c i (byteDraws us) = .need .byte)

/-- 43_sampler.md R263, R252: SMP.BER commits 1 or 0 once the bytes drawn decide the comparison with row
ARG0, and draws another byte while they do not. -/
def Obligations.SmpBerComparesByteByByte : Prop :=
  ∀ (s : State) (k : Kind) (us : List Byte), kindOf s.run.kind = some k →
    s.run.a0.toNat < Config.ELL k → s.run.drawn = byteDraws us → us.length ≤ Config.COLS k →
    (∀ j, j + 1 < us.length → us.getD j 0 = Config.CDT k s.run.a0.toNat j) →
    (us ≠ [] → (us.length = Config.COLS k ∨
        us.getD (us.length - 1) 0 ≠ Config.CDT k s.run.a0.toNat (us.length - 1)) →
      ∃ t, exec .smpBer s = .next t ∧ CommitsResult0 s t ∧
        t.result0 = (if (us.getD (us.length - 1) 0).toNat ≤
          (Config.CDT k s.run.a0.toNat (us.length - 1)).toNat then 1 else 0)) ∧
    (us.length < Config.COLS k →
      (us = [] ∨ us.getD (us.length - 1) 0 = Config.CDT k s.run.a0.toNat (us.length - 1)) →
      ∃ t, exec .smpBer s = .next t ∧ DrawsOnce s t .byte)

/-- 40_control.md R148, 43_sampler.md R253, R254, R257, R264, R265: BernoulliExp consults the rows of the set
bits of x below ELL, highest first: it asks for what the highest row asks for, is false when that row's compare
is, and else goes on with the bit cleared; with no such bit it is true without a draw. So it is done on
ELL·COLS draws at the latest, and only the bits below ELL matter. SMP.BEREXP with none of them set, and
SMP.BERCOSH with x = 0 or x = -2^31, complete at once with 1 and draw nothing. -/
def Obligations.BernoulliExpIsBounded : Prop :=
  (∀ (c : SamplerParams) (x y : Word) (ds : List DWord), c.ell ≤ 32 →
    (∀ i, i < c.ell → x.getLsbD i = true → (∀ j, i < j → j < c.ell → x.getLsbD j = false) →
      (∀ r, Sys2Proof.Machine.bernoulli c i ds = .need r → bernoulliExp c x ds = .need r) ∧
      (∀ rest, Sys2Proof.Machine.bernoulli c i ds = .done false rest →
        bernoulliExp c x ds = .done false rest) ∧
      (∀ rest, Sys2Proof.Machine.bernoulli c i ds = .done true rest →
        bernoulliExp c x ds = bernoulliExp c (x &&& ~~~(1#32 <<< i)) rest)) ∧
    ((∀ i, i < c.ell → x.getLsbD i = false) → bernoulliExp c x ds = .done true ds) ∧
    (c.ell * c.cols ≤ ds.length → ∃ b rest, bernoulliExp c x ds = .done b rest ∧
      ds.length ≤ rest.length + c.ell * c.cols) ∧
    ((∀ i, i < c.ell → x.getLsbD i = y.getLsbD i) → bernoulliExp c x = bernoulliExp c y)) ∧
  (∀ (s : State) (k : Kind), kindOf s.run.kind = some k →
    ((∀ i, i < Config.ELL k → s.run.a0.getLsbD i = false) →
      ∃ t, exec .smpBerexp s = .next t ∧ CommitsResult0 s t ∧ t.result0 = 1) ∧
    (s.run.a0 = 0 ∨ s.run.a0 = 0x80000000 →
      ∃ t, exec .smpBercosh s = .next t ∧ CommitsResult0 s t ∧ t.result0 = 1))

/-- 43_sampler.md R265, R254: x and -x behave identically in BernoulliCosh. It asks for what a first
BernoulliExp(2|x|) asks for; true ends it at once; else it asks for a coin, heads to loop, tails to ask for
what a second BernoulliExp(2|x|) asks for, and to reject unless that succeeds. -/
def Obligations.BernoulliCoshLoop : Prop :=
  ∀ (c : SamplerParams) (x xx : Word) (ds : List DWord),
    xx.toNat = 2 * x.toInt.natAbs % 2 ^ 32 →
    bernoulliCosh c (-x) = bernoulliCosh c x ∧
    (∀ r, bernoulliExp c xx ds = .need r → bernoulliCosh c x ds = .need r) ∧
    (∀ rest, bernoulliExp c xx ds = .done true rest → bernoulliCosh c x ds = .done true rest) ∧
    (bernoulliExp c xx ds = .done false [] → bernoulliCosh c x ds = .need .bit) ∧
    (∀ u rest, bernoulliExp c xx ds = .done false (u :: rest) → u.getLsbD 0 = true →
      bernoulliCosh c x ds = bernoulliCosh c x rest) ∧
    (∀ u rest rest', bernoulliExp c xx ds = .done false (u :: rest) → u.getLsbD 0 = false →
      (∀ r, bernoulliExp c xx rest = .need r → bernoulliCosh c x ds = .need r) ∧
      (bernoulliExp c xx rest = .done false rest' → bernoulliCosh c x ds = .done false rest') ∧
      (bernoulliExp c xx rest = .done true rest' →
        bernoulliCosh c x ds = bernoulliCosh c x rest'))

/-- 43_sampler.md R255, R262: PositiveBinary asks for a bit first; a first 0 gives 0; after a first 1 and
i - 1 groups of value 1, i at most 16, it asks for group i of 2i - 1 bits, whose value 0 gives i and whose
value other than 0 and 1 restarts; 16 groups of value 1 give 0; and the value is at most 16. -/
def Obligations.PositiveBinaryPatterns : Prop :=
  positiveBinary [] = .need .bit ∧
  ∀ (ds : List DWord) (u : DWord) (i : Nat),
    positiveBinary (0 :: ds) = .done 0 ds ∧
    (1 ≤ i → i ≤ 16 →
      positiveBinary (1 :: List.replicate (i - 1) 1) = .need (.bits (2 * i - 1)) ∧
      positiveBinary (1 :: (List.replicate (i - 1) 1 ++ 0 :: ds)) = .done i ds ∧
      (u.setWidth 32 ≠ (0 : Word) → u.setWidth 32 ≠ (1 : Word) →
        positiveBinary (1 :: (List.replicate (i - 1) 1 ++ u :: ds)) = positiveBinary ds)) ∧
    positiveBinary (1 :: (List.replicate 16 1 ++ ds)) = .done 0 ds ∧
    (∀ v rest, positiveBinary ds = .done v rest → v ≤ 16)

/-- 43_sampler.md R256: Gauss on its draws. It asks for what PositiveBinary asks for; then, with x known, for
RandomBits(KSIGMABITS) until a residue y is below KSIGMA (no draw where KSIGMABITS is 0); then for what
BernoulliExp of y·(y + 2·KSIGMA·x), truncated to 32 bits, asks for; then for the last bit. It restarts when it
is rejected or when z = KSIGMA·x + y is 0 and the bit is 0, and else gives z or -z by the bit. Every value lies
strictly between -17·KSIGMA and 17·KSIGMA. -/
def Obligations.GaussCombinesItsDraws : Prop :=
  (∀ (c : SamplerParams) (ds rest : List DWord) (z : Int), gauss c ds = .done z rest →
    z.natAbs < 17 * c.ksigma) ∧
  (∀ (c : SamplerParams) (ds : List DWord),
    (∀ r, positiveBinary ds = .need r → gauss c ds = .need r) ∧
    (∀ x ws, positiveBinary ds = .done x ws → c.ksigmaBits ≠ 0 →
      (∀ r ∈ ws, c.ksigma ≤ (r.setWidth 32).toNat) → gauss c ds = .need (.bits c.ksigmaBits))) ∧
  ∀ (c : SamplerParams) (x y : Nat) (u : DWord) (ds ws ds' rest : List DWord), 1 ≤ c.ksigma →
    positiveBinary ds = .done x ws → ResidueIs c ws y ds' →
    (∀ r, bernoulliExp c (BitVec.ofNat 32 (y * (y + 2 * c.ksigma * x))) ds' = .need r →
      gauss c ds = .need r) ∧
    (bernoulliExp c (BitVec.ofNat 32 (y * (y + 2 * c.ksigma * x))) ds' = .done false rest →
      gauss c ds = gauss c rest) ∧
    (bernoulliExp c (BitVec.ofNat 32 (y * (y + 2 * c.ksigma * x))) ds' = .done true [] →
      gauss c ds = .need .bit) ∧
    (bernoulliExp c (BitVec.ofNat 32 (y * (y + 2 * c.ksigma * x))) ds' = .done true (u :: rest) →
      (c.ksigma * x + y = 0 → u.getLsbD 0 = false → gauss c ds = gauss c rest) ∧
      (u.getLsbD 0 = true → gauss c ds = .done ((c.ksigma * x + y : Nat) : Int) rest) ∧
      (c.ksigma * x + y ≠ 0 → u.getLsbD 0 = false →
        gauss c ds = .done (-((c.ksigma * x + y : Nat) : Int)) rest))

/-- 43_sampler.md R261, R262, R264, R265; 40_control.md R144, R145: once its procedure is done on the draws
made, SMP.GAUSS1, SMP.POSBIN, SMP.BEREXP or SMP.BERCOSH completes with the value in RESULT0; while it needs a
draw, the step makes exactly that draw. -/
def Obligations.SamplerCommandsCommitTheirProcedure : Prop :=
  ∀ (s : State) (k : Kind), kindOf s.run.kind = some k →
    (∀ z rest, gauss (Config.sampler k) s.run.drawn = .done z rest →
      ∃ t, exec .smpGauss1 s = .next t ∧ CommitsResult0 s t ∧ t.result0 = BitVec.ofInt 32 z) ∧
    (∀ v rest, positiveBinary s.run.drawn = .done v rest →
      ∃ t, exec .smpPosbin s = .next t ∧ CommitsResult0 s t ∧ t.result0.toNat = v) ∧
    (∀ b rest, bernoulliExp (Config.sampler k) s.run.a0 s.run.drawn = .done b rest →
      ∃ t, exec .smpBerexp s = .next t ∧ CommitsResult0 s t ∧ t.result0.toNat = b.toNat) ∧
    (∀ b rest, bernoulliCosh (Config.sampler k) s.run.a0 s.run.drawn = .done b rest →
      ∃ t, exec .smpBercosh s = .next t ∧ CommitsResult0 s t ∧ t.result0.toNat = b.toNat) ∧
    (∀ r, gauss (Config.sampler k) s.run.drawn = .need r →
      ∃ t, exec .smpGauss1 s = .next t ∧ DrawsOnce s t r) ∧
    (∀ r, positiveBinary s.run.drawn = .need r →
      ∃ t, exec .smpPosbin s = .next t ∧ DrawsOnce s t r) ∧
    (∀ r, bernoulliExp (Config.sampler k) s.run.a0 s.run.drawn = .need r →
      ∃ t, exec .smpBerexp s = .next t ∧ DrawsOnce s t r) ∧
    (∀ r, bernoulliCosh (Config.sampler k) s.run.a0 s.run.drawn = .need r →
      ∃ t, exec .smpBercosh s = .next t ∧ DrawsOnce s t r)

/-- 43_sampler.md R260, 40_control.md R144: while the sample in hand needs a draw, SMP.GAUSS makes exactly that
draw; when the n-th sample is done, it writes the n samples, in order, as s32 words of D, tags D as normal, and
leaves all else; when an earlier one is, it keeps it and makes the next one's first draw (log 13). -/
def Obligations.SmpGaussFillsTheBank : Prop :=
  ∀ (d : Bank) (s : State) (k : Kind), kindOf s.run.kind = some k →
    (∀ r, gauss (Config.sampler k) s.run.drawn = .need r →
      ∃ t, exec (.smpGauss d) s = .next t ∧ DrawsOnce s t r) ∧
    (∀ z rest, gauss (Config.sampler k) s.run.drawn = .done z rest →
      (s.run.pending.length + 1 = Config.N k → ∃ t, exec (.smpGauss d) s = .next t ∧
        (∀ i, i < Config.N k → t.bankWord? d i = (s.run.pending ++ [BitVec.ofInt 32 z])[i]?) ∧
        CommitsBank s t d (Config.N k) false) ∧
      (s.run.pending.length + 1 < Config.N k → ∃ t, exec (.smpGauss d) s = .next t ∧
        KeepsSample s t (BitVec.ofInt 32 z)))

/-- 40_control.md R148, 43_sampler.md R255: SMP.POSBIN can draw on without end: at every prefix of the rounds
of draws 1, 1, 5, however many, its step is one more draw and no completion, and the draw is R255's: a bit at
the start of a round, then the 1-bit group, then the 3-bit group. -/
def Obligations.PosbinCanRunForever : Prop :=
  ∀ (m : Nat) (s : State) (k : Kind), kindOf s.run.kind = some k →
    s.run.drawn <+: (List.replicate m [(1 : DWord), 1, 5]).flatten →
    ∃ t, exec .smpPosbin s = .next t ∧ t.status = s.status ∧
      DrawsOnce s t (if s.run.drawn.length % 3 = 0 then .bit
        else if s.run.drawn.length % 3 = 1 then .bits 1 else .bits 3)

/-! ### Huffman -/

/-- 44_huffman.md R310, R303: where every symbol has an entry and the stream fits, HUF.ENC writes the
stream's bytes into CODEBUF and its length into RESULT0, and leaves all else; the first symbol that has no
entry ends it with ERR_SYMBOL, the first that would make the stream longer than LMAX with ERR_OVERFLOW. Said
of the encoder on every codebook R301 admits, and of the command on its kind's own. -/
def Obligations.HufEncWritesTheStream : Prop :=
  (∀ (c : CodecParams) (s : State), Admitted c → WritesTheStream c (hufEnc c) s) ∧
  (∀ (s : State) (k : Kind), kindOf s.run.kind = some k →
    WritesTheStream (Config.codec k) (exec .hufEnc) s)

/-- 44_huffman.md R311, R303: on written bytes, HUF.DEC completes exactly when the L bits after the pad are
the codewords of `count` entries that have a byte, and then writes their canonical bytes into SYMBUF and
leaves all else; otherwise it ends with ERR_CORRUPT. Said of the decoder on every codebook R301 admits, and of
the command on its kind's own. -/
def Obligations.HufDecReadsTheStream : Prop :=
  (∀ (c : CodecParams) (s : State), Admitted c → ReadsTheStream c (hufDec c) s) ∧
  (∀ (s : State) (k : Kind), kindOf s.run.kind = some k →
    ReadsTheStream (Config.codec k) (exec .hufDec) s)

/-- 44_huffman.md R312: HUF.DEC of what a successful HUF.ENC wrote, with ARG0 its length and ARG1 the
count, succeeds, and gives each original byte in its canonical form. Said of the codec on every codebook R301
admits, and of the commands on their kind's own. -/
def Obligations.HuffmanRoundTrip : Prop :=
  (∀ (c : CodecParams) (s u : State), Admitted c → RoundTrips (hufEnc c) (hufDec c) s u) ∧
  (∀ (s u : State) (k : Kind), kindOf s.run.kind = some k → kindOf u.run.kind = some k →
    RoundTrips (exec .hufEnc) (exec .hufDec) s u)
end

