-- ==== Sys2Proof/Laws/Memory.lean ====
section
/-! SUPPORT. What the memory operations do: a byte read after a write, the canonical form, words, and
whole banks. -/

namespace Sys2Proof.Machine

theorem cellsFrom_length (a : Nat) (bs : List Byte) : (cellsFrom a bs).length = bs.length := by
  induction bs generalizing a with
  | nil => rfl
  | cons b bs ih => simp [cellsFrom, ih]

theorem lookup_cons_cell (x : Nat) (c : Host.Cell) (l : List Host.Cell) :
    List.lookup x (c :: l) = if x = c.1 then some c.2 else List.lookup x l := by
  obtain ⟨k, v⟩ := c
  rw [List.lookup]
  by_cases h : x = k
  · simp [h]
  · simp [h, beq_false_of_ne h]

theorem lookup_cellsFrom (a x : Nat) (bs : List Byte) :
    List.lookup x (cellsFrom a bs) = if a ≤ x then bs[x - a]? else none := by
  induction bs generalizing a with
  | nil => simp [cellsFrom]
  | cons b bs ih =>
    rw [cellsFrom, lookup_cons_cell, ih]
    by_cases h : x = a
    · simp [h]
    · rw [if_neg h]
      by_cases h' : a ≤ x
      · have : x - a = (x - (a + 1)) + 1 := by omega
        rw [if_pos h', if_pos (by omega), this, List.getElem?_cons_succ]
      · rw [if_neg h', if_neg (by omega)]

theorem mem_cellsFrom {a : Nat} {bs : List Byte} {c : Host.Cell} (h : c ∈ cellsFrom a bs) :
    a ≤ c.1 ∧ c.1 < a + bs.length := by
  induction bs generalizing a with
  | nil => simp [cellsFrom] at h
  | cons b bs ih =>
    simp only [cellsFrom, List.mem_cons] at h
    rcases h with rfl | h
    · simp
    · have := ih h; simp only [List.length_cons]; omega

theorem lookup_append_cells (x : Nat) (l k : List Host.Cell) :
    List.lookup x (l ++ k) = (List.lookup x l).or (List.lookup x k) := by
  induction l with
  | nil => simp
  | cons c l ih => rw [List.cons_append, lookup_cons_cell, lookup_cons_cell, ih]; split <;> simp

theorem lookup_filter_key (x : Nat) (l : List Host.Cell) (p : Nat → Bool) :
    List.lookup x (l.filter fun c => p c.1) = if p x then List.lookup x l else none := by
  induction l with
  | nil => simp
  | cons c l ih =>
    rw [List.filter_cons]
    by_cases hp : p c.1 = true
    · rw [if_pos hp, lookup_cons_cell, lookup_cons_cell, ih]
      by_cases hc : x = c.1
      · simp [hc, hp]
      · simp [hc]
    · rw [if_neg hp, lookup_cons_cell, ih]
      by_cases hc : x = c.1
      · simp [hc, hp]
      · simp [hc]

/-- Reading one byte after a store: the stored byte inside, the old one outside. -/
theorem Memory.byte?_write (m : Memory) (a x : Nat) (bs : List Byte) :
    (m.write a bs).byte? x =
      if a ≤ x ∧ x < a + bs.length then bs[x - a]? else m.byte? x := by
  have hlo := lookup_filter_key x m (fun y => decide (y < a))
  have hhi := lookup_filter_key x m (fun y => decide (a + bs.length ≤ y))
  unfold Memory.byte? Memory.write
  rw [lookup_append_cells, lookup_append_cells, hlo, hhi, lookup_cellsFrom]
  rcases Nat.lt_or_ge x a with h1 | h1
  · have h2 : ¬ a + bs.length ≤ x := by omega
    have h3 : ¬ a ≤ x := by omega
    simp [h1, h2, h3]
  · rcases Nat.lt_or_ge x (a + bs.length) with h2 | h2
    · have h3 : ¬ a + bs.length ≤ x := by omega
      have h4 : ¬ x < a := by omega
      simp [h1, h2, h3, h4]
    · have h4 : ¬ x < a := by omega
      have h5 : bs[x - a]? = none := List.getElem?_eq_none (by omega)
      have h6 : ¬ x < a + bs.length := by omega
      simp [h1, h2, h4, h5, h6]

theorem Memory.byte?_write_inside {m : Memory} {a i : Nat} {bs : List Byte} (h : i < bs.length) :
    (m.write a bs).byte? (a + i) = some bs[i] := by
  rw [Memory.byte?_write, if_pos (by omega)]
  simp [h]

theorem Memory.byte?_write_outside {m : Memory} {a x : Nat} {bs : List Byte}
    (h : x < a ∨ a + bs.length ≤ x) : (m.write a bs).byte? x = m.byte? x := by
  rw [Memory.byte?_write, if_neg (by omega)]

theorem cellsFrom_pairwise (a : Nat) (bs : List Byte) :
    (cellsFrom a bs).Pairwise (fun x y => x.1 < y.1) := by
  induction bs generalizing a with
  | nil => exact List.Pairwise.nil
  | cons b bs ih =>
    refine List.Pairwise.cons (fun c hc => ?_) (ih (a + 1))
    have := mem_cellsFrom hc
    show a < c.1
    omega

/-- Every store keeps the canonical form, if it stays inside the window's memories. -/
theorem Memory.wf_write {m : Memory} {a : Nat} {bs : List Byte} (hm : m.wf = true)
    (hs : ∀ i, i < bs.length → isStore (a + i) = true) : (m.write a bs).wf = true := by
  unfold Memory.wf at hm ⊢
  simp only [Bool.and_eq_true, decide_eq_true_eq, List.all_eq_true] at hm ⊢
  obtain ⟨hp, hall⟩ := hm
  constructor
  · unfold Memory.write
    rw [List.pairwise_append, List.pairwise_append]
    refine ⟨⟨hp.filter _, cellsFrom_pairwise a bs, ?_⟩, hp.filter _, ?_⟩
    · intro x hx y hy
      have := (List.mem_filter.1 hx).2
      have := mem_cellsFrom hy
      simp only [decide_eq_true_eq] at *
      omega
    · intro x hx y hy
      have hy' := (List.mem_filter.1 hy).2
      simp only [decide_eq_true_eq] at hy'
      rcases List.mem_append.1 hx with hx | hx
      · have := (List.mem_filter.1 hx).2
        simp only [decide_eq_true_eq] at this
        omega
      · have := mem_cellsFrom hx
        omega
  · intro c hc
    unfold Memory.write at hc
    rcases List.mem_append.1 hc with hc | hc
    · rcases List.mem_append.1 hc with hc | hc
      · exact hall c (List.mem_filter.1 hc).1
      · have h := mem_cellsFrom hc
        have := hs (c.1 - a) (by omega)
        rwa [Nat.add_sub_cancel' h.1] at this
    · exact hall c (List.mem_filter.1 hc).1

theorem Memory.wf_nil : Memory.wf [] = true := by decide

/-! ### Words -/

theorem wordBytes_length (w : Word) : (wordBytes w).length = 4 := rfl

theorem wordOfBytes_wordBytes (w : Word) :
    wordOfBytes (w.extractLsb' 0 8) (w.extractLsb' 8 8) (w.extractLsb' 16 8) (w.extractLsb' 24 8) = w := by
  unfold wordOfBytes
  ext i hi
  simp only [BitVec.getElem_append, BitVec.getElem_extractLsb']
  split
  · simp [BitVec.getLsbD_eq_getElem hi]
  · split
    · rw [← BitVec.getLsbD_eq_getElem hi]; congr 1; omega
    · split
      · rw [← BitVec.getLsbD_eq_getElem hi]; congr 1; omega
      · rw [← BitVec.getLsbD_eq_getElem hi]; congr 1; omega

/-- The word read at an offset depends on its four bytes alone. -/
theorem Memory.word?_congr {m m' : Memory} {a : Nat}
    (h : ∀ i, i < 4 → m.byte? (a + i) = m'.byte? (a + i)) : m.word? a = m'.word? a := by
  unfold Memory.word?
  have h0 := h 0 (by omega)
  rw [Nat.add_zero] at h0
  rw [h0, h 1 (by omega), h 2 (by omega), h 3 (by omega)]

theorem Memory.word?_write_same (m : Memory) (a : Nat) (w : Word) :
    (m.write a (wordBytes w)).word? a = some w := by
  have h (i : Nat) (hi : i < (wordBytes w).length) := Memory.byte?_write_inside (m := m) (a := a) hi
  have h0 := h 0 (by rw [wordBytes_length]; omega)
  have h1 := h 1 (by rw [wordBytes_length]; omega)
  have h2 := h 2 (by rw [wordBytes_length]; omega)
  have h3 := h 3 (by rw [wordBytes_length]; omega)
  rw [Nat.add_zero] at h0
  unfold Memory.word?
  rw [h0, h1, h2, h3]
  exact congrArg some (wordOfBytes_wordBytes w)

theorem flatMap_wordBytes_length (ws : List Word) : (ws.flatMap wordBytes).length = 4 * ws.length := by
  induction ws with
  | nil => rfl
  | cons w ws ih => simp [List.flatMap_cons, wordBytes_length, ih]; omega

theorem getElem?_flatMap_wordBytes (ws : List Word) (i k : Nat) (hk : k < 4) :
    (ws.flatMap wordBytes)[4 * i + k]? = (ws[i]?).bind (fun w => (wordBytes w)[k]?) := by
  induction ws generalizing i with
  | nil => simp
  | cons w ws ih =>
    rw [List.flatMap_cons]
    cases i with
    | zero =>
      rw [List.getElem?_append_left (by rw [wordBytes_length]; omega)]
      simp
    | succ i =>
      rw [List.getElem?_append_right (by rw [wordBytes_length]; omega), wordBytes_length]
      have : 4 * (i + 1) + k - 4 = 4 * i + k := by omega
      rw [this, ih]
      simp

/-- Word i of a run of words just stored. -/
theorem Memory.word?_write_words {m : Memory} {a : Nat} {ws : List Word} {i : Nat}
    (hi : i < ws.length) : (m.write a (ws.flatMap wordBytes)).word? (a + 4 * i) = some ws[i] := by
  have h (k : Nat) (hk : k < 4) :
      (m.write a (ws.flatMap wordBytes)).byte? (a + 4 * i + k) = (wordBytes ws[i])[k]? := by
    rw [Memory.byte?_write, if_pos (by rw [flatMap_wordBytes_length]; omega)]
    have : a + 4 * i + k - a = 4 * i + k := by omega
    rw [this, getElem?_flatMap_wordBytes _ _ _ hk]
    simp [hi]
  have h0 := h 0 (by omega)
  rw [Nat.add_zero] at h0
  unfold Memory.word?
  rw [h0, h 1 (by omega), h 2 (by omega), h 3 (by omega)]
  exact congrArg some (wordOfBytes_wordBytes ws[i])

/-! ### Collecting -/

theorem collect_eq_some {α : Type} {l : List (Option α)} {xs : List α} :
    collect l = some xs ↔ l = xs.map some := by
  induction l generalizing xs with
  | nil => cases xs <;> simp [collect]
  | cons o l ih =>
    cases o with
    | none => cases xs <;> simp [collect]
    | some x =>
      cases xs with
      | nil =>
        simp only [collect]
        split <;> simp
      | cons y ys =>
        simp only [collect, List.map_cons, List.cons.injEq, Option.some.injEq]
        constructor
        · split
          · rename_i zs hz
            intro h
            simp only [Option.some.injEq, List.cons.injEq] at h
            obtain ⟨rfl, rfl⟩ := h
            exact ⟨rfl, ih.1 hz⟩
          · intro h; simp at h
        · rintro ⟨rfl, h⟩
          rw [ih.2 h]

theorem collect_eq_none {α : Type} {l : List (Option α)} : collect l = none ↔ none ∈ l := by
  induction l with
  | nil => simp [collect]
  | cons o l ih =>
    cases o with
    | none => simp [collect]
    | some x =>
      simp only [collect, List.mem_cons, reduceCtorEq, false_or]
      rw [← ih]
      split <;> simp_all

/-! ### Banks and buffers -/

theorem bankAddr_eq (b : Bank) (i : Nat) : bankAddr b i = 0x4000 + 0x800 * b.toNat + 4 * i := rfl

theorem bankAddr_add (b : Bank) (i : Nat) : bankAddr b i = bankAddr b 0 + 4 * i := by
  simp [bankAddr_eq]

theorem isStore_bank (b : Bank) {i k : Nat} (hi : i < 512) (hk : k < 4) :
    isStore (bankAddr b i + k) = true := by
  have := b.isLt
  unfold isStore
  rw [bankAddr_eq]
  simp only [Bool.or_eq_true, Bool.and_eq_true, decide_eq_true_eq]
  omega

/-- Words 0..n-1 of a bank read as `ws` exactly when each of them does. -/
theorem State.readBank_eq_some {s : State} {b : Bank} {n : Nat} {ws : List Word} :
    s.readBank b n = some ws ↔ ws.length = n ∧ ∀ i, i < n → s.bankWord? b i = ws[i]? := by
  unfold State.readBank
  rw [collect_eq_some]
  constructor
  · intro h
    have hl : n = ws.length := by simpa using congrArg List.length h
    refine ⟨hl.symm, fun i hi => ?_⟩
    have := congrArg (fun l => l[i]?) h
    simp only [List.getElem?_map, List.getElem?_range hi, Option.map_some] at this
    rw [List.getElem?_eq_getElem (by omega)] at this ⊢
    simpa using this
  · rintro ⟨rfl, h⟩
    apply List.ext_getElem?
    intro i
    simp only [List.getElem?_map]
    by_cases hi : i < ws.length
    · rw [List.getElem?_range hi]
      simp only [Option.map_some]
      rw [h i hi, List.getElem?_eq_getElem hi]
      rfl
    · rw [List.getElem?_eq_none (by simpa using hi), List.getElem?_eq_none (by simpa using hi)]
      rfl

theorem State.readBank_eq_none {s : State} {b : Bank} {n : Nat} :
    s.readBank b n = none ↔ ∃ i, i < n ∧ s.bankWord? b i = none := by
  unfold State.readBank
  rw [collect_eq_none]
  simp [List.mem_map]

theorem State.bankWord?_writeBank {s : State} {b : Bank} {ws : List Word} {i : Nat}
    (hi : i < ws.length) : (s.writeBank b ws).bankWord? b i = some ws[i] := by
  unfold State.bankWord? State.writeBank
  rw [bankAddr_add]
  exact Memory.word?_write_words hi

/-- Storing words 0.. of a bank and reading them back. -/
theorem State.readBank_writeBank (s : State) (b : Bank) (ws : List Word) :
    (s.writeBank b ws).readBank b ws.length = some ws :=
  State.readBank_eq_some.2 ⟨rfl, fun i hi => by
    rw [State.bankWord?_writeBank hi, List.getElem?_eq_getElem hi]⟩

/-- A bank store leaves every byte outside the stored words alone. -/
theorem State.byte?_writeBank {s : State} {b : Bank} {ws : List Word} {x : Nat}
    (h : x < bankAddr b 0 ∨ bankAddr b 0 + 4 * ws.length ≤ x) :
    (s.writeBank b ws).mem.byte? x = s.mem.byte? x := by
  unfold State.writeBank
  exact Memory.byte?_write_outside (by rw [flatMap_wordBytes_length]; exact h)

/-- Reading a bank depends on memory alone. -/
theorem State.readBank_congr {s t : State} (h : s.mem = t.mem) (b : Bank) (n : Nat) :
    s.readBank b n = t.readBank b n := by
  unfold State.readBank State.bankWord?
  rw [h]

theorem State.wf_writeBank {s : State} {b : Bank} {ws : List Word} (hm : s.mem.wf = true)
    (hl : ws.length ≤ 512) : (s.writeBank b ws).mem.wf = true := by
  unfold State.writeBank
  refine Memory.wf_write hm fun i hi => ?_
  rw [flatMap_wordBytes_length] at hi
  have h := isStore_bank b (i := i / 4) (k := i % 4) (by omega) (by omega)
  rw [bankAddr_add] at h
  have : bankAddr b 0 + 4 * (i / 4) + i % 4 = bankAddr b 0 + i := by omega
  rwa [this] at h

/-- `CODE[0..n-1]` read as `bs` exactly when each of them does. -/
theorem State.readCode_eq_some {s : State} {n : Nat} {bs : List Byte} :
    s.readCode n = some bs ↔ bs.length = n ∧ ∀ j, j < n → s.code? j = bs[j]? := by
  unfold State.readCode
  rw [collect_eq_some]
  constructor
  · intro h
    have hl : n = bs.length := by simpa using congrArg List.length h
    refine ⟨hl.symm, fun i hi => ?_⟩
    have := congrArg (fun l => l[i]?) h
    simp only [List.getElem?_map, List.getElem?_range hi, Option.map_some] at this
    rw [List.getElem?_eq_getElem (by omega)] at this ⊢
    simpa using this
  · rintro ⟨rfl, h⟩
    apply List.ext_getElem?
    intro i
    simp only [List.getElem?_map]
    by_cases hi : i < bs.length
    · rw [List.getElem?_range hi]
      simp only [Option.map_some]
      rw [h i hi, List.getElem?_eq_getElem hi]
      rfl
    · rw [List.getElem?_eq_none (by simpa using hi), List.getElem?_eq_none (by simpa using hi)]
      rfl

theorem State.readCode_eq_none {s : State} {n : Nat} :
    s.readCode n = none ↔ ∃ j, j < n ∧ s.code? j = none := by
  unfold State.readCode
  rw [collect_eq_none]
  simp [List.mem_map]

end Sys2Proof.Machine
end

