-- ==== Sys2Proof/Laws/State.lean ====
section
/-! SUPPORT. For each update of the state, one lemma a field, true by rfl: what it holds afterwards. -/

namespace Sys2Proof.Machine

/-! ### The status register -/

@[simp] theorem Status.completed_busy (st : Status) : st.completed.busy = false := rfl
@[simp] theorem Status.completed_done (st : Status) : st.completed.done = true := rfl
@[simp] theorem Status.completed_err (st : Status) : st.completed.err = st.err := rfl
@[simp] theorem Status.completed_ovr (st : Status) : st.completed.ovr = st.ovr := rfl
@[simp] theorem Status.completed_errcode (st : Status) : st.completed.errcode = st.errcode := rfl
@[simp] theorem Status.failed_busy (st : Status) (e : ErrCode) : (st.failed e).busy = false := rfl
@[simp] theorem Status.failed_done (st : Status) (e : ErrCode) : (st.failed e).done = true := rfl
@[simp] theorem Status.failed_err (st : Status) (e : ErrCode) : (st.failed e).err = true := rfl
@[simp] theorem Status.failed_ovr (st : Status) (e : ErrCode) : (st.failed e).ovr = st.ovr := rfl
@[simp] theorem Status.failed_errcode (st : Status) (e : ErrCode) :
    (st.failed e).errcode = e.bits := rfl
@[simp] theorem Status.accepted_busy (st : Status) : st.accepted.busy = true := rfl
@[simp] theorem Status.accepted_done (st : Status) : st.accepted.done = false := rfl
@[simp] theorem Status.accepted_err (st : Status) : st.accepted.err = st.err := rfl
@[simp] theorem Status.accepted_ovr (st : Status) : st.accepted.ovr = st.ovr := rfl
@[simp] theorem Status.accepted_errcode (st : Status) : st.accepted.errcode = st.errcode := rfl
@[simp] theorem Status.overrun_busy (st : Status) : st.overrun.busy = st.busy := rfl
@[simp] theorem Status.overrun_done (st : Status) : st.overrun.done = st.done := rfl
@[simp] theorem Status.overrun_err (st : Status) : st.overrun.err = st.err := rfl
@[simp] theorem Status.overrun_ovr (st : Status) : st.overrun.ovr = true := rfl
@[simp] theorem Status.overrun_errcode (st : Status) : st.overrun.errcode = st.errcode := rfl

/-! ### The latched context -/

@[simp] theorem Latched.cleared_cmd (l : Latched) : l.cleared.cmd = l.cmd := rfl
@[simp] theorem Latched.cleared_kind (l : Latched) : l.cleared.kind = l.kind := rfl
@[simp] theorem Latched.cleared_slow (l : Latched) : l.cleared.slow = l.slow := rfl
@[simp] theorem Latched.cleared_a0 (l : Latched) : l.cleared.a0 = l.a0 := rfl
@[simp] theorem Latched.cleared_a1 (l : Latched) : l.cleared.a1 = l.a1 := rfl
@[simp] theorem Latched.cleared_dom (l : Latched) : l.cleared.dom = l.dom := rfl
@[simp] theorem Latched.cleared_seedstage (l : Latched) : l.cleared.seedstage = l.seedstage := rfl
@[simp] theorem Latched.cleared_drawn (l : Latched) : l.cleared.drawn = [] := rfl
@[simp] theorem Latched.cleared_pending (l : Latched) : l.cleared.pending = [] := rfl

/-! ### The machine -/

@[simp] theorem State.commit_ctrl (s : State) : s.commit.ctrl = s.ctrl := rfl
@[simp] theorem State.commit_status (s : State) : s.commit.status = s.status.completed := rfl
@[simp] theorem State.commit_cmd (s : State) : s.commit.cmd = s.cmd := rfl
@[simp] theorem State.commit_domain (s : State) : s.commit.domain = s.domain := rfl
@[simp] theorem State.commit_arg0 (s : State) : s.commit.arg0 = s.arg0 := rfl
@[simp] theorem State.commit_arg1 (s : State) : s.commit.arg1 = s.arg1 := rfl
@[simp] theorem State.commit_result0 (s : State) : s.commit.result0 = s.result0 := rfl
@[simp] theorem State.commit_result1 (s : State) : s.commit.result1 = s.result1 := rfl
@[simp] theorem State.commit_seeds (s : State) : s.commit.seeds = s.seeds := rfl
@[simp] theorem State.commit_mem (s : State) : s.commit.mem = s.mem := rfl
@[simp] theorem State.commit_ent (s : State) : s.commit.ent = s.ent := rfl
@[simp] theorem State.commit_run (s : State) : s.commit.run = s.run.cleared := rfl
@[simp] theorem State.commit_rst (s : State) : s.commit.rst = s.rst := rfl
@[simp] theorem State.commit_resp (s : State) : s.commit.resp = s.resp := rfl
@[simp] theorem State.commit_inbox (s : State) : s.commit.inbox = s.inbox := rfl
@[simp] theorem State.commit_turns (s : State) : s.commit.turns = s.turns := rfl
@[simp] theorem State.commit_freeIdx (s : State) : s.commit.freeIdx = s.freeIdx := rfl

@[simp] theorem State.fail_ctrl (s : State) (e : ErrCode) : (s.fail e).ctrl = s.ctrl := rfl
@[simp] theorem State.fail_status (s : State) (e : ErrCode) :
    (s.fail e).status = s.status.failed e := rfl
@[simp] theorem State.fail_cmd (s : State) (e : ErrCode) : (s.fail e).cmd = s.cmd := rfl
@[simp] theorem State.fail_domain (s : State) (e : ErrCode) : (s.fail e).domain = s.domain := rfl
@[simp] theorem State.fail_arg0 (s : State) (e : ErrCode) : (s.fail e).arg0 = s.arg0 := rfl
@[simp] theorem State.fail_arg1 (s : State) (e : ErrCode) : (s.fail e).arg1 = s.arg1 := rfl
@[simp] theorem State.fail_result0 (s : State) (e : ErrCode) : (s.fail e).result0 = s.result0 := rfl
@[simp] theorem State.fail_result1 (s : State) (e : ErrCode) : (s.fail e).result1 = s.result1 := rfl
@[simp] theorem State.fail_seeds (s : State) (e : ErrCode) : (s.fail e).seeds = s.seeds := rfl
@[simp] theorem State.fail_mem (s : State) (e : ErrCode) : (s.fail e).mem = s.mem := rfl
@[simp] theorem State.fail_ent (s : State) (e : ErrCode) : (s.fail e).ent = s.ent := rfl
@[simp] theorem State.fail_run (s : State) (e : ErrCode) : (s.fail e).run = s.run.cleared := rfl
@[simp] theorem State.fail_rst (s : State) (e : ErrCode) : (s.fail e).rst = s.rst := rfl
@[simp] theorem State.fail_resp (s : State) (e : ErrCode) : (s.fail e).resp = s.resp := rfl
@[simp] theorem State.fail_inbox (s : State) (e : ErrCode) : (s.fail e).inbox = s.inbox := rfl
@[simp] theorem State.fail_turns (s : State) (e : ErrCode) : (s.fail e).turns = s.turns := rfl
@[simp] theorem State.fail_freeIdx (s : State) (e : ErrCode) : (s.fail e).freeIdx = s.freeIdx := rfl

@[simp] theorem State.overrun_ctrl (s : State) : s.overrun.ctrl = s.ctrl := rfl
@[simp] theorem State.overrun_status (s : State) : s.overrun.status = s.status.overrun := rfl
@[simp] theorem State.overrun_cmd (s : State) : s.overrun.cmd = s.cmd := rfl
@[simp] theorem State.overrun_domain (s : State) : s.overrun.domain = s.domain := rfl
@[simp] theorem State.overrun_arg0 (s : State) : s.overrun.arg0 = s.arg0 := rfl
@[simp] theorem State.overrun_arg1 (s : State) : s.overrun.arg1 = s.arg1 := rfl
@[simp] theorem State.overrun_result0 (s : State) : s.overrun.result0 = s.result0 := rfl
@[simp] theorem State.overrun_result1 (s : State) : s.overrun.result1 = s.result1 := rfl
@[simp] theorem State.overrun_seeds (s : State) : s.overrun.seeds = s.seeds := rfl
@[simp] theorem State.overrun_mem (s : State) : s.overrun.mem = s.mem := rfl
@[simp] theorem State.overrun_ent (s : State) : s.overrun.ent = s.ent := rfl
@[simp] theorem State.overrun_run (s : State) : s.overrun.run = s.run := rfl
@[simp] theorem State.overrun_rst (s : State) : s.overrun.rst = s.rst := rfl
@[simp] theorem State.overrun_resp (s : State) : s.overrun.resp = s.resp := rfl
@[simp] theorem State.overrun_inbox (s : State) : s.overrun.inbox = s.inbox := rfl
@[simp] theorem State.overrun_turns (s : State) : s.overrun.turns = s.turns := rfl
@[simp] theorem State.overrun_freeIdx (s : State) : s.overrun.freeIdx = s.freeIdx := rfl

@[simp] theorem State.accept_ctrl (s : State) (w : Word) : (s.accept w).ctrl = s.ctrl := rfl
@[simp] theorem State.accept_status (s : State) (w : Word) :
    (s.accept w).status = s.status.accepted := rfl
@[simp] theorem State.accept_cmd (s : State) (w : Word) : (s.accept w).cmd = w := rfl
@[simp] theorem State.accept_domain (s : State) (w : Word) : (s.accept w).domain = s.domain := rfl
@[simp] theorem State.accept_arg0 (s : State) (w : Word) : (s.accept w).arg0 = s.arg0 := rfl
@[simp] theorem State.accept_arg1 (s : State) (w : Word) : (s.accept w).arg1 = s.arg1 := rfl
@[simp] theorem State.accept_result0 (s : State) (w : Word) :
    (s.accept w).result0 = s.result0 := rfl
@[simp] theorem State.accept_result1 (s : State) (w : Word) :
    (s.accept w).result1 = s.result1 := rfl
@[simp] theorem State.accept_seeds (s : State) (w : Word) : (s.accept w).seeds = s.seeds := rfl
@[simp] theorem State.accept_mem (s : State) (w : Word) : (s.accept w).mem = s.mem := rfl
@[simp] theorem State.accept_ent (s : State) (w : Word) : (s.accept w).ent = s.ent := rfl
@[simp] theorem State.accept_run (s : State) (w : Word) : (s.accept w).run = s.latch w := rfl
@[simp] theorem State.accept_rst (s : State) (w : Word) : (s.accept w).rst = s.rst := rfl
@[simp] theorem State.accept_resp (s : State) (w : Word) : (s.accept w).resp = s.resp := rfl
@[simp] theorem State.accept_inbox (s : State) (w : Word) : (s.accept w).inbox = s.inbox := rfl
@[simp] theorem State.accept_turns (s : State) (w : Word) : (s.accept w).turns = s.turns := rfl
@[simp] theorem State.accept_freeIdx (s : State) (w : Word) :
    (s.accept w).freeIdx = s.freeIdx := rfl

@[simp] theorem State.clearStatus_ctrl (s : State) (w : Word) :
    (s.clearStatus w).ctrl = s.ctrl := rfl
@[simp] theorem State.clearStatus_status (s : State) (w : Word) :
    (s.clearStatus w).status = s.status.writeClear w := rfl
@[simp] theorem State.clearStatus_cmd (s : State) (w : Word) : (s.clearStatus w).cmd = s.cmd := rfl
@[simp] theorem State.clearStatus_domain (s : State) (w : Word) :
    (s.clearStatus w).domain = s.domain := rfl
@[simp] theorem State.clearStatus_arg0 (s : State) (w : Word) :
    (s.clearStatus w).arg0 = s.arg0 := rfl
@[simp] theorem State.clearStatus_arg1 (s : State) (w : Word) :
    (s.clearStatus w).arg1 = s.arg1 := rfl
@[simp] theorem State.clearStatus_result0 (s : State) (w : Word) :
    (s.clearStatus w).result0 = s.result0 := rfl
@[simp] theorem State.clearStatus_result1 (s : State) (w : Word) :
    (s.clearStatus w).result1 = s.result1 := rfl
@[simp] theorem State.clearStatus_seeds (s : State) (w : Word) :
    (s.clearStatus w).seeds = s.seeds := rfl
@[simp] theorem State.clearStatus_mem (s : State) (w : Word) : (s.clearStatus w).mem = s.mem := rfl
@[simp] theorem State.clearStatus_ent (s : State) (w : Word) : (s.clearStatus w).ent = s.ent := rfl
@[simp] theorem State.clearStatus_run (s : State) (w : Word) : (s.clearStatus w).run = s.run := rfl
@[simp] theorem State.clearStatus_rst (s : State) (w : Word) : (s.clearStatus w).rst = s.rst := rfl
@[simp] theorem State.clearStatus_resp (s : State) (w : Word) :
    (s.clearStatus w).resp = s.resp := rfl
@[simp] theorem State.clearStatus_inbox (s : State) (w : Word) :
    (s.clearStatus w).inbox = s.inbox := rfl
@[simp] theorem State.clearStatus_turns (s : State) (w : Word) :
    (s.clearStatus w).turns = s.turns := rfl
@[simp] theorem State.clearStatus_freeIdx (s : State) (w : Word) :
    (s.clearStatus w).freeIdx = s.freeIdx := rfl

@[simp] theorem State.writeBank_ctrl (s : State) (b : Bank) (ws : List Word) :
    (s.writeBank b ws).ctrl = s.ctrl := rfl
@[simp] theorem State.writeBank_status (s : State) (b : Bank) (ws : List Word) :
    (s.writeBank b ws).status = s.status := rfl
@[simp] theorem State.writeBank_cmd (s : State) (b : Bank) (ws : List Word) :
    (s.writeBank b ws).cmd = s.cmd := rfl
@[simp] theorem State.writeBank_domain (s : State) (b : Bank) (ws : List Word) :
    (s.writeBank b ws).domain = s.domain := rfl
@[simp] theorem State.writeBank_arg0 (s : State) (b : Bank) (ws : List Word) :
    (s.writeBank b ws).arg0 = s.arg0 := rfl
@[simp] theorem State.writeBank_arg1 (s : State) (b : Bank) (ws : List Word) :
    (s.writeBank b ws).arg1 = s.arg1 := rfl
@[simp] theorem State.writeBank_result0 (s : State) (b : Bank) (ws : List Word) :
    (s.writeBank b ws).result0 = s.result0 := rfl
@[simp] theorem State.writeBank_result1 (s : State) (b : Bank) (ws : List Word) :
    (s.writeBank b ws).result1 = s.result1 := rfl
@[simp] theorem State.writeBank_seeds (s : State) (b : Bank) (ws : List Word) :
    (s.writeBank b ws).seeds = s.seeds := rfl
@[simp] theorem State.writeBank_mem (s : State) (b : Bank) (ws : List Word) :
    (s.writeBank b ws).mem = s.mem.write (bankAddr b 0) (ws.flatMap wordBytes) := rfl
@[simp] theorem State.writeBank_ent (s : State) (b : Bank) (ws : List Word) :
    (s.writeBank b ws).ent = s.ent := rfl
@[simp] theorem State.writeBank_run (s : State) (b : Bank) (ws : List Word) :
    (s.writeBank b ws).run = s.run := rfl
@[simp] theorem State.writeBank_rst (s : State) (b : Bank) (ws : List Word) :
    (s.writeBank b ws).rst = s.rst := rfl
@[simp] theorem State.writeBank_resp (s : State) (b : Bank) (ws : List Word) :
    (s.writeBank b ws).resp = s.resp := rfl
@[simp] theorem State.writeBank_inbox (s : State) (b : Bank) (ws : List Word) :
    (s.writeBank b ws).inbox = s.inbox := rfl
@[simp] theorem State.writeBank_turns (s : State) (b : Bank) (ws : List Word) :
    (s.writeBank b ws).turns = s.turns := rfl
@[simp] theorem State.writeBank_freeIdx (s : State) (b : Bank) (ws : List Word) :
    (s.writeBank b ws).freeIdx = s.freeIdx := rfl

@[simp] theorem State.commitBank_ctrl (s : State) (d : Bank) (ws : List Word) (t : Bool) :
    (s.commitBank d ws t).ctrl = s.ctrl := rfl
@[simp] theorem State.commitBank_status (s : State) (d : Bank) (ws : List Word) (t : Bool) :
    (s.commitBank d ws t).status = s.status.completed := rfl
@[simp] theorem State.commitBank_cmd (s : State) (d : Bank) (ws : List Word) (t : Bool) :
    (s.commitBank d ws t).cmd = s.cmd := rfl
@[simp] theorem State.commitBank_domain (s : State) (d : Bank) (ws : List Word) (t : Bool) :
    (s.commitBank d ws t).domain = setTag s.domain d t := rfl
@[simp] theorem State.commitBank_arg0 (s : State) (d : Bank) (ws : List Word) (t : Bool) :
    (s.commitBank d ws t).arg0 = s.arg0 := rfl
@[simp] theorem State.commitBank_arg1 (s : State) (d : Bank) (ws : List Word) (t : Bool) :
    (s.commitBank d ws t).arg1 = s.arg1 := rfl
@[simp] theorem State.commitBank_result0 (s : State) (d : Bank) (ws : List Word) (t : Bool) :
    (s.commitBank d ws t).result0 = s.result0 := rfl
@[simp] theorem State.commitBank_result1 (s : State) (d : Bank) (ws : List Word) (t : Bool) :
    (s.commitBank d ws t).result1 = s.result1 := rfl
@[simp] theorem State.commitBank_seeds (s : State) (d : Bank) (ws : List Word) (t : Bool) :
    (s.commitBank d ws t).seeds = s.seeds := rfl
@[simp] theorem State.commitBank_mem (s : State) (d : Bank) (ws : List Word) (t : Bool) :
    (s.commitBank d ws t).mem = (s.writeBank d ws).mem := rfl
@[simp] theorem State.commitBank_ent (s : State) (d : Bank) (ws : List Word) (t : Bool) :
    (s.commitBank d ws t).ent = s.ent := rfl
@[simp] theorem State.commitBank_run (s : State) (d : Bank) (ws : List Word) (t : Bool) :
    (s.commitBank d ws t).run = s.run.cleared := rfl
@[simp] theorem State.commitBank_rst (s : State) (d : Bank) (ws : List Word) (t : Bool) :
    (s.commitBank d ws t).rst = s.rst := rfl
@[simp] theorem State.commitBank_resp (s : State) (d : Bank) (ws : List Word) (t : Bool) :
    (s.commitBank d ws t).resp = s.resp := rfl
@[simp] theorem State.commitBank_inbox (s : State) (d : Bank) (ws : List Word) (t : Bool) :
    (s.commitBank d ws t).inbox = s.inbox := rfl
@[simp] theorem State.commitBank_turns (s : State) (d : Bank) (ws : List Word) (t : Bool) :
    (s.commitBank d ws t).turns = s.turns := rfl
@[simp] theorem State.commitBank_freeIdx (s : State) (d : Bank) (ws : List Word) (t : Bool) :
    (s.commitBank d ws t).freeIdx = s.freeIdx := rfl

@[simp] theorem State.commitResult_ctrl (s : State) (v : Word) :
    (s.commitResult v).ctrl = s.ctrl := rfl
@[simp] theorem State.commitResult_status (s : State) (v : Word) :
    (s.commitResult v).status = s.status.completed := rfl
@[simp] theorem State.commitResult_cmd (s : State) (v : Word) :
    (s.commitResult v).cmd = s.cmd := rfl
@[simp] theorem State.commitResult_domain (s : State) (v : Word) :
    (s.commitResult v).domain = s.domain := rfl
@[simp] theorem State.commitResult_arg0 (s : State) (v : Word) :
    (s.commitResult v).arg0 = s.arg0 := rfl
@[simp] theorem State.commitResult_arg1 (s : State) (v : Word) :
    (s.commitResult v).arg1 = s.arg1 := rfl
@[simp] theorem State.commitResult_result0 (s : State) (v : Word) :
    (s.commitResult v).result0 = v := rfl
@[simp] theorem State.commitResult_result1 (s : State) (v : Word) :
    (s.commitResult v).result1 = s.result1 := rfl
@[simp] theorem State.commitResult_seeds (s : State) (v : Word) :
    (s.commitResult v).seeds = s.seeds := rfl
@[simp] theorem State.commitResult_mem (s : State) (v : Word) :
    (s.commitResult v).mem = s.mem := rfl
@[simp] theorem State.commitResult_ent (s : State) (v : Word) :
    (s.commitResult v).ent = s.ent := rfl
@[simp] theorem State.commitResult_run (s : State) (v : Word) :
    (s.commitResult v).run = s.run.cleared := rfl
@[simp] theorem State.commitResult_rst (s : State) (v : Word) :
    (s.commitResult v).rst = s.rst := rfl
@[simp] theorem State.commitResult_resp (s : State) (v : Word) :
    (s.commitResult v).resp = s.resp := rfl
@[simp] theorem State.commitResult_inbox (s : State) (v : Word) :
    (s.commitResult v).inbox = s.inbox := rfl
@[simp] theorem State.commitResult_turns (s : State) (v : Word) :
    (s.commitResult v).turns = s.turns := rfl
@[simp] theorem State.commitResult_freeIdx (s : State) (v : Word) :
    (s.commitResult v).freeIdx = s.freeIdx := rfl

@[simp] theorem State.commitResults_ctrl (s : State) (lo hi : Word) :
    (s.commitResults lo hi).ctrl = s.ctrl := rfl
@[simp] theorem State.commitResults_status (s : State) (lo hi : Word) :
    (s.commitResults lo hi).status = s.status.completed := rfl
@[simp] theorem State.commitResults_cmd (s : State) (lo hi : Word) :
    (s.commitResults lo hi).cmd = s.cmd := rfl
@[simp] theorem State.commitResults_domain (s : State) (lo hi : Word) :
    (s.commitResults lo hi).domain = s.domain := rfl
@[simp] theorem State.commitResults_arg0 (s : State) (lo hi : Word) :
    (s.commitResults lo hi).arg0 = s.arg0 := rfl
@[simp] theorem State.commitResults_arg1 (s : State) (lo hi : Word) :
    (s.commitResults lo hi).arg1 = s.arg1 := rfl
@[simp] theorem State.commitResults_result0 (s : State) (lo hi : Word) :
    (s.commitResults lo hi).result0 = lo := rfl
@[simp] theorem State.commitResults_result1 (s : State) (lo hi : Word) :
    (s.commitResults lo hi).result1 = hi := rfl
@[simp] theorem State.commitResults_seeds (s : State) (lo hi : Word) :
    (s.commitResults lo hi).seeds = s.seeds := rfl
@[simp] theorem State.commitResults_mem (s : State) (lo hi : Word) :
    (s.commitResults lo hi).mem = s.mem := rfl
@[simp] theorem State.commitResults_ent (s : State) (lo hi : Word) :
    (s.commitResults lo hi).ent = s.ent := rfl
@[simp] theorem State.commitResults_run (s : State) (lo hi : Word) :
    (s.commitResults lo hi).run = s.run.cleared := rfl
@[simp] theorem State.commitResults_rst (s : State) (lo hi : Word) :
    (s.commitResults lo hi).rst = s.rst := rfl
@[simp] theorem State.commitResults_resp (s : State) (lo hi : Word) :
    (s.commitResults lo hi).resp = s.resp := rfl
@[simp] theorem State.commitResults_inbox (s : State) (lo hi : Word) :
    (s.commitResults lo hi).inbox = s.inbox := rfl
@[simp] theorem State.commitResults_turns (s : State) (lo hi : Word) :
    (s.commitResults lo hi).turns = s.turns := rfl
@[simp] theorem State.commitResults_freeIdx (s : State) (lo hi : Word) :
    (s.commitResults lo hi).freeIdx = s.freeIdx := rfl

@[simp] theorem State.commitSym_ctrl (s : State) (bs : List Byte) :
    (s.commitSym bs).ctrl = s.ctrl := rfl
@[simp] theorem State.commitSym_status (s : State) (bs : List Byte) :
    (s.commitSym bs).status = s.status.completed := rfl
@[simp] theorem State.commitSym_cmd (s : State) (bs : List Byte) :
    (s.commitSym bs).cmd = s.cmd := rfl
@[simp] theorem State.commitSym_domain (s : State) (bs : List Byte) :
    (s.commitSym bs).domain = s.domain := rfl
@[simp] theorem State.commitSym_arg0 (s : State) (bs : List Byte) :
    (s.commitSym bs).arg0 = s.arg0 := rfl
@[simp] theorem State.commitSym_arg1 (s : State) (bs : List Byte) :
    (s.commitSym bs).arg1 = s.arg1 := rfl
@[simp] theorem State.commitSym_result0 (s : State) (bs : List Byte) :
    (s.commitSym bs).result0 = s.result0 := rfl
@[simp] theorem State.commitSym_result1 (s : State) (bs : List Byte) :
    (s.commitSym bs).result1 = s.result1 := rfl
@[simp] theorem State.commitSym_seeds (s : State) (bs : List Byte) :
    (s.commitSym bs).seeds = s.seeds := rfl
@[simp] theorem State.commitSym_mem (s : State) (bs : List Byte) :
    (s.commitSym bs).mem = s.mem.write symBase bs := rfl
@[simp] theorem State.commitSym_ent (s : State) (bs : List Byte) :
    (s.commitSym bs).ent = s.ent := rfl
@[simp] theorem State.commitSym_run (s : State) (bs : List Byte) :
    (s.commitSym bs).run = s.run.cleared := rfl
@[simp] theorem State.commitSym_rst (s : State) (bs : List Byte) :
    (s.commitSym bs).rst = s.rst := rfl
@[simp] theorem State.commitSym_resp (s : State) (bs : List Byte) :
    (s.commitSym bs).resp = s.resp := rfl
@[simp] theorem State.commitSym_inbox (s : State) (bs : List Byte) :
    (s.commitSym bs).inbox = s.inbox := rfl
@[simp] theorem State.commitSym_turns (s : State) (bs : List Byte) :
    (s.commitSym bs).turns = s.turns := rfl
@[simp] theorem State.commitSym_freeIdx (s : State) (bs : List Byte) :
    (s.commitSym bs).freeIdx = s.freeIdx := rfl

@[simp] theorem State.commitCode_ctrl (s : State) (bs : List Byte) (len : Word) :
    (s.commitCode bs len).ctrl = s.ctrl := rfl
@[simp] theorem State.commitCode_status (s : State) (bs : List Byte) (len : Word) :
    (s.commitCode bs len).status = s.status.completed := rfl
@[simp] theorem State.commitCode_cmd (s : State) (bs : List Byte) (len : Word) :
    (s.commitCode bs len).cmd = s.cmd := rfl
@[simp] theorem State.commitCode_domain (s : State) (bs : List Byte) (len : Word) :
    (s.commitCode bs len).domain = s.domain := rfl
@[simp] theorem State.commitCode_arg0 (s : State) (bs : List Byte) (len : Word) :
    (s.commitCode bs len).arg0 = s.arg0 := rfl
@[simp] theorem State.commitCode_arg1 (s : State) (bs : List Byte) (len : Word) :
    (s.commitCode bs len).arg1 = s.arg1 := rfl
@[simp] theorem State.commitCode_result0 (s : State) (bs : List Byte) (len : Word) :
    (s.commitCode bs len).result0 = len := rfl
@[simp] theorem State.commitCode_result1 (s : State) (bs : List Byte) (len : Word) :
    (s.commitCode bs len).result1 = s.result1 := rfl
@[simp] theorem State.commitCode_seeds (s : State) (bs : List Byte) (len : Word) :
    (s.commitCode bs len).seeds = s.seeds := rfl
@[simp] theorem State.commitCode_mem (s : State) (bs : List Byte) (len : Word) :
    (s.commitCode bs len).mem = s.mem.write codeBase bs := rfl
@[simp] theorem State.commitCode_ent (s : State) (bs : List Byte) (len : Word) :
    (s.commitCode bs len).ent = s.ent := rfl
@[simp] theorem State.commitCode_run (s : State) (bs : List Byte) (len : Word) :
    (s.commitCode bs len).run = s.run.cleared := rfl
@[simp] theorem State.commitCode_rst (s : State) (bs : List Byte) (len : Word) :
    (s.commitCode bs len).rst = s.rst := rfl
@[simp] theorem State.commitCode_resp (s : State) (bs : List Byte) (len : Word) :
    (s.commitCode bs len).resp = s.resp := rfl
@[simp] theorem State.commitCode_inbox (s : State) (bs : List Byte) (len : Word) :
    (s.commitCode bs len).inbox = s.inbox := rfl
@[simp] theorem State.commitCode_turns (s : State) (bs : List Byte) (len : Word) :
    (s.commitCode bs len).turns = s.turns := rfl
@[simp] theorem State.commitCode_freeIdx (s : State) (bs : List Byte) (len : Word) :
    (s.commitCode bs len).freeIdx = s.freeIdx := rfl

@[simp] theorem State.draw_ctrl (s : State) (r : DrawReq) : (s.draw r).ctrl = s.ctrl := rfl
@[simp] theorem State.draw_status (s : State) (r : DrawReq) : (s.draw r).status = s.status := rfl
@[simp] theorem State.draw_cmd (s : State) (r : DrawReq) : (s.draw r).cmd = s.cmd := rfl
@[simp] theorem State.draw_domain (s : State) (r : DrawReq) : (s.draw r).domain = s.domain := rfl
@[simp] theorem State.draw_arg0 (s : State) (r : DrawReq) : (s.draw r).arg0 = s.arg0 := rfl
@[simp] theorem State.draw_arg1 (s : State) (r : DrawReq) : (s.draw r).arg1 = s.arg1 := rfl
@[simp] theorem State.draw_result0 (s : State) (r : DrawReq) : (s.draw r).result0 = s.result0 := rfl
@[simp] theorem State.draw_result1 (s : State) (r : DrawReq) : (s.draw r).result1 = s.result1 := rfl
@[simp] theorem State.draw_seeds (s : State) (r : DrawReq) : (s.draw r).seeds = s.seeds := rfl
@[simp] theorem State.draw_mem (s : State) (r : DrawReq) : (s.draw r).mem = s.mem := rfl
@[simp] theorem State.draw_ent (s : State) (r : DrawReq) :
    (s.draw r).ent = (s.ent.draw Config.pool s.run.slow r).2 := rfl
@[simp] theorem State.draw_run (s : State) (r : DrawReq) :
    (s.draw r).run = { s.run with drawn := s.run.drawn ++ [(s.ent.draw Config.pool s.run.slow r).1] } := rfl
@[simp] theorem State.draw_rst (s : State) (r : DrawReq) : (s.draw r).rst = s.rst := rfl
@[simp] theorem State.draw_resp (s : State) (r : DrawReq) : (s.draw r).resp = s.resp := rfl
@[simp] theorem State.draw_inbox (s : State) (r : DrawReq) : (s.draw r).inbox = s.inbox := rfl
@[simp] theorem State.draw_turns (s : State) (r : DrawReq) : (s.draw r).turns = s.turns := rfl
@[simp] theorem State.draw_freeIdx (s : State) (r : DrawReq) : (s.draw r).freeIdx = s.freeIdx := rfl

@[simp] theorem State.answer_ctrl (s : State) (w : Word) : (s.answer w).ctrl = s.ctrl := rfl
@[simp] theorem State.answer_status (s : State) (w : Word) : (s.answer w).status = s.status := rfl
@[simp] theorem State.answer_cmd (s : State) (w : Word) : (s.answer w).cmd = s.cmd := rfl
@[simp] theorem State.answer_domain (s : State) (w : Word) : (s.answer w).domain = s.domain := rfl
@[simp] theorem State.answer_arg0 (s : State) (w : Word) : (s.answer w).arg0 = s.arg0 := rfl
@[simp] theorem State.answer_arg1 (s : State) (w : Word) : (s.answer w).arg1 = s.arg1 := rfl
@[simp] theorem State.answer_result0 (s : State) (w : Word) :
    (s.answer w).result0 = s.result0 := rfl
@[simp] theorem State.answer_result1 (s : State) (w : Word) :
    (s.answer w).result1 = s.result1 := rfl
@[simp] theorem State.answer_seeds (s : State) (w : Word) : (s.answer w).seeds = s.seeds := rfl
@[simp] theorem State.answer_mem (s : State) (w : Word) : (s.answer w).mem = s.mem := rfl
@[simp] theorem State.answer_ent (s : State) (w : Word) : (s.answer w).ent = s.ent := rfl
@[simp] theorem State.answer_run (s : State) (w : Word) : (s.answer w).run = s.run := rfl
@[simp] theorem State.answer_rst (s : State) (w : Word) : (s.answer w).rst = s.rst := rfl
@[simp] theorem State.answer_resp (s : State) (w : Word) : (s.answer w).resp = .readData w := rfl
@[simp] theorem State.answer_inbox (s : State) (w : Word) : (s.answer w).inbox = s.inbox := rfl
@[simp] theorem State.answer_turns (s : State) (w : Word) : (s.answer w).turns = s.turns := rfl
@[simp] theorem State.answer_freeIdx (s : State) (w : Word) :
    (s.answer w).freeIdx = s.freeIdx := rfl

@[simp] theorem State.answerFree_ctrl (s : State) : s.answerFree.ctrl = s.ctrl := rfl
@[simp] theorem State.answerFree_status (s : State) : s.answerFree.status = s.status := rfl
@[simp] theorem State.answerFree_cmd (s : State) : s.answerFree.cmd = s.cmd := rfl
@[simp] theorem State.answerFree_domain (s : State) : s.answerFree.domain = s.domain := rfl
@[simp] theorem State.answerFree_arg0 (s : State) : s.answerFree.arg0 = s.arg0 := rfl
@[simp] theorem State.answerFree_arg1 (s : State) : s.answerFree.arg1 = s.arg1 := rfl
@[simp] theorem State.answerFree_result0 (s : State) : s.answerFree.result0 = s.result0 := rfl
@[simp] theorem State.answerFree_result1 (s : State) : s.answerFree.result1 = s.result1 := rfl
@[simp] theorem State.answerFree_seeds (s : State) : s.answerFree.seeds = s.seeds := rfl
@[simp] theorem State.answerFree_mem (s : State) : s.answerFree.mem = s.mem := rfl
@[simp] theorem State.answerFree_ent (s : State) : s.answerFree.ent = s.ent := rfl
@[simp] theorem State.answerFree_run (s : State) : s.answerFree.run = s.run := rfl
@[simp] theorem State.answerFree_rst (s : State) : s.answerFree.rst = s.rst := rfl
@[simp] theorem State.answerFree_resp (s : State) :
    s.answerFree.resp = .readData (Config.freeValue s.freeIdx) := rfl
@[simp] theorem State.answerFree_inbox (s : State) : s.answerFree.inbox = s.inbox := rfl
@[simp] theorem State.answerFree_turns (s : State) : s.answerFree.turns = s.turns := rfl
@[simp] theorem State.answerFree_freeIdx (s : State) : s.answerFree.freeIdx = s.freeIdx + 1 := rfl

end Sys2Proof.Machine
end

