-- ==== Sys2Proof/Laws/Bus.lean ====
section
/-! SUPPORT. What one host action can answer. -/

namespace Sys2Proof.Machine

/-- Everything a host access can do: stop on a bus error or an unwritten read, or go on with the stored
effect, an answer, or a free answer. -/
theorem busAccess_cases (r : BusReq) (s : State) :
    (r.target = none ∧ busAccess r s = .fault .busError) ∨
    ∃ t, r.target = some t ∧
      ((r.write = true ∧ busAccess r s = .next { s.busStore t r.wdata with resp := .writeDone }) ∨
       (r.write = false ∧ t.engineOwned = true ∧ s.status.busy = true ∧
          busAccess r s = .next s.answerFree) ∨
       (r.write = false ∧ ∃ w, busAccess r s = .next (s.answer w)) ∨
       (r.write = false ∧ ∃ a, t = .store a ∧ s.mem.word? a = none ∧
          busAccess r s = .fault .unwrittenRead)) := by
  unfold busAccess
  split
  · exact .inl ⟨‹_›, rfl⟩
  · rename_i t ht
    refine .inr ⟨t, ht, ?_⟩
    cases hw : r.write with
    | true => exact .inl ⟨rfl, rfl⟩
    | false =>
      refine .inr ?_
      simp only [Bool.false_eq_true, if_false, true_and, busRead]
      split
      · rename_i hb
        rw [Bool.and_eq_true] at hb
        exact .inl ⟨hb.1, hb.2, rfl⟩
      · refine .inr ?_
        cases t with
        | store a =>
          cases hm : s.mem.word? a with
          | some w => exact .inl ⟨w, by simp [hm]⟩
          | none => exact .inr ⟨a, rfl, hm, by simp [hm]⟩
        | _ => exact .inl ⟨_, rfl⟩

/-- A store to a memory word of the window stays inside the window's memories (R82). -/
theorem targetAt_store {a b : Nat} (h : targetAt a = some (.store b)) :
    b = a ∧ isStore a = true := by
  unfold targetAt at h
  split at h
  · split at h <;> cases h
  · split at h
    · cases h
    · split at h
      · rename_i hs
        cases h
        exact ⟨rfl, hs⟩
      · cases h

theorem isStore_word {a i : Nat} (h : isStore a = true) (ha : a % 4 = 0) (hi : i < 4) :
    isStore (a + i) = true := by
  unfold isStore at h ⊢
  simp only [Bool.or_eq_true, Bool.and_eq_true, decide_eq_true_eq] at h ⊢
  omega

theorem BusReq.target_some {r : BusReq} {t : Target} (h : r.target = some t) :
    r.size = .word ∧ r.addr.toNat % 4 = 0 ∧ targetAt r.addr.toNat = some t := by
  unfold BusReq.target at h
  split at h
  · rename_i hc
    exact ⟨hc.1, hc.2, h⟩
  · cases h

end Sys2Proof.Machine
end

