-- ==== Sys2Proof/Laws/Decode.lean ====
section
/-! SUPPORT. The fields of an assembled command word (30_encoding.md R111). -/

namespace Sys2Proof

/-- Each field of an assembled word is the one put in, and the reserved fields are 0. -/
theorem fieldsOf_assemble (op : BitVec 8) (d a b : Bank) :
    fieldsOf (assemble op d a b) = { op := op, d := d, z0 := 0, a := a, z1 := 0, b := b, z2 := 0 } := by
  unfold fieldsOf assemble
  congr 1 <;>
  · ext i hi
    simp only [BitVec.getElem_extractLsb', BitVec.getLsbD_or, BitVec.getLsbD_setWidth,
      BitVec.getLsbD_shiftLeft]
    interval_cases i <;> simp [BitVec.getLsbD_of_ge, BitVec.getLsbD_eq_getElem]

end Sys2Proof
end

