-- ==== Sys2Proof/Laws/Entropy.lean ====
section
/-! SUPPORT. What a draw does to the entropy unit: it keeps the unit well-formed, and it moves the seed
by nothing or by one refill. -/

namespace Sys2Proof.Machine

/-- A draw a command of the block can ask for: `RandomBits(k)` with 1 ≤ k ≤ 32 (41_entropy.md R170). -/
def DrawReq.legal : DrawReq → Prop
  | .bits k => 1 ≤ k ∧ k ≤ 32
  | _ => True

theorem blockBytes_length (h : Vector Byte 64 → Vector Byte 64) (n : Nat) (x : Seed) :
    (blockBytes h n x).length = 64 * n := by
  induction n generalizing x with
  | zero => rfl
  | succ n ih => simp [blockBytes, ih]; omega

/-- Byte i of a refill is byte i mod 64 of block i / 64 (R162, R163). -/
theorem getElem?_blockBytes (h : Vector Byte 64 → Vector Byte 64) (n : Nat) (x : Seed) (i : Nat)
    (hi : i < 64 * n) :
    (blockBytes h n x)[i]? = (h (seedBytes (x + BitVec.ofNat 512 (i / 64)))).toList[i % 64]? := by
  induction n generalizing x i with
  | zero => omega
  | succ n ih =>
    rw [blockBytes]
    by_cases h' : i < 64
    · rw [List.getElem?_append_left (by simpa using h'), Nat.div_eq_of_lt h', Nat.mod_eq_of_lt h']
      simp
    · rw [List.getElem?_append_right (by simp; omega)]
      have hl : (h (seedBytes x)).toList.length = 64 := by simp
      rw [hl, ih (x + 1) (i - 64) (by omega)]
      have h1 : i / 64 = (i - 64) / 64 + 1 := by omega
      have h2 : (i - 64) % 64 = i % 64 := by omega
      have h3 : x + 1 + BitVec.ofNat 512 ((i - 64) / 64) = x + BitVec.ofNat 512 (i / 64) := by
        rw [h1, BitVec.ofNat_add, BitVec.add_assoc, BitVec.add_comm (1 : Seed),
          BitVec.ofNat_eq_ofNat (i := 1)]
      rw [h2, h3]

section
variable (p : PoolParams) (e : Entropy)

theorem Entropy.fillBytes_cases : e.fillBytes p = e ∧ e.bpos ≠ 64 * p.blocks ∨
    e.bpos = 64 * p.blocks ∧
      e.fillBytes p = { e with BP := refillBytes p e, S := refillSeed p e, bpos := 0 } := by
  unfold Entropy.fillBytes
  split <;> simp_all

theorem Entropy.fillHalves_cases : e.fillHalves p = e ∧ e.hpos ≠ 32 * p.blocks ∨
    e.hpos = 32 * p.blocks ∧
      e.fillHalves p = { e with HP := (List.range (32 * p.blocks)).map (halfAt (refillBytes p e)),
                                S := refillSeed p e, hpos := 0 } := by
  unfold Entropy.fillHalves
  split <;> simp_all

theorem Entropy.fillDWords_cases : e.fillDWords p = e ∧ e.wpos ≠ 8 * p.blocks ∨
    e.wpos = 8 * p.blocks ∧
      e.fillDWords p = { e with WP := (List.range (8 * p.blocks)).map (dwordAt (refillBytes p e)),
                                S := refillSeed p e, wpos := 0 } := by
  unfold Entropy.fillDWords
  split <;> simp_all

variable {p e}

theorem Entropy.wf_randomByte (hb : 1 ≤ p.blocks) (h : e.wf p) : (e.randomByte p).2.wf p := by
  obtain ⟨h1, h2, h3, h4⟩ := h
  unfold Entropy.randomByte
  rcases Entropy.fillBytes_cases p e with ⟨hf, hn⟩ | ⟨_, hf⟩ <;> simp only [hf]
  · refine ⟨?_, h2, h3, h4⟩
    have := h1.resolve_left hn
    simp only
    omega
  · have hl : (refillBytes p e).length = 64 * p.blocks := blockBytes_length _ _ _
    refine ⟨.inr ⟨?_, hl⟩, h2, h3, h4⟩
    show 0 + 1 < 64 * p.blocks
    omega

theorem Entropy.wf_random16 (hb : 1 ≤ p.blocks) (h : e.wf p) : (e.random16 p).2.wf p := by
  obtain ⟨h1, h2, h3, h4⟩ := h
  unfold Entropy.random16
  rcases Entropy.fillHalves_cases p e with ⟨hf, hn⟩ | ⟨_, hf⟩ <;> simp only [hf]
  · refine ⟨h1, ?_, h3, h4⟩
    have := h2.resolve_left hn
    simp only
    omega
  · refine ⟨h1, .inr ⟨?_, by simp⟩, h3, h4⟩
    show 0 + 1 < 32 * p.blocks
    omega

theorem Entropy.wf_random64 (hb : 1 ≤ p.blocks) (h : e.wf p) : (e.random64 p).2.wf p := by
  obtain ⟨h1, h2, h3, h4⟩ := h
  unfold Entropy.random64
  rcases Entropy.fillDWords_cases p e with ⟨hf, hn⟩ | ⟨_, hf⟩ <;> simp only [hf]
  · refine ⟨h1, h2, ?_, h4⟩
    have := h3.resolve_left hn
    simp only
    omega
  · refine ⟨h1, h2, .inr ⟨?_, by simp⟩, h4⟩
    show 0 + 1 < 8 * p.blocks
    omega

theorem Entropy.wf_fillBits (hb : 1 ≤ p.blocks) (h : e.wf p) : (e.fillBits p).wf p := by
  obtain ⟨h1, h2, h3, _⟩ := Entropy.wf_random64 hb h
  exact ⟨h1, h2, h3, Nat.le_refl 64⟩

theorem Entropy.wf_takeBits (h : e.wf p) (w : DWord) (n : Nat) :
    Entropy.wf p { e with bitbuf := w, bitavail := e.bitavail - n } := by
  obtain ⟨h1, h2, h3, h4⟩ := h
  exact ⟨h1, h2, h3, by simp only; omega⟩

theorem Entropy.wf_randomBit (hb : 1 ≤ p.blocks) (h : e.wf p) : (e.randomBit p).2.wf p := by
  unfold Entropy.randomBit
  by_cases h0 : e.bitavail = 0
  · simp only [h0, if_true]
    exact Entropy.wf_takeBits (Entropy.wf_fillBits hb h) _ 1
  · simp only [h0, if_false]
    exact Entropy.wf_takeBits h _ 1

theorem Entropy.wf_bitsFast (hb : 1 ≤ p.blocks) (h : e.wf p) (k : Nat) :
    (e.bitsFast p k).2.wf p := by
  unfold Entropy.bitsFast
  by_cases h0 : e.bitavail < k
  · simp only [h0, if_true]
    exact Entropy.wf_takeBits (Entropy.wf_fillBits hb h) _ k
  · simp only [h0, if_false]
    exact Entropy.wf_takeBits h _ k

theorem Entropy.wf_bitsSlow (hb : 1 ≤ p.blocks) (k : Nat) (v : Word) {e : Entropy} (h : e.wf p) :
    (e.bitsSlow p k v).2.wf p := by
  induction k generalizing v e with
  | zero => exact h
  | succ k ih => exact ih _ (Entropy.wf_randomBit hb h)

/-- Every draw keeps the entropy unit well-formed. -/
theorem Entropy.wf_draw (hb : 1 ≤ p.blocks) (h : e.wf p) (slow : Bool) (r : DrawReq) :
    (e.draw p slow r).2.wf p := by
  cases r with
  | bit => exact Entropy.wf_randomBit hb h
  | byte => exact Entropy.wf_randomByte hb h
  | r16 => exact Entropy.wf_random16 hb h
  | r64 => exact Entropy.wf_random64 hb h
  | bits k =>
    simp only [Entropy.draw, Entropy.randomBits]
    split
    · exact h
    · split
      · exact Entropy.wf_bitsSlow hb k 0 h
      · exact Entropy.wf_bitsFast hb h k

theorem Entropy.wf_load (x : Seed) : (e.load p x).wf p :=
  ⟨.inl rfl, .inl rfl, .inl rfl, Nat.zero_le 64⟩

theorem Entropy.wf_reset : Entropy.reset.wf Config.pool :=
  ⟨.inl rfl, .inl rfl, .inl rfl, Nat.zero_le 64⟩

/-! ### The seed -/

/-- The seed stands or has moved by one refill (R163). -/
def Entropy.seedMoved (p : PoolParams) (e e' : Entropy) : Prop :=
  e'.S = e.S ∨ e'.S = refillSeed p e

theorem Entropy.seed_random64 : e.seedMoved p (e.random64 p).2 := by
  unfold Entropy.random64 Entropy.seedMoved
  rcases Entropy.fillDWords_cases p e with ⟨hf, _⟩ | ⟨_, hf⟩ <;> simp [hf]

theorem Entropy.seed_randomBit : e.seedMoved p (e.randomBit p).2 := by
  unfold Entropy.randomBit
  by_cases h0 : e.bitavail = 0
  · simp only [h0, if_true]
    exact Entropy.seed_random64
  · simp only [h0, if_false]
    exact .inl rfl

theorem Entropy.bitavail_randomBit :
    (e.randomBit p).2.bitavail = (if e.bitavail = 0 then 64 else e.bitavail) - 1 := by
  unfold Entropy.randomBit
  by_cases h0 : e.bitavail = 0 <;> simp [h0, Entropy.fillBits]

/-- With enough bits there, slow mode does not touch the seed. -/
theorem Entropy.seed_bitsSlow_enough (k : Nat) (v : Word) {e : Entropy} (h : k ≤ e.bitavail) :
    (e.bitsSlow p k v).2.S = e.S := by
  induction k generalizing v e with
  | zero => rfl
  | succ k ih =>
    have h0 : e.bitavail ≠ 0 := by omega
    have hb := Entropy.bitavail_randomBit (p := p) (e := e)
    rw [if_neg h0] at hb
    have hs : (e.randomBit p).2.S = e.S := by simp [Entropy.randomBit, h0]
    rw [← hs]
    exact ih _ (by omega)

theorem Entropy.seed_bitsSlow (k : Nat) (v : Word) {e : Entropy} (h : k ≤ 32) :
    e.seedMoved p (e.bitsSlow p k v).2 := by
  induction k generalizing v e with
  | zero => exact .inl rfl
  | succ k ih =>
    have hb := Entropy.bitavail_randomBit (p := p) (e := e)
    by_cases h0 : e.bitavail = 0
    · rw [if_pos h0] at hb
      have : (e.bitsSlow p (k + 1) v).2.S = (e.randomBit p).2.S :=
        Entropy.seed_bitsSlow_enough k _ (by omega)
      unfold Entropy.seedMoved
      rw [this]
      exact Entropy.seed_randomBit
    · have hs : (e.randomBit p).2.S = e.S := by simp [Entropy.randomBit, h0]
      have := ih ((v <<< 1) ||| (flagBit (e.randomBit p).1).setWidth 32) (e := (e.randomBit p).2)
        (by omega)
      unfold Entropy.seedMoved refillSeed at this ⊢
      rw [hs] at this
      exact this

/-- A draw moves the seed by nothing or by one refill (R163). -/
theorem Entropy.seed_draw (slow : Bool) {r : DrawReq} (h : r.legal) :
    e.seedMoved p (e.draw p slow r).2 := by
  cases r with
  | bit => exact Entropy.seed_randomBit
  | byte =>
    unfold Entropy.draw Entropy.randomByte Entropy.seedMoved
    rcases Entropy.fillBytes_cases p e with ⟨hf, _⟩ | ⟨_, hf⟩ <;> simp [hf]
  | r16 =>
    unfold Entropy.draw Entropy.random16 Entropy.seedMoved
    rcases Entropy.fillHalves_cases p e with ⟨hf, _⟩ | ⟨_, hf⟩ <;> simp [hf]
  | r64 => exact Entropy.seed_random64
  | bits k =>
    simp only [Entropy.draw, Entropy.randomBits]
    split
    · exact .inl rfl
    · split
      · exact Entropy.seed_bitsSlow k 0 h.2
      · unfold Entropy.bitsFast
        by_cases h0 : e.bitavail < k
        · simp only [h0, if_true]
          exact Entropy.seed_random64
        · simp only [h0, if_false]
          exact .inl rfl

end

end Sys2Proof.Machine
end

