-- ==== Sys2Proof/Laws/Huffman.lean ====
section
/-! SUPPORT. Sizes of what the codec writes (44_huffman.md R302), and the codebook's constraints. -/

namespace Sys2Proof.Machine

/-- The configured codebook meets its constraints, whatever stands for the OPEN parameter (R301). -/
theorem HUFF_valid (k : Kind) : codebookValid (Config.HUFF k) = true := by
  unfold Config.HUFF
  split
  · assumption
  · rfl

@[simp] theorem codec_book (k : Kind) : (Config.codec k).book = Config.HUFF k := rfl
@[simp] theorem codec_lmax (k : Kind) : (Config.codec k).lmax = Config.LMAX k := rfl
@[simp] theorem codec_n (k : Kind) : (Config.codec k).n = Config.N k := rfl

/-- Each entry of a valid codebook meets its own bounds (R301). -/
theorem codebookValid_entry {book : List CodeEntry} (h : codebookValid book = true) {e : CodeEntry}
    (he : e ∈ book) : 1 ≤ e.len ∧ e.len ≤ 32 ∧ e.value < 2 ^ e.len := by
  induction book with
  | nil => cases he
  | cons f rest ih =>
    simp only [codebookValid, Bool.and_eq_true] at h
    rcases List.mem_cons.1 he with rfl | he
    · have hv := h.1.1
      simp only [CodeEntry.valid, Bool.and_eq_true, decide_eq_true_eq] at hv
      exact ⟨hv.1.1, hv.1.2, hv.2⟩
    · exact ih h.2 he

theorem encodeFrom_len {book : List CodeEntry} {lmax : Nat} {rd : Nat → Option Byte}
    {left j a len a' len' : Nat} (h : encodeFrom book lmax rd left j a len = .stream a' len')
    (hl : len ≤ lmax) : len' ≤ lmax := by
  induction left generalizing j a len with
  | zero => cases h; exact hl
  | succ left ih =>
    rw [encodeFrom] at h
    split at h
    · cases h
    · split at h
      · cases h
      · split at h
        · cases h
        · exact ih h (by omega)

/-- An encoding ends only in the two errors R310 names. -/
theorem encodeFrom_failed {book : List CodeEntry} {lmax : Nat} {rd : Nat → Option Byte}
    {left j a len : Nat} {e : ErrCode} (h : encodeFrom book lmax rd left j a len = .failed e) :
    e = .symbol ∨ e = .overflow := by
  induction left generalizing j a len with
  | zero => cases h
  | succ left ih =>
    rw [encodeFrom] at h
    split at h
    · cases h
    · split at h
      · cases h; exact .inl rfl
      · split at h
        · cases h; exact .inr rfl
        · exact ih h

@[simp] theorem streamOf_length (a len : Nat) : (streamOf a len).length = streamBytes len := by
  simp [streamOf]

theorem streamBytes_le {len : Nat} (h : len ≤ 4095) : streamBytes len ≤ 512 := by
  unfold streamBytes
  omega

theorem decodeBits_length {book : List CodeEntry} {bits : List Bool} {left v l : Nat}
    {out res : List Byte} (h : decodeBits book bits left v l out = some res) :
    res.length = out.length + left := by
  induction bits generalizing left v l out with
  | nil =>
    rw [decodeBits] at h
    split at h
    · cases h; omega
    · cases h
  | cons b bits ih =>
    cases left with
    | zero => cases h
    | succ left =>
      rw [decodeBits] at h
      split at h
      · split at h
        · have := ih h
          rw [List.length_append, List.length_singleton] at this
          omega
        · cases h
      · split at h
        · exact ih h
        · cases h

end Sys2Proof.Machine
end

