-- ==== Sys2Proof/Laws/Ntt.lean ====
section
/-! SUPPORT. Sizes and ranges of the NTT's values (42_ntt.md R200, R208), and the ring each kind has. -/

namespace Sys2Proof.Machine

theorem ring_q (k : Kind) : (Config.ring k).q = Config.Q k := rfl
theorem ring_n (k : Kind) : (Config.ring k).n = Config.N k := rfl
theorem ring_psi (k : Kind) : (Config.ring k).psi = Config.PSI k := rfl

theorem ringPair_cases (i : Nat) : Config.ringPair i = (256, 7681) ∨ Config.ringPair i = (256, 12289) ∨
    Config.ringPair i = (512, 12289) := by
  unfold Config.ringPair
  split <;> simp

/-- The rings a kind can have (00_scope.md R11). -/
theorem shape_cases (k : Kind) : Config.shape k = (256, 7681) ∨ Config.shape k = (256, 12289) ∨
    Config.shape k = (512, 12289) := by
  unfold Config.shape
  split
  · exact .inr (.inr rfl)
  · split <;> exact ringPair_cases _
  · exact ringPair_cases _

/-- Some kind has the ring of q = 7681, whatever stands for the OPEN parameter (R11). -/
theorem shape_small : ∃ k, Config.shape k = (256, 7681) := by
  have hk {k : Kind} (h : (Config.shapeRaw k % 3 == 0) = true) :
      Config.ringPair (Config.shapeRaw k % 3) = (256, 7681) := by
    rw [beq_iff_eq.1 h]; rfl
  cases h : Config.smallElsewhere with
  | false => exact ⟨.b0, by simp only [Config.shape, h]; rfl⟩
  | true =>
    obtain ⟨k, hm, h⟩ := List.any_eq_true.1 h
    simp only [List.mem_cons, List.not_mem_nil, or_false] at hm
    exact ⟨k, by rcases hm with rfl | rfl | rfl <;> exact hk h⟩

/-- Both sizes and both moduli occur among the kinds (00_scope.md R11). -/
theorem sizes_and_moduli_occur : (∃ k, Config.N k = 256) ∧ (∃ k, Config.N k = 512) ∧
    (∃ k, Config.Q k = 7681) ∧ ∃ k, Config.Q k = 12289 := by
  obtain ⟨k, h⟩ := shape_small
  exact ⟨⟨k, congrArg Prod.fst h⟩, ⟨.b1, rfl⟩, ⟨k, congrArg Prod.snd h⟩, .b1, rfl⟩

theorem ring_cases (k : Kind) : (Config.N k = 256 ∧ Config.Q k = 7681) ∨
    (Config.N k = 256 ∧ Config.Q k = 12289) ∨ (Config.N k = 512 ∧ Config.Q k = 12289) := by
  unfold Config.N Config.Q
  rcases shape_cases k with h | h | h <;> simp [h]

theorem N_cases (k : Kind) : Config.N k = 256 ∨ Config.N k = 512 := by
  rcases ring_cases k with h | h | h
  · exact .inl h.1
  · exact .inl h.1
  · exact .inr h.1

theorem N_le (k : Kind) : Config.N k ≤ 512 := by rcases N_cases k with h | h <;> omega
theorem N_ge (k : Kind) : 256 ≤ Config.N k := by rcases N_cases k with h | h <;> omega
theorem N_pos (k : Kind) : 0 < Config.N k := Nat.lt_of_lt_of_le (by omega) (N_ge k)
theorem Q_ge (k : Kind) : 7681 ≤ Config.Q k := by rcases ring_cases k with h | h | h <;> omega
theorem Q_le (k : Kind) : Config.Q k ≤ 12289 := by rcases ring_cases k with h | h | h <;> omega
theorem Q_pos (k : Kind) : 1 < Config.Q k := Nat.lt_of_lt_of_le (by omega) (Q_ge k)
theorem Q_lt (k : Kind) : Config.Q k < 2 ^ 31 := Nat.lt_of_le_of_lt (Q_le k) (by omega)

/-- Every configured modulus is prime (00_scope.md R11). -/
theorem Q_prime (k : Kind) : Nat.Prime (Config.Q k) := by
  rcases ring_cases k with h | h | h <;> rw [h.2] <;> norm_num

theorem NBITS_eq (k : Kind) : 2 ^ Config.NBITS k = Config.N k := by
  unfold Config.NBITS
  rcases N_cases k with h | h <;> rw [h] <;> decide +kernel

theorem LMAX_eq (k : Kind) : Config.LMAX k = 8 * Config.N k - 1 := by
  unfold Config.LMAX
  rw [Nat.pow_add, NBITS_eq, Nat.mul_comm]

theorem LMAX_le (k : Kind) : Config.LMAX k ≤ 4095 := by
  have := N_le k
  rw [LMAX_eq]
  omega

/-- The configured root meets its constraint, whatever stands for the OPEN parameters (R201). -/
theorem ring_rootValid (k : Kind) : (Config.ring k).rootValid = true := by
  unfold Config.ring Config.PSI
  by_cases h : (RingParams.mk (Config.Q k) (Config.N k) (Config.psiRaw k)).rootValid = true
  · rw [if_pos h]; exact h
  · rw [if_neg h, Config.psiSpare]
    rcases ring_cases k with h | h | h <;> rw [h.1, h.2] <;> decide +kernel

theorem psi_bounds (k : Kind) : 1 ≤ Config.PSI k ∧ Config.PSI k < Config.Q k := by
  have h := ring_rootValid k
  unfold RingParams.rootValid at h
  simp only [Bool.and_eq_true, decide_eq_true_eq] at h
  exact h.1

/-- `ψ^n ≡ q - 1 (mod q)` (R201). -/
theorem psi_pow (k : Kind) : Config.PSI k ^ Config.N k % Config.Q k = Config.Q k - 1 := by
  have h := ring_rootValid k
  unfold RingParams.rootValid at h
  simp only [Bool.and_eq_true, decide_eq_true_eq] at h
  exact h.2

theorem mulq_lt {q : Nat} (h : 0 < q) (a b : Nat) : mulq q a b < q := Nat.mod_lt _ h
theorem powq_lt {q : Nat} (h : 0 < q) (a e : Nat) : powq q a e < q := Nat.mod_lt _ h
theorem addq_lt {q : Nat} (h : 0 < q) (a b : Nat) : addq q a b < q := Nat.mod_lt _ h

theorem subq_lt {q : Nat} (h : 0 < q) (a b : Nat) : subq q a b < q := by
  unfold subq
  have h1 := Int.emod_nonneg ((a : Int) - b) (b := (q : Int)) (by omega)
  have h2 := Int.emod_lt_of_pos ((a : Int) - b) (b := (q : Int)) (by omega)
  omega

@[simp] theorem xmu_length (q : Nat) (v : List Nat) (t : Nat → Nat) :
    (xmu q v t).length = v.length := by
  simp [xmu]

@[simp] theorem fft_length (r : RingParams) (v : List Nat) : (fft r v).length = r.n := by
  simp [fft]

@[simp] theorem flip_length (r : RingParams) (v : List Nat) : (flip r v).length = r.n := by
  simp [flip]

@[simp] theorem forward_length (r : RingParams) (v : List Nat) : (forward r v).length = r.n := by
  simp [forward]

@[simp] theorem inverse_length (r : RingParams) (v : List Nat) : (inverse r v).length = r.n := by
  simp [inverse]

@[simp] theorem pointwise_length (q : Nat) (a b : List Nat) :
    (pointwise q a b).length = min a.length b.length := by
  simp [pointwise]

theorem xmu_getElem? (q : Nat) (v : List Nat) (t : Nat → Nat) (i : Nat) :
    (xmu q v t)[i]? = v[i]?.map fun c => mulq q c (t i) := by
  simp [xmu]

theorem fft_getElem? {r : RingParams} (v : List Nat) {k : Nat} (h : k < r.n) :
    (fft r v)[k]? = some (fftCoeff r v k) := by
  simp [fft, h]

theorem flip_getElem? {r : RingParams} (v : List Nat) {i : Nat} (h : i < r.n) :
    (flip r v)[i]? =
      some (if i = 0 then (r.q - v.getD 0 0) % r.q else v.getD (r.n - i) 0) := by
  simp [flip, h]

theorem fft_lt {r : RingParams} (h : 0 < r.q) {v : List Nat} {c : Nat} (hc : c ∈ fft r v) :
    c < r.q := by
  unfold fft at hc
  obtain ⟨k, _, rfl⟩ := List.mem_map.1 hc
  exact Nat.mod_lt _ h

theorem forward_lt {r : RingParams} (h : 0 < r.q) {v : List Nat} {c : Nat}
    (hc : c ∈ forward r v) : c < r.q := fft_lt h hc

theorem xmu_lt {q : Nat} (h : 0 < q) {v : List Nat} {t : Nat → Nat} {c : Nat}
    (hc : c ∈ xmu q v t) : c < q := by
  unfold xmu at hc
  obtain ⟨i, _, rfl⟩ := List.mem_mapIdx.1 hc
  exact mulq_lt h _ _

theorem inverse_lt {r : RingParams} (h : 0 < r.q) {v : List Nat} {c : Nat}
    (hc : c ∈ inverse r v) : c < r.q := by
  unfold inverse flip at hc
  obtain ⟨i, _, rfl⟩ := List.mem_map.1 hc
  have key (j : Nat) : (xmu r.q (fft r v) (twiddleR r)).getD j 0 < r.q := by
    by_cases hj : j < (xmu r.q (fft r v) (twiddleR r)).length
    · rw [List.getD_eq_getElem _ _ hj]
      exact xmu_lt h (List.getElem_mem hj)
    · rw [List.getD_eq_default _ _ (by omega)]
      exact h
  split
  · exact Nat.mod_lt _ h
  · exact key _

/-- A coefficient below a modulus of the block survives its trip through a bank word (R206). -/
theorem toNat_coeffWord {c : Nat} (h : c < 2 ^ 31) : (coeffWord c).toNat = c := by
  unfold coeffWord
  rw [BitVec.toNat_ofNat]
  omega

theorem toInt_coeffWord {c : Nat} (h : c < 2 ^ 31) : (coeffWord c).toInt = c := by
  rw [BitVec.toInt_eq_toNat_of_lt (by rw [toNat_coeffWord h]; omega), toNat_coeffWord h]

theorem inRange_coeffWord {q c : Nat} (hq : q ≤ 2 ^ 31) (h : c < q) :
    inRange q (coeffWord c) = true := by
  unfold inRange
  rw [toInt_coeffWord (by omega)]
  simp only [Bool.and_eq_true, decide_eq_true_eq]
  omega

theorem inRange_iff {q : Nat} {w : Word} (hq : q ≤ 2 ^ 31) :
    inRange q w = true ↔ w.toNat < q := by
  unfold inRange
  simp only [Bool.and_eq_true, decide_eq_true_eq]
  rw [BitVec.toInt_eq_toNat_cond]
  have := w.isLt
  split <;> omega

end Sys2Proof.Machine
end

