-- ==== Sys2Proof/Laws/Sampler.lean ====
section
/-! SUPPORT. What the sampler's procedures do with their draws: which draws they ask for, that they use
up a beginning of what they are given, and that the loops' bounds never end them. -/

namespace Sys2Proof.Machine

/-! ### The combinators -/

@[simp] theorem Sampler.ret_apply {α : Type} (v : α) (ds : List DWord) :
    Sampler.ret v ds = .done v ds := rfl

theorem Sampler.andThen_done {α β : Type} {m : Sampler α} {f : α → Sampler β} {ds rest : List DWord}
    {v : α} (h : m ds = .done v rest) : m.andThen f ds = f v rest := by
  simp [Sampler.andThen, h]

theorem Sampler.andThen_need {α β : Type} {m : Sampler α} {f : α → Sampler β} {ds : List DWord}
    {r : DrawReq} (h : m ds = .need r) : m.andThen f ds = .need r := by
  simp [Sampler.andThen, h]

/-- Everything a sequence of two procedures can do. -/
theorem Sampler.andThen_cases {α β : Type} (m : Sampler α) (f : α → Sampler β) (ds : List DWord) :
    (∃ r, m ds = .need r ∧ m.andThen f ds = .need r) ∨
      ∃ v rest, m ds = .done v rest ∧ m.andThen f ds = f v rest := by
  cases h : m ds with
  | need r => exact .inl ⟨r, rfl, Sampler.andThen_need h⟩
  | done v rest => exact .inr ⟨v, rest, rfl, Sampler.andThen_done h⟩

/-! ### Which draws are asked for -/

/-- Every draw the procedure asks for is legal. -/
def Sampler.asksLegal {α : Type} (m : Sampler α) : Prop := ∀ ds r, m ds = .need r → r.legal

theorem Sampler.asksLegal_ret {α : Type} (v : α) : (Sampler.ret v).asksLegal := by
  intro ds r h
  cases h

theorem Sampler.asksLegal_andThen {α β : Type} {m : Sampler α} {f : α → Sampler β}
    (hm : m.asksLegal) (hf : ∀ v, (f v).asksLegal) : (m.andThen f).asksLegal := by
  intro ds r h
  rcases Sampler.andThen_cases m f ds with ⟨r', h1, h2⟩ | ⟨v, rest, _, h2⟩
  · rw [h2] at h
    cases h
    exact hm ds r h1
  · rw [h2] at h
    exact hf v rest r h

theorem asksLegal_drawBit : Sampler.asksLegal drawBit := by
  intro ds r h
  cases ds <;> cases h
  trivial

theorem asksLegal_drawByte : Sampler.asksLegal drawByte := by
  intro ds r h
  cases ds <;> cases h
  trivial

theorem asksLegal_draw16 : Sampler.asksLegal draw16 := by
  intro ds r h
  cases ds <;> cases h
  trivial

theorem asksLegal_draw64 : Sampler.asksLegal draw64 := by
  intro ds r h
  cases ds <;> cases h
  trivial

theorem asksLegal_drawBits {k : Nat} (hk : k ≤ 32) : (drawBits k).asksLegal := by
  intro ds r h
  unfold drawBits at h
  split at h
  · cases h
  · split at h <;> cases h
    exact ⟨by omega, hk⟩

theorem asksLegal_bernoulliFrom (c : SamplerParams) (i left j : Nat) :
    (bernoulliFrom c i left j).asksLegal := by
  induction left generalizing j with
  | zero => exact Sampler.asksLegal_ret true
  | succ left ih =>
    refine Sampler.asksLegal_andThen asksLegal_drawByte fun u => ?_
    split
    · exact Sampler.asksLegal_ret true
    · split
      · exact Sampler.asksLegal_ret false
      · exact ih (j + 1)

theorem asksLegal_bernoulliRows (c : SamplerParams) (x : Word) (n : Nat) :
    (bernoulliRows c x n).asksLegal := by
  induction n with
  | zero => exact Sampler.asksLegal_ret true
  | succ n ih =>
    rw [bernoulliRows]
    split
    · refine Sampler.asksLegal_andThen (asksLegal_bernoulliFrom c n c.cols 0) fun b => ?_
      split
      · exact ih
      · exact Sampler.asksLegal_ret false
    · exact ih

theorem asksLegal_bernoulliExp (c : SamplerParams) (x : Word) : (bernoulliExp c x).asksLegal :=
  asksLegal_bernoulliRows c x 32

theorem asksLegal_coshLoop (c : SamplerParams) (xx : Word) (f : Nat) :
    (coshLoop c xx f).asksLegal := by
  induction f with
  | zero => intro ds r h; cases h; trivial
  | succ f ih =>
    refine Sampler.asksLegal_andThen (asksLegal_bernoulliExp c xx) fun p => ?_
    split
    · exact Sampler.asksLegal_ret true
    · refine Sampler.asksLegal_andThen asksLegal_drawBit fun b => ?_
      split
      · exact ih
      · refine Sampler.asksLegal_andThen (asksLegal_bernoulliExp c xx) fun p' => ?_
        split
        · exact ih
        · exact Sampler.asksLegal_ret false

theorem asksLegal_bernoulliCosh (c : SamplerParams) (x : Word) : (bernoulliCosh c x).asksLegal :=
  fun ds => asksLegal_coshLoop c (coshArg x) (ds.length + 1) ds

theorem asksLegal_posGroups (left i : Nat) (h : left + i ≤ 17) : (posGroups left i).asksLegal := by
  induction left generalizing i with
  | zero => exact Sampler.asksLegal_ret _
  | succ left ih =>
    refine Sampler.asksLegal_andThen (asksLegal_drawBits (by omega)) fun u => ?_
    split
    · exact Sampler.asksLegal_ret _
    · split
      · exact ih (i + 1) (by omega)
      · exact Sampler.asksLegal_ret _

theorem asksLegal_posLoop (f : Nat) : (posLoop f).asksLegal := by
  induction f with
  | zero => intro ds r h; cases h; trivial
  | succ f ih =>
    refine Sampler.asksLegal_andThen asksLegal_drawBit fun b => ?_
    split
    · refine Sampler.asksLegal_andThen (asksLegal_posGroups _ 1 (by decide)) fun o => ?_
      split
      · exact Sampler.asksLegal_ret _
      · exact ih
    · exact Sampler.asksLegal_ret _

theorem asksLegal_positiveBinary : Sampler.asksLegal positiveBinary :=
  fun ds => asksLegal_posLoop (ds.length + 1) ds

theorem asksLegal_residue {c : SamplerParams} (hc : 1 ≤ c.ksigma ∧ c.ksigmaBits ≤ 32) :
    (residue c).asksLegal := by
  have key (f : Nat) (ds : List DWord) (r : DrawReq) (hf : 1 ≤ f)
      (h : residueLoop c f ds = .need r) : r.legal := by
    induction f generalizing ds with
    | zero => omega
    | succ f ih =>
      rcases Sampler.andThen_cases (drawBits c.ksigmaBits)
        (fun y => if y.toNat < c.ksigma then Sampler.ret y.toNat else residueLoop c f) ds with
        ⟨r', h1, h2⟩ | ⟨v, rest, h1, h2⟩
      · rw [residueLoop, h2] at h
        cases h
        exact asksLegal_drawBits hc.2 ds r h1
      · rw [residueLoop, h2] at h
        split at h
        · cases h
        · rename_i hv
          by_cases h0 : c.ksigmaBits = 0
          · simp only [drawBits, h0, if_true, Sampled.done.injEq] at h1
            obtain ⟨rfl, _⟩ := h1
            exact absurd hc.1 (by simpa using hv)
          · cases f with
            | zero => cases h; exact ⟨by omega, hc.2⟩
            | succ f => exact ih rest (by omega) h
  exact fun ds r h => key (ds.length + 1) ds r (by omega) h

theorem asksLegal_gaussLoop {c : SamplerParams} (hc : 1 ≤ c.ksigma ∧ c.ksigmaBits ≤ 32) (f : Nat) :
    (gaussLoop c f).asksLegal := by
  induction f with
  | zero => intro ds r h; cases h; trivial
  | succ f ih =>
    refine Sampler.asksLegal_andThen asksLegal_positiveBinary fun x => ?_
    refine Sampler.asksLegal_andThen (asksLegal_residue hc) fun y => ?_
    refine Sampler.asksLegal_andThen (asksLegal_bernoulliExp c _) fun ok => ?_
    split
    · refine Sampler.asksLegal_andThen asksLegal_drawBit fun u => ?_
      by_cases hz : c.ksigma * x + y = 0 ∧ u = false
      · simpa only [if_pos hz] using ih
      · simpa only [if_neg hz] using Sampler.asksLegal_ret _
    · exact ih

theorem asksLegal_gauss {c : SamplerParams} (hc : 1 ≤ c.ksigma ∧ c.ksigmaBits ≤ 32) :
    (gauss c).asksLegal :=
  fun ds => asksLegal_gaussLoop hc (ds.length + 1) ds

/-- The configured sampler meets its bounds (00_scope.md R11). -/
theorem sampler_bounds (k : Kind) :
    1 ≤ (Config.sampler k).ksigma ∧ (Config.sampler k).ksigmaBits ≤ 32 := by
  constructor
  · exact Nat.succ_le_succ (Nat.zero_le _)
  · show Config.ksigmaBitsRaw k % 33 ≤ 32
    omega

/-! ### How much is used up, and the loops' bounds -/

/-- The procedure leaves at most as many draws as it is given. -/
def Sampler.shrinks {α : Type} (m : Sampler α) : Prop :=
  ∀ ds v rest, m ds = .done v rest → rest.length ≤ ds.length

theorem Sampler.shrinks_ret {α : Type} (v : α) : (Sampler.ret v).shrinks := by
  intro ds w rest h
  cases h
  exact Nat.le_refl _

theorem Sampler.shrinks_andThen {α β : Type} {m : Sampler α} {f : α → Sampler β}
    (hm : m.shrinks) (hf : ∀ v, (f v).shrinks) : (m.andThen f).shrinks := by
  intro ds w rest h
  rcases Sampler.andThen_cases m f ds with ⟨r', _, h2⟩ | ⟨v, rest', h1, h2⟩
  · rw [h2] at h; cases h
  · rw [h2] at h
    exact Nat.le_trans (hf v _ _ _ h) (hm _ _ _ h1)

theorem shrinks_drawByte : Sampler.shrinks drawByte := by
  intro ds v rest h
  cases ds <;> cases h
  simp

theorem drawBit_done {ds rest : List DWord} {v : Bool} (h : drawBit ds = .done v rest) :
    ds.length = rest.length + 1 := by
  cases ds <;> cases h
  rfl

theorem shrinks_drawBit : Sampler.shrinks drawBit := fun ds v rest h => by
  have := drawBit_done h
  omega

theorem shrinks_drawBits (k : Nat) : (drawBits k).shrinks := by
  intro ds v rest h
  unfold drawBits at h
  split at h
  · cases h; exact Nat.le_refl _
  · split at h <;> cases h
    simp

theorem shrinks_bernoulliFrom (c : SamplerParams) (i left j : Nat) :
    (bernoulliFrom c i left j).shrinks := by
  induction left generalizing j with
  | zero => exact Sampler.shrinks_ret true
  | succ left ih =>
    refine Sampler.shrinks_andThen shrinks_drawByte fun u => ?_
    split
    · exact Sampler.shrinks_ret true
    · split
      · exact Sampler.shrinks_ret false
      · exact ih (j + 1)

theorem shrinks_bernoulliExp (c : SamplerParams) (x : Word) : (bernoulliExp c x).shrinks := by
  unfold bernoulliExp
  induction 32 with
  | zero => exact Sampler.shrinks_ret true
  | succ n ih =>
    rw [bernoulliRows]
    split
    · refine Sampler.shrinks_andThen (shrinks_bernoulliFrom c n c.cols 0) fun b => ?_
      split
      · exact ih
      · exact Sampler.shrinks_ret false
    · exact ih

theorem shrinks_posGroups (left i : Nat) : (posGroups left i).shrinks := by
  induction left generalizing i with
  | zero => exact Sampler.shrinks_ret _
  | succ left ih =>
    refine Sampler.shrinks_andThen (shrinks_drawBits _) fun u => ?_
    split
    · exact Sampler.shrinks_ret _
    · split
      · exact ih (i + 1)
      · exact Sampler.shrinks_ret _

theorem Sampler.andThen_congr {α β : Type} {m : Sampler α} {f g : α → Sampler β} {ds : List DWord}
    (h : ∀ v rest, m ds = .done v rest → f v rest = g v rest) : m.andThen f ds = m.andThen g ds := by
  unfold Sampler.andThen
  split
  · rfl
  · exact h _ _ ‹_›

/-- `PositiveBinary`'s loop with any bound above the number of draws is the procedure. -/
theorem posLoop_bound (f f' : Nat) (ds : List DWord) (h : ds.length < f) (h' : ds.length < f') :
    posLoop f ds = posLoop f' ds := by
  induction f generalizing f' ds with
  | zero => omega
  | succ f ih =>
    obtain ⟨f', rfl⟩ : ∃ n, f' = n + 1 := ⟨f' - 1, by omega⟩
    refine Sampler.andThen_congr fun b rest h1 => ?_
    have hl := drawBit_done h1
    cases b with
    | false => rfl
    | true =>
      simp only [if_true]
      refine Sampler.andThen_congr fun o rest' h2 => ?_
      have := shrinks_posGroups _ _ _ _ _ h2
      cases o with
      | some v => rfl
      | none => exact ih f' rest' (by omega) (by omega)

/-- `BernoulliCosh`'s loop with any bound above the number of draws is the procedure. -/
theorem coshLoop_bound (c : SamplerParams) (xx : Word) (f f' : Nat) (ds : List DWord)
    (h : ds.length < f) (h' : ds.length < f') : coshLoop c xx f ds = coshLoop c xx f' ds := by
  induction f generalizing f' ds with
  | zero => omega
  | succ f ih =>
    obtain ⟨f', rfl⟩ : ∃ n, f' = n + 1 := ⟨f' - 1, by omega⟩
    refine Sampler.andThen_congr fun p rest h1 => ?_
    have := shrinks_bernoulliExp _ _ _ _ _ h1
    split
    · rfl
    · refine Sampler.andThen_congr fun b rest' h2 => ?_
      have := drawBit_done h2
      split
      · exact ih f' rest' (by omega) (by omega)
      · refine Sampler.andThen_congr fun p' rest'' h3 => ?_
        have := shrinks_bernoulliExp _ _ _ _ _ h3
        split
        · exact ih f' rest'' (by omega) (by omega)
        · rfl

/-- The residue's loop with any bound above the number of draws is the procedure. -/
theorem residueLoop_bound {c : SamplerParams} (hc : 1 ≤ c.ksigma) (f f' : Nat) (ds : List DWord)
    (h : ds.length < f) (h' : ds.length < f') : residueLoop c f ds = residueLoop c f' ds := by
  induction f generalizing f' ds with
  | zero => omega
  | succ f ih =>
    obtain ⟨f', rfl⟩ : ∃ n, f' = n + 1 := ⟨f' - 1, by omega⟩
    refine Sampler.andThen_congr fun y rest h1 => ?_
    split
    · rfl
    · rename_i hy
      unfold drawBits at h1
      split at h1
      · simp only [Sampled.done.injEq] at h1
        obtain ⟨rfl, _⟩ := h1
        exact absurd hc (by simpa using hy)
      · split at h1
        · cases h1
        · cases h1
          simp only [List.length_cons] at h h'
          exact ih f' rest (by omega) (by omega)

end Sys2Proof.Machine
end

