-- ==== Sys2Proof/Laws/Exec.lean ====
section
/-! SUPPORT. Once and for all, what one engine step can answer: the operand forms, and then every
command. Claims about all commands are case analyses over `EngineStep`. -/

namespace Sys2Proof.Machine

/-! ### The operand forms -/

theorem withKind_some {s : State} {k : Kind} (h : kindOf s.run.kind = some k) (body : Kind → Result) :
    withKind s body = body k := by
  simp [withKind, h]

theorem withKind_none {s : State} (h : kindOf s.run.kind = none) (body : Kind → Result) :
    withKind s body = .next (s.fail .kind) := by
  simp [withKind, h]

theorem withArg_legal {s : State} {ok : Bool} (h : ok = true) (body : Result) :
    withArg s ok body = body := by
  simp [withArg, h]

theorem withTag_right {s : State} {b : Bank} {tag : Bool} (h : tagOf s.run.dom b = tag)
    (body : Result) : withTag s b tag body = body := by
  simp [withTag, h]

theorem withWords_some {s : State} {b : Bank} {n : Nat} {ws : List Word}
    (h : s.readBank b n = some ws) (body : List Word → Result) : withWords s b n body = body ws := by
  simp [withWords, h]

theorem withCoeffs_some {s : State} {b : Bank} {r : RingParams} {ws : List Word}
    (h : s.readBank b r.n = some ws) (hr : ws.all (inRange r.q) = true) (body : List Nat → Result) :
    withCoeffs s b r body = body (ws.map BitVec.toNat) := by
  unfold withCoeffs
  rw [withWords_some h, if_pos hr]

theorem withKind_next {s t : State} {body : Kind → Result} (h : withKind s body = .next t) :
    (∃ k, kindOf s.run.kind = some k ∧ body k = .next t) ∨
      kindOf s.run.kind = none ∧ t = s.fail .kind := by
  unfold withKind at h
  split at h
  · exact .inl ⟨_, ‹_›, h⟩
  · exact .inr ⟨‹_›, by cases h; rfl⟩

theorem withArg_next {s t : State} {ok : Bool} {body : Result} (h : withArg s ok body = .next t) :
    (ok = true ∧ body = .next t) ∨ (ok = false ∧ t = s.fail .arg) := by
  unfold withArg at h
  cases ok
  · exact .inr ⟨rfl, by cases h; rfl⟩
  · exact .inl ⟨rfl, h⟩

theorem withTag_next {s t : State} {b : Bank} {tag : Bool} {body : Result}
    (h : withTag s b tag body = .next t) :
    (tagOf s.run.dom b = tag ∧ body = .next t) ∨
      (tagOf s.run.dom b ≠ tag ∧ t = s.fail .domain) := by
  unfold withTag at h
  split at h
  · exact .inl ⟨‹_›, h⟩
  · exact .inr ⟨‹_›, by cases h; rfl⟩

theorem withWords_next {s t : State} {b : Bank} {n : Nat} {body : List Word → Result}
    (h : withWords s b n body = .next t) : ∃ ws, s.readBank b n = some ws ∧ body ws = .next t := by
  unfold withWords at h
  split at h
  · exact ⟨_, ‹_›, h⟩
  · cases h

theorem withCoeffs_next {s t : State} {b : Bank} {r : RingParams} {body : List Nat → Result}
    (h : withCoeffs s b r body = .next t) : ∃ ws, s.readBank b r.n = some ws ∧
      ((ws.all (inRange r.q) = true ∧ body (ws.map BitVec.toNat) = .next t) ∨
        (ws.all (inRange r.q) = false ∧ t = s.fail .range)) := by
  obtain ⟨ws, h1, h2⟩ := withWords_next h
  refine ⟨ws, h1, ?_⟩
  split at h2
  · exact .inl ⟨‹_›, h2⟩
  · exact .inr ⟨Bool.eq_false_iff.2 ‹_›, by cases h2; rfl⟩

theorem runSampler_next {α : Type} {p : Sampler α} {s t : State} {finish : α → State → State}
    (h : runSampler p s finish = .next t) :
    (∃ r, p s.run.drawn = .need r ∧ t = s.draw r) ∨
      ∃ v rest, p s.run.drawn = .done v rest ∧ t = finish v s := by
  unfold runSampler at h
  split at h
  · exact .inl ⟨_, ‹_›, by cases h; rfl⟩
  · exact .inr ⟨_, _, ‹_›, by cases h; rfl⟩

/-! ### Every engine step -/

/-- What the next state of one engine step of a command can be. -/
inductive EngineStep (s : State) : State → Prop
  | failed (e : ErrCode) (he : e ≠ .aborted) : EngineStep s (s.fail e)
  | draw (r : DrawReq) (hr : r.legal) : EngineStep s (s.draw r)
  | nextSample (k : Kind) (v : Word) (h : s.run.pending.length + 1 < Config.N k) :
      EngineStep s
        (State.draw { s with run := { s.run with drawn := [], pending := s.run.pending ++ [v] } } .bit)
  | nothing : EngineStep s s.commit
  | seed : EngineStep s
      ({ s with ent := s.ent.load Config.pool (stagedSeed s.run.seedstage) }).commit
  | bank (d : Bank) (ws : List Word) (tag : Bool)
      (h : ws.length ≤ 512 ∨ ws.length ≤ s.run.pending.length + 1) :
      EngineStep s (s.commitBank d ws tag)
  | result (v : Word) : EngineStep s (s.commitResult v)
  | results (lo hi : Word) : EngineStep s (s.commitResults lo hi)
  | sym (bs : List Byte) (h : bs.length ≤ 512) : EngineStep s (s.commitSym bs)
  | code (bs : List Byte) (len : Word) (h : bs.length ≤ 512) : EngineStep s (s.commitCode bs len)

theorem EngineStep.ofSampler {α : Type} {p : Sampler α} {f : α → Word} {s t : State}
    (hp : p.asksLegal) (h : runSampler p s (intoResult0 f) = .next t) : EngineStep s t := by
  rcases runSampler_next h with ⟨r, h1, rfl⟩ | ⟨v, rest, _, rfl⟩
  · exact .draw r (hp _ _ h1)
  · exact .result (f v)

theorem EngineStep.ofCoeffs {s t : State} {k : Kind} {b : Bank} {body : List Nat → Result}
    (h : withCoeffs s b (Config.ring k) body = .next t)
    (hb : ∀ v : List Nat, v.length = Config.N k → body v = .next t → EngineStep s t) :
    EngineStep s t := by
  obtain ⟨ws, h1, ⟨_, h2⟩ | ⟨_, rfl⟩⟩ := withCoeffs_next h
  · exact hb _ (by simpa [ring_n] using (State.readBank_eq_some.1 h1).1) h2
  · exact .failed _ (by decide)

theorem EngineStep.ofTag {s t : State} {b : Bank} {tag : Bool} {body : Result}
    (h : withTag s b tag body = .next t) (hb : body = .next t → EngineStep s t) :
    EngineStep s t := by
  rcases withTag_next h with ⟨_, h⟩ | ⟨_, rfl⟩
  · exact hb h
  · exact .failed _ (by decide)

theorem EngineStep.ofKind {s t : State} {body : Kind → Result} (h : withKind s body = .next t)
    (hb : ∀ k, kindOf s.run.kind = some k → body k = .next t → EngineStep s t) :
    EngineStep s t := by
  rcases withKind_next h with ⟨k, hk, h⟩ | ⟨_, rfl⟩
  · exact hb k hk h
  · exact .failed _ (by decide)

theorem EngineStep.ofArg {s t : State} {ok : Bool} {body : Result}
    (h : withArg s ok body = .next t) (hb : body = .next t → EngineStep s t) : EngineStep s t := by
  rcases withArg_next h with ⟨_, h⟩ | ⟨_, rfl⟩
  · exact hb h
  · exact .failed _ (by decide)

theorem EngineStep.ofBank {s t : State} {d : Bank} {ws : List Word} {tag : Bool} {k : Kind}
    (hl : ws.length ≤ Config.N k) (h : Host.Outcome.next (s.commitBank d ws tag) = (.next t : Result)) :
    EngineStep s t := by
  cases h
  exact .bank d ws tag (.inl (Nat.le_trans hl (N_le k)))

/-- Every next state of every command is one of the listed ones. -/
theorem exec_engineStep {i : Instr} {s t : State} (h : exec i s = .next t) : EngineStep s t := by
  cases i with
  | nop => cases h; exact .nothing
  | nttFwd d a =>
    exact .ofKind h fun k _ h => .ofTag h fun h => .ofCoeffs h fun v _ h =>
      .ofBank (k := k) (by simp [ring_n]) h
  | nttInv d a =>
    exact .ofKind h fun k _ h => .ofTag h fun h => .ofCoeffs h fun v _ h =>
      .ofBank (k := k) (by simp [ring_n]) h
  | nttPmul d a b =>
    exact .ofKind h fun k _ h => .ofTag h fun h => .ofTag h fun h => .ofCoeffs h fun v hv h =>
      .ofCoeffs h fun w hw h => .ofBank (k := k) (by simp [hv, hw]) h
  | nttNeg d a =>
    exact .ofKind h fun k _ h => .ofCoeffs h fun v hv h => .ofBank (k := k) (by simp [hv]) h
  | nttInvert d a =>
    refine .ofKind h fun k _ h => .ofTag h fun h => .ofCoeffs h fun v _ h => ?_
    dsimp only at h
    split at h
    · cases h; exact .failed _ (by decide)
    · exact .ofBank (k := k) (by simp [ring_n]) h
  | nttMul d a b =>
    exact .ofKind h fun k _ h => .ofTag h fun h => .ofTag h fun h => .ofCoeffs h fun v hv h =>
      .ofCoeffs h fun w hw h => .ofBank (k := k) (by simp [ring_n]) h
  | nttModq d a =>
    refine .ofKind h fun k _ h => ?_
    obtain ⟨ws, h1, h⟩ := withWords_next h
    exact .ofBank (k := k) (by simp [(State.readBank_eq_some.1 h1).1]) h
  | smpGauss d =>
    refine .ofKind h fun k _ h => ?_
    split at h
    · cases h; exact .draw _ (asksLegal_gauss (sampler_bounds k) _ _ ‹_›)
    · dsimp only at h
      split at h
      · cases h
        rename_i hl
        rw [List.length_append, List.length_singleton] at hl
        exact .nextSample k _ hl
      · cases h
        exact .bank d _ false (.inr (by simp))
  | smpGauss1 => exact .ofKind h fun k _ h => .ofSampler (asksLegal_gauss (sampler_bounds k)) h
  | smpPosbin => exact .ofKind h fun k _ h => .ofSampler asksLegal_positiveBinary h
  | smpBer =>
    exact .ofKind h fun k _ h => .ofArg h fun h =>
      .ofSampler (asksLegal_bernoulliFrom _ _ _ _) h
  | smpBerexp => exact .ofKind h fun k _ h => .ofSampler (asksLegal_bernoulliExp _ _) h
  | smpBercosh => exact .ofKind h fun k _ h => .ofSampler (asksLegal_bernoulliCosh _ _) h
  | entSeed => cases h; exact .seed
  | entBit => exact .ofSampler asksLegal_drawBit h
  | entBits =>
    rcases withArg_next h with ⟨hk, h⟩ | ⟨_, rfl⟩
    · exact .ofSampler (asksLegal_drawBits (of_decide_eq_true hk)) h
    · exact .failed _ (by decide)
  | entByte => exact .ofSampler asksLegal_drawByte h
  | entR16 => exact .ofSampler asksLegal_draw16 h
  | entR64 =>
    rw [exec, execEntR64] at h
    rcases runSampler_next h with ⟨r, h1, rfl⟩ | ⟨v, rest, _, rfl⟩
    · exact .draw r (asksLegal_draw64 _ _ h1)
    · exact .results _ _
  | hufEnc =>
    refine .ofKind h fun k _ h => .ofArg (show hufEnc (Config.codec k) s = .next t from h) fun h => ?_
    split at h
    · cases h
      refine .code _ _ ?_
      rw [streamOf_length]
      exact streamBytes_le (Nat.le_trans (encodeFrom_len ‹_› (Nat.zero_le _)) (LMAX_le k))
    · cases h; exact .failed _ (by rcases encodeFrom_failed ‹_› with rfl | rfl <;> decide)
    · cases h
  | hufDec =>
    rcases withKind_next h with ⟨k, _, h⟩ | ⟨_, rfl⟩
    · rcases withArg_next (show hufDec (Config.codec k) s = .next t from h) with ⟨ha, h⟩ | ⟨_, rfl⟩
      · split at h
        · cases h
        · split at h
          · cases h
            refine .sym _ ?_
            rw [decodeBits_length ‹_›]
            simp only [Bool.and_eq_true, decide_eq_true_eq] at ha
            have : s.run.a1.toNat ≤ Config.N k := ha.2
            have := N_le k
            simp only [List.length_nil]
            omega
          · cases h; exact .failed _ (by decide)
      · exact .failed _ (by decide)
    · exact .failed _ (by decide)

end Sys2Proof.Machine
end

