-- ==== Sys2Proof/Laws/PerInstr.lean ====
section
/-! SUPPORT. Statements about every instruction as syntax, one lemma per constructor: the encoding of each
passes the three checks of a legal command word (30_encoding.md R115). -/

namespace Sys2Proof.Laws.EncodeLegal

/-- The instruction's word is legal by the checks of WellFormed.lean. -/
def Statement (i : Instr) : Prop := (fieldsOf (encode i)).legal = true

/-- The rows that use no bank field, D, D and A, and all three, by R114. -/
def rowsNone : List (BitVec 8) :=
  [0x00, 0x11, 0x12, 0x13, 0x14, 0x15, 0x20, 0x21, 0x22, 0x23, 0x24, 0x25, 0x30, 0x31]

theorem legal_none {op : BitVec 8} (h : op ∈ rowsNone) :
    (fieldsOf (assemble op 0 0 0)).legal = true := by
  rw [fieldsOf_assemble]
  revert op
  decide

theorem legal_d {op : BitVec 8} (h : op ∈ [(0x10 : BitVec 8)]) (d : Bank) :
    (fieldsOf (assemble op d 0 0)).legal = true := by
  rw [fieldsOf_assemble]
  revert op
  revert d
  decide

theorem legal_da {op : BitVec 8} (h : op ∈ [(0x01 : BitVec 8), 0x02, 0x04, 0x05, 0x07]) (d a : Bank) :
    (fieldsOf (assemble op d a 0)).legal = true := by
  rw [fieldsOf_assemble]
  simp only [List.mem_cons, List.not_mem_nil, or_false] at h
  rcases h with rfl | rfl | rfl | rfl | rfl <;>
    simp [CmdFields.legal, CmdFields.opListed, CmdFields.reservedZero, CmdFields.unusedZero, opRows,
      nttRows, smpRows, entRows, hufRows]

theorem legal_dab {op : BitVec 8} (h : op ∈ [(0x03 : BitVec 8), 0x06]) (d a b : Bank) :
    (fieldsOf (assemble op d a b)).legal = true := by
  rw [fieldsOf_assemble]
  simp only [List.mem_cons, List.not_mem_nil, or_false] at h
  rcases h with rfl | rfl <;>
    simp [CmdFields.legal, CmdFields.opListed, CmdFields.reservedZero, CmdFields.unusedZero, opRows,
      nttRows, smpRows, entRows, hufRows]

theorem nop : Statement .nop := legal_none (by decide)
theorem nttFwd (d a : Bank) : Statement (.nttFwd d a) := legal_da (by decide) d a
theorem nttInv (d a : Bank) : Statement (.nttInv d a) := legal_da (by decide) d a
theorem nttPmul (d a b : Bank) : Statement (.nttPmul d a b) := legal_dab (by decide) d a b
theorem nttNeg (d a : Bank) : Statement (.nttNeg d a) := legal_da (by decide) d a
theorem nttInvert (d a : Bank) : Statement (.nttInvert d a) := legal_da (by decide) d a
theorem nttMul (d a b : Bank) : Statement (.nttMul d a b) := legal_dab (by decide) d a b
theorem nttModq (d a : Bank) : Statement (.nttModq d a) := legal_da (by decide) d a
theorem smpGauss (d : Bank) : Statement (.smpGauss d) := legal_d (by decide) d
theorem smpGauss1 : Statement .smpGauss1 := legal_none (by decide)
theorem smpPosbin : Statement .smpPosbin := legal_none (by decide)
theorem smpBer : Statement .smpBer := legal_none (by decide)
theorem smpBerexp : Statement .smpBerexp := legal_none (by decide)
theorem smpBercosh : Statement .smpBercosh := legal_none (by decide)
theorem entSeed : Statement .entSeed := legal_none (by decide)
theorem entBit : Statement .entBit := legal_none (by decide)
theorem entBits : Statement .entBits := legal_none (by decide)
theorem entByte : Statement .entByte := legal_none (by decide)
theorem entR16 : Statement .entR16 := legal_none (by decide)
theorem entR64 : Statement .entR64 := legal_none (by decide)
theorem hufEnc : Statement .hufEnc := legal_none (by decide)
theorem hufDec : Statement .hufDec := legal_none (by decide)

end Sys2Proof.Laws.EncodeLegal
end

