-- ==== Sys2Proof/Laws/Step.lean ====
section
/-! SUPPORT. Once and for all, what one step can do: the engine's step, the error of an illegal word, an
idle turn, or one action of the host. Claims about every step are case analyses over `StepKind`,
`EngineStep`, `hostOp_cases` and `busStore_cases`. -/

namespace Sys2Proof.Machine

/-- What the next state of one step can be; `rest` is the schedule with the turn taken. -/
inductive StepKind (s : State) : State → Prop
  | engine (t : State) (rest : List Agent) (i : Instr) (hb : s.status.busy = true)
      (hd : decode s.run.cmd = .ok i) (h : exec i { s with turns := rest } = .next t) : StepKind s t
  | illegal (rest : List Agent) (e : DecodeError) (hb : s.status.busy = true)
      (hd : decode s.run.cmd = .error e) :
      StepKind s (State.fail { s with turns := rest } .illegal)
  | idle (rest : List Agent) : StepKind s { s with turns := rest }
  | host (t : State) (rest : List Agent) (op : HostOp) (ops : List HostOp) (hi : s.inbox = op :: ops)
      (h : hostOp op { s with turns := rest, inbox := ops } = .next t) : StepKind s t

theorem StepKind.of_engineTurn {s t : State} (rest : List Agent)
    (h : engineTurn { s with turns := rest } = .next t) : StepKind s t := by
  unfold engineTurn at h
  split at h
  · rename_i hb
    split at h
    · exact .engine t rest _ hb ‹_› h
    · cases h
      exact .illegal rest _ hb ‹_›
  · cases h
    exact .idle rest

theorem StepKind.of_hostTurn {s t : State} (rest : List Agent)
    (h : hostTurn { s with turns := rest } = .next t) : StepKind s t := by
  unfold hostTurn at h
  cases hi : s.inbox with
  | nil =>
    simp only [hi] at h
    cases h
    have := StepKind.idle (s := s) rest
    rwa [hi] at this
  | cons op ops =>
    simp only [hi] at h
    exact .host t rest op ops hi h

/-- Every next state of every step is one of the listed ones. -/
theorem step_kind {s t : State} (h : step s = .next t) : StepKind s t := by
  unfold step State.takeTurn at h
  cases ht : s.turns with
  | nil =>
    have hs : s = { s with turns := [] } := by rw [← ht]
    simp only [ht] at h
    cases hb : s.status.busy with
    | false => exact .of_hostTurn [] (by rw [← hs]; simpa [hb] using h)
    | true => exact .of_engineTurn [] (by rw [← hs]; simpa [hb] using h)
  | cons a rest =>
    simp only [ht] at h
    cases a with
    | host => exact .of_hostTurn rest h
    | engine => exact .of_engineTurn rest h

/-- Every next state of a host action: the reset, the fall of `rst`, an answer, or a write's effect. -/
theorem hostOp_cases {op : HostOp} {s t : State} (h : hostOp op s = .next t) :
    (op = .rst true ∧ t = s.pinReset) ∨ (op = .rst false ∧ t = { s with rst := false }) ∨
    (∃ r v n, op = .access r ∧ t = { s with resp := v, freeIdx := n }) ∨
    (∃ r tg, op = .access r ∧ s.rst = false ∧ r.write = true ∧ r.target = some tg ∧
      t = { s.busStore tg r.wdata with resp := .writeDone }) := by
  unfold hostOp at h
  split at h
  · cases h
    exact .inl ⟨rfl, rfl⟩
  · cases h
    exact .inr (.inl ⟨rfl, rfl⟩)
  · rename_i r
    split at h
    · cases h
      exact .inr (.inr (.inl ⟨r, _, _, rfl, rfl⟩))
    · rename_i hr
      rcases busAccess_cases r s with ⟨_, h2⟩ | ⟨tg, ht, ⟨hw, h2⟩ | ⟨_, _, _, h2⟩ | ⟨_, _, h2⟩ | ⟨_, _, _, _, h2⟩⟩ <;>
        rw [h2] at h <;> cases h
      · exact .inr (.inr (.inr ⟨r, tg, rfl, by simpa using hr, hw, ht, rfl⟩))
      · exact .inr (.inr (.inl ⟨r, _, _, rfl, rfl⟩))
      · exact .inr (.inr (.inl ⟨r, _, s.freeIdx, rfl, rfl⟩))

/-- Everything a host write can do to the block. -/
theorem busStore_cases (s : State) (tg : Target) (w : Word) :
    s.busStore tg w = s ∨
    ((tg = .cmd ∧ (s.status.busy = true ∨ s.status.err = true) ∨
        tg.engineOwned = true ∧ s.status.busy = true) ∧ s.busStore tg w = s.overrun) ∨
    (tg = .ctrl ∧ s.busStore tg w = s.writeCtrl w) ∨
    (tg = .status ∧ s.busStore tg w = s.clearStatus w) ∨
    (tg = .cmd ∧ s.status.busy = false ∧ s.status.err = false ∧ s.busStore tg w = s.accept w) ∨
    (tg = .domain ∧ s.status.busy = false ∧ s.busStore tg w = { s with domain := w.setWidth 8 }) ∨
    (∃ a b v, s.busStore tg w = { s with arg0 := a, arg1 := b, seeds := v }) ∨
    (∃ a, tg = .store a ∧ s.status.busy = false ∧
      s.busStore tg w = { s with mem := s.mem.write a (wordBytes w) }) := by
  unfold State.busStore
  split
  · rename_i hb
    rw [Bool.and_eq_true] at hb
    exact .inr (.inl ⟨.inr hb, rfl⟩)
  · rename_i hb
    cases tg with
    | id | version | result0 | result1 | paramQ | paramN | reserved => exact .inl rfl
    | ctrl => exact .inr (.inr (.inl ⟨rfl, rfl⟩))
    | status => exact .inr (.inr (.inr (.inl ⟨rfl, rfl⟩)))
    | cmd =>
      simp only [State.issue]
      cases h1 : s.status.busy <;> cases h2 : s.status.err <;> simp
    | domain =>
      have hb : s.status.busy = false := by simpa [Target.engineOwned] using hb
      exact .inr (.inr (.inr (.inr (.inr (.inl ⟨rfl, hb, rfl⟩)))))
    | arg0 => exact .inr (.inr (.inr (.inr (.inr (.inr (.inl ⟨_, _, _, rfl⟩))))))
    | arg1 => exact .inr (.inr (.inr (.inr (.inr (.inr (.inl ⟨_, _, _, rfl⟩))))))
    | seed j => exact .inr (.inr (.inr (.inr (.inr (.inr (.inl ⟨_, _, _, rfl⟩))))))
    | store a =>
      have hb : s.status.busy = false := by simpa [Target.engineOwned] using hb
      exact .inr (.inr (.inr (.inr (.inr (.inr (.inr ⟨a, rfl, hb, rfl⟩))))))

end Sys2Proof.Machine
end

