-- ==== Sys2Proof/Tests/Slice0.lean ====
section
/-! SUPPORT. Tests, each expected value from the spec (the section or rule is named), and one witness for
every statement that has hypotheses. -/

namespace Sys2Proof.Tests

open Sys2Proof.Machine Sys2Proof.Claims

set_option Elab.async false

/-! ### Decoding: each constructor from a word written out bit by bit as Z2, B, Z1, A, Z0, D, OP
(30_encoding.md R111, R114) -/

theorem test_decode_nop : decode 0b0000000000000_000_0_000_0_000_00000000 = .ok .nop := by decide
theorem test_decode_nttFwd : decode 0b0000000000000_000_0_000_0_010_00000001 = .ok (.nttFwd 2 0) := by decide
theorem test_decode_nttInv : decode 0b0000000000000_000_0_011_0_001_00000010 = .ok (.nttInv 1 3) := by decide
theorem test_decode_nttPmul : decode 0b0000000000000_010_0_001_0_011_00000011 = .ok (.nttPmul 3 1 2) := by decide
theorem test_decode_nttNeg : decode 0b0000000000000_000_0_110_0_001_00000100 = .ok (.nttNeg 1 6) := by decide
theorem test_decode_nttInvert : decode 0b0000000000000_000_0_010_0_101_00000101 = .ok (.nttInvert 5 2) := by decide
theorem test_decode_nttMul : decode 0b0000000000000_101_0_000_0_111_00000110 = .ok (.nttMul 7 0 5) := by decide
theorem test_decode_nttModq : decode 0b0000000000000_000_0_111_0_100_00000111 = .ok (.nttModq 4 7) := by decide
theorem test_decode_smpGauss : decode 0b0000000000000_000_0_000_0_100_00010000 = .ok (.smpGauss 4) := by decide
theorem test_decode_smpGauss1 : decode 0b0000000000000_000_0_000_0_000_00010001 = .ok (.smpGauss1) := by decide
theorem test_decode_smpPosbin : decode 0b0000000000000_000_0_000_0_000_00010010 = .ok (.smpPosbin) := by decide
theorem test_decode_smpBer : decode 0b0000000000000_000_0_000_0_000_00010011 = .ok (.smpBer) := by decide
theorem test_decode_smpBerexp : decode 0b0000000000000_000_0_000_0_000_00010100 = .ok (.smpBerexp) := by decide
theorem test_decode_smpBercosh : decode 0b0000000000000_000_0_000_0_000_00010101 = .ok (.smpBercosh) := by decide
theorem test_decode_entSeed : decode 0b0000000000000_000_0_000_0_000_00100000 = .ok (.entSeed) := by decide
theorem test_decode_entBit : decode 0b0000000000000_000_0_000_0_000_00100001 = .ok (.entBit) := by decide
theorem test_decode_entBits : decode 0b0000000000000_000_0_000_0_000_00100010 = .ok (.entBits) := by decide
theorem test_decode_entByte : decode 0b0000000000000_000_0_000_0_000_00100011 = .ok (.entByte) := by decide
theorem test_decode_entR16 : decode 0b0000000000000_000_0_000_0_000_00100100 = .ok (.entR16) := by decide
theorem test_decode_entR64 : decode 0b0000000000000_000_0_000_0_000_00100101 = .ok (.entR64) := by decide
theorem test_decode_hufEnc : decode 0b0000000000000_000_0_000_0_000_00110000 = .ok (.hufEnc) := by decide
theorem test_decode_hufDec : decode 0b0000000000000_000_0_000_0_000_00110001 = .ok (.hufDec) := by decide

/-! ### Illegal words, one for each check of WellFormed.lean (95_test_vectors.md 2.1; R115) -/

theorem test_illformed_opListed :
    (fieldsOf 0x00000008).opListed = false ∧ decode 0x00000008 = .error .unlistedOp := by decide
theorem test_illformed_reservedZero_Z0 :
    (fieldsOf 0x00000801).reservedZero = false ∧ decode 0x00000801 = .error .reservedBit := by decide
theorem test_illformed_reservedZero_Z1 :
    (fieldsOf 0x00008003).reservedZero = false ∧ decode 0x00008003 = .error .reservedBit := by decide
theorem test_illformed_reservedZero_Z2 :
    (fieldsOf 0x00080003).reservedZero = false ∧ decode 0x00080003 = .error .reservedBit := by decide
theorem test_illformed_unusedZero_B :
    (fieldsOf 0x00010401).unusedZero = false ∧ decode 0x00010401 = .error .unusedField ∧
      (fieldsOf 0x00077707).unusedZero = false ∧ decode 0x00077707 = .error .unusedField := by decide
theorem test_illformed_unusedZero_A :
    (fieldsOf 0x00001010).unusedZero = false ∧ decode 0x00001010 = .error .unusedField := by decide
theorem test_illformed_unusedZero_D :
    (fieldsOf 0x00000120).unusedZero = false ∧ decode 0x00000120 = .error .unusedField ∧
      (fieldsOf 0x00000100).unusedZero = false ∧ decode 0x00000100 = .error .unusedField := by decide
theorem test_legal_squaring : decode 0x00077703 = .ok (.nttPmul 7 7 7) := by decide

/-! ### Helpers -/

def readReq (a : Nat) : BusReq := ⟨BitVec.ofNat 15 a, false, 0, .word⟩
def writeReq (a : Nat) (w : Word) : BusReq := ⟨BitVec.ofNat 15 a, true, w, .word⟩

theorem isRead_readReq {a : Nat} (h : a < 32768) : IsRead (readReq a) a :=
  ⟨rfl, rfl, by simp only [readReq, BitVec.toNat_ofNat]; omega⟩
theorem isWrite_writeReq {a : Nat} (w : Word) (h : a < 32768) : IsWrite (writeReq a w) a w :=
  ⟨rfl, rfl, by simp only [writeReq, BitVec.toNat_ofNat]; omega, rfl⟩

/-- The reset state with a running command: its latched kind, scalars and tags. -/
def running (cmd : Word) (kind : BitVec 3) (a0 a1 : Word) (dom : BitVec 8) : State :=
  { State.reset with
    status := { State.reset.status with busy := true }
    cmd := cmd
    run := { Latched.reset with cmd := cmd, kind := kind, a0 := a0, a1 := a1, dom := dom } }

/-- `s` with the draws already made. -/
def withDrawn (s : State) (ds : List DWord) : State := { s with run := { s.run with drawn := ds } }

/-- `s` with the host's next actions and the schedule. -/
def withHost (s : State) (ops : List HostOp) (turns : List Agent) : State :=
  { s with inbox := ops, turns := turns }

def answerOf : Result → Option State
  | .next t => some t
  | _ => none

/-- What `STATUS` reads as after a step that goes on. -/
def statusOf (r : Result) : Option Word := (answerOf r).map fun t => t.status.word

/-- The stated reads and writes of the vectors, one after another on an idle block. -/
def writeAll (s : State) (l : List (Nat × Word)) : State :=
  l.foldl (fun s p => match busAccess (writeReq p.1 p.2) s with | .next t => t | _ => s) s
def readAt (s : State) (a : Nat) : Option BusResp := (answerOf (busAccess (readReq a) s)).map fun t => t.resp

/-! ### Registers and bus (95_test_vectors.md 2.2) -/

theorem test_B1_B2 : readAt State.reset 0x00 = some (.readData 0x424C4953) ∧
    readAt State.reset 0x04 = some (.readData 0x00010000) := by decide
/-- B5 for B1; the parameters of kind 0 are OPEN (R11), and its registers read whatever they are (R47). -/
theorem test_B4_B5 : readAt (writeAll State.reset [(0x08, 1)]) 0x28 = some (.readData 12289) ∧
    readAt (writeAll State.reset [(0x08, 1)]) 0x2C = some (.readData 512) ∧
    readAt State.reset 0x28 = some (.readData (BitVec.ofNat 32 (Config.Q .b0))) ∧
    readAt State.reset 0x2C = some (.readData (BitVec.ofNat 32 (Config.N .b0))) :=
  ⟨by decide, by decide, rfl, rfl⟩
theorem test_B6_B7 : readAt (writeAll State.reset [(0x08, 0x0001FFFF)]) 0x08 = some (.readData 0x117) ∧
    readAt (writeAll State.reset [(0x08, 0x0001FFFF)]) 0x28 = some (.readData 0) := by decide
theorem test_B8_B9 : readAt (writeAll State.reset [(0x14, 0xFFFFFFFF)]) 0x14 = some (.readData 0xFF) ∧
    readAt (writeAll State.reset [(0x30, 0x12345678)]) 0x30 = some (.readData 0) := by decide
theorem test_B10_B11 : readAt State.reset 0x80 = none ∧ readAt State.reset 0x02 = none ∧
    (BusReq.mk 0 false 0 .half).target = none ∧
    (readReq 0x7C).target = some (.seed 15) ∧ (readReq 0x7FFC).target = some (.store 0x7FFC) ∧
    (readReq 0x7FC).target = none ∧ (readReq 0xA00).target = none ∧
    (readReq 0xE00).target = none ∧ (readReq 0x3FFC).target = none := by decide
theorem test_B13 : let s := writeAll State.reset [(0x800, 0x10090100)]
    s.sym? 0 = some 0x00 ∧ s.sym? 1 = some 0x01 ∧ s.sym? 2 = some 0x09 ∧ s.sym? 3 = some 0x10 := by decide
theorem test_B14 : (stagedSeed (Vector.replicate 16 0 |>.set 0 0x04030201)).extractLsb' 0 32 =
    0x04030201#32 := by decide +kernel
theorem test_B15 : bankAddr 1 1 = 0x4804 ∧ bankAddr 7 511 = 0x7FFC := by decide

/-! ### Control and errors (95_test_vectors.md 2.3) -/

theorem test_X1 : statusOf (step (State.reset.withFetchWord 32 0)) = some 0x00000002 := by decide
theorem test_X4 : statusOf (step (running 0x101 5 0 0 0)) = some 0x00000206 := by decide
theorem test_X5 : let s := { State.reset with
      cmd := 0x101, status := ⟨false, true, true, false, 2⟩ }
    statusOf (busAccess (writeReq 0x10 0) s) = some 0x0000020E ∧
    ((answerOf (busAccess (writeReq 0x10 0) s)).map fun t => t.cmd) = some 0x101 := by decide
theorem test_X6 : statusOf (busAccess (writeReq 0x0C 0xE)
    { State.reset with status := ⟨false, true, true, true, 2⟩ }) = some 0 := by decide
theorem test_X7 : statusOf (step (running 0x22 5 33 0 0)) = some 0x00000306 := by decide
theorem test_X9_X11 : statusOf (step (running 0x101 1 0 0 1)) = some 0x00000406 ∧
    statusOf (step (running 0x00010203 1 0 0 1)) = some 0x00000406 := by decide
theorem test_X13 : statusOf (busAccess (writeReq 0x08 0x00010001) (running 0x11 1 0 0 0)) =
    some 0x00000A06 := by decide
theorem test_X14 : statusOf (busAccess (writeReq 0x08 0x00010001) State.reset) = some 0 := by decide
theorem test_X15 : statusOf (busAccess (writeReq 0x4000 5) (running 0x11 1 0 0 0)) =
    some 0x00000009 := by decide
theorem test_illegal_status : statusOf (step (running 0x00000801 1 0 0 0)) = some 0x00000106 := by decide

/-! ### NTT (95_test_vectors.md 2.4) -/

def ring12289 : RingParams := ⟨12289, 512, 49⟩
def ring7681 : RingParams := ⟨7681, 256, 62⟩

theorem test_N1_N21 : [0, 1, 2, 3, 511].map (twiddleW ring12289) = [1, 49, 2401, 7048, 11035] ∧
    [0, 1, 2, 3, 255].map (twiddleW ring7681) = [1, 62, 3844, 217, 6566] := by decide +kernel
theorem test_N2_N22 : [0, 1, 2, 3, 511].map (twiddleR ring12289) = [24, 1176, 8468, 9395, 6771] ∧
    [0, 1, 2, 3, 255].map (twiddleR ring7681) = [30, 1860, 105, 6510, 4955] := by decide +kernel
/-- R204 by hand in the ring q = 17, n = 4, ψ = 2 (2^4 = q - 1): x goes to ψ, ψ^3, ψ^5, ψ^7, and back
(R205); x^3·x = -1 (R209). R203's loop gives the same. -/
theorem test_small_ring : forward ⟨17, 4, 2⟩ [0, 1, 0, 0] = [2, 8, 15, 9] ∧
    inverse ⟨17, 4, 2⟩ [2, 8, 15, 9] = [0, 1, 0, 0] ∧
    inverse ⟨17, 4, 2⟩ (pointwise 17 (forward ⟨17, 4, 2⟩ [0, 0, 0, 1]) [2, 8, 15, 9]) = [16, 0, 0, 0] ∧
    fftLoop ⟨17, 4, 2⟩ (xmu 17 [0, 1, 0, 0] (twiddleW ⟨17, 4, 2⟩)) = [2, 8, 15, 9] := by decide +kernel
theorem test_N12_N13 : [0, 1, 12288].map (fun c => mulq 12289 c 12288) = [0, 12288, 1] ∧
    pointwise 12289 [12288, 2, 0] [12288, 6145, 7] = [1, 1, 0] := by decide
theorem test_N14 : [0xFFFFFFFF, 0xFFFFFFFE, 12289, 12290, 0xFFFFCFFF, 0x7FFFFFFF, 0x80000000].map
      (fun w : Word => (w.toInt % (12289 : Int)).toNat) = [12288, 12287, 0, 1, 0, 5475, 6813] := by decide
theorem test_N10_inverse : powq 12289 12287 12287 = 6144 := by decide +kernel
theorem test_flip : flip ⟨7681, 4, 0⟩ [1, 2, 3, 4] = [7680, 4, 3, 2] := by decide

/-! ### Entropy (95_test_vectors.md 2.5), from a bit pool that holds E1's first word -/

def bitsE1 : Entropy := { Entropy.reset with bitbuf := 0x4c8a32a1f5923d24, bitavail := 64 }
def toyPool : PoolParams := ⟨fun x => x, 10⟩

theorem test_E8 : (bitsE1.randomBits toyPool false 4).1 = 0x4 ∧
    ((bitsE1.randomBits toyPool false 4).2.randomBits toyPool false 8).1 = 0xd2 ∧
    (((bitsE1.randomBits toyPool false 4).2.randomBits toyPool false 8).2.randomBit toyPool).1 = true := by
  decide
theorem test_E9 : (bitsE1.randomBits toyPool true 4).1 = 0x2 ∧
    ((bitsE1.randomBits toyPool true 4).2.randomBits toyPool true 8).1 = 0x4b := by decide
theorem test_E11_E12 : (bitsE1.randomBits toyPool false 32).1 = 0xf5923d24 ∧
    (bitsE1.randomBits toyPool true 32).1 = 0x24bc49af := by decide +kernel
theorem test_E14 : statusOf (step (running 0x22 0 33 0 0)) = some 0x00000306 := by decide
/-- E16: the seed wraps (R161). -/
theorem test_E16_wrap : refillSeed toyPool { Entropy.reset with S := BitVec.allOnes 512 } = 9 := by
  decide +kernel
/-- R165, R166: pool words are little-endian. -/
theorem test_pool_words : halfAt [0x01, 0x02, 0xfb, 0x21] 1 = 0x21fb ∧
    dwordAt [0x24, 0x3d, 0x92, 0xf5, 0xa1, 0x32, 0x8a, 0x4c] 0 = 0x4c8a32a1f5923d24 := by decide
/-- Seed byte j is byte j of the little-endian counter (R161). -/
theorem test_seedBytes : seedByte 0x0403 0 = 0x03 ∧ seedByte 0x0403 1 = 0x04 := by decide +kernel

/-! ### Sampler (95_test_vectors.md 2.6), instance toy-SMP -/

def toy : SamplerParams :=
  ⟨3, 1, fun i _ => if i = 0 then 0xC0 else if i = 1 then 0x80 else 0x40, 3, 2⟩

theorem test_S1_S3 : bernoulli toy 0 [0x10] = .done true [] ∧ bernoulli toy 0 [0xC0] = .done true [] ∧
    bernoulli toy 0 [0xC1] = .done false [] := ⟨rfl, rfl, rfl⟩
theorem test_S5_S6 : bernoulliExp toy 5 [0x3F, 0xFF] = .done false [] ∧
    bernoulliExp toy 0 [] = .done true [] ∧ bernoulliExp toy 8 [] = .done true [] := ⟨rfl, rfl, rfl⟩
theorem test_S7_S9 : bernoulliCosh toy 0xFFFFFFFE [0x50, 1, 0x00] = .done true [] ∧
    bernoulliCosh toy 0xFFFFFFFE [0x50, 0, 0x41] = .done false [] ∧
    bernoulliCosh toy 0xFFFFFFFE [0x50, 0, 0x40, 0x00] = .done true [] := ⟨rfl, rfl, rfl⟩
theorem test_S10 : bernoulliCosh toy 0 [] = .done true [] ∧
    bernoulliCosh toy 0x80000000 [] = .done true [] := ⟨rfl, rfl⟩
theorem test_S11_S14 : positiveBinary [0] = .done 0 [] ∧ positiveBinary [1, 0] = .done 1 [] ∧
    positiveBinary [1, 1, 0] = .done 2 [] ∧ positiveBinary [1, 1, 5, 0] = .done 0 [] :=
  ⟨rfl, rfl, rfl, rfl⟩
theorem test_S15 : positiveBinary (List.replicate 17 1) = .done 0 [] := rfl
theorem test_S16_S18 : gauss toy [0, 3, 1, 0x00, 1] = .done 1 [] ∧
    gauss toy [0, 0, 0, 0, 0, 1] = .done 0 [] ∧ gauss toy [1, 0, 2, 0] = .done (-5) [] :=
  ⟨rfl, rfl, rfl⟩
theorem test_S19 : statusOf (step (running 0x11 6 0 0 0)) = some 0x00000206 := by decide

/-! ### Huffman (95_test_vectors.md 2.7) -/

def bookA : List CodeEntry := [⟨0, 0, 0, 1⟩, ⟨0, 1, 2, 2⟩, ⟨0, -1, 6, 3⟩, ⟨1, 0, 7, 3⟩]
def bookB : List CodeEntry := [⟨0, 0, 0, 1⟩, ⟨0, 1, 2, 2⟩, ⟨2, -16, 6, 3⟩]
def bytesAt (bs : List Byte) (j : Nat) : Option Byte := bs[j]?

theorem test_H1 : ([0x00, 0x08, 0x19, 0x2F, 0xFF].map fun b : Byte => (symHi b, symZ2 b)) =
    [(0, 0), (0, 0), (1, -1), (2, -7), (15, -7)] := by decide
theorem test_H2 : [canonByte 0 0, canonByte 1 (-1), canonByte 15 7, canonByte 3 (-7)] =
    [0x00, 0x19, 0xF7, 0x3F] := by decide
theorem test_H3 : encodeFrom bookA 4095 (bytesAt [0x00, 0x01, 0x09, 0x10, 0x00]) 5 0 0 0 =
    .stream 0x16E 10 ∧ streamOf 0x16E 10 = [0x6E, 0x01] := by decide
theorem test_H4_H5 : encodeFrom bookA 4095 (bytesAt [0x08]) 1 0 0 0 = .stream 0 1 ∧
    encodeFrom bookA 4095 (bytesAt [0x10, 0x10, 0x10]) 3 0 0 0 = .stream 0x1FF 9 ∧
    streamOf 0x1FF 9 = [0xFF, 0x01] := by decide
theorem test_H6_H20 : encodeFrom bookA 4095 (bytesAt [0x02]) 1 0 0 0 = .failed .symbol ∧
    encodeFrom bookB 4095 (bytesAt [0x28]) 1 0 0 0 = .failed .symbol := by decide
theorem test_H8_H9 :
    encodeFrom [⟨0, 0, 0, 32⟩] 4095 (fun _ => some 0) 128 0 0 0 = .failed .overflow ∧
    encodeFrom [⟨0, 0, 0, 32⟩] 4095 (fun _ => some 0) 127 0 0 0 = .stream 0 4064 := by decide +kernel
theorem test_H10_H13 :
    decodeBits bookA (streamBits [0x6E, 0x01] 10) 5 0 0 [] = some [0x00, 0x01, 0x09, 0x10, 0x00] ∧
    decodeBits bookA (streamBits [0x6E, 0x01] 10) 4 0 0 [] = none ∧
    decodeBits bookA (streamBits [0x6E, 0x01] 10) 6 0 0 [] = none ∧
    decodeBits bookA (streamBits [0x6E, 0x81] 10) 5 0 0 [] = some [0x00, 0x01, 0x09, 0x10, 0x00] := by
  decide
theorem test_H14_H15 : decodeBits bookA (streamBits [0x6E, 0x01] 11) 6 0 0 [] =
      some [0x00, 0x00, 0x01, 0x09, 0x10, 0x00] ∧ decodeBits bookA (streamBits [] 0) 1 0 0 [] = none := by
  decide
theorem test_H17_H19 : decodeBits bookB (streamBits [0x06] 3) 1 0 0 [] = none ∧
    decodeBits bookB (streamBits [0x07] 3) 1 0 0 [] = none ∧
    decodeBits bookB (streamBits [0x02] 2) 1 0 0 [] = some [0x01] := by decide
theorem test_H7_H16 : statusOf (step (running 0x30 1 0 0 0)) = some 0x00000306 ∧
    statusOf (step (running 0x30 1 513 0 0)) = some 0x00000306 ∧
    statusOf (step (running 0x31 1 4096 1 0)) = some 0x00000306 := by decide
theorem test_toy_codebooks_valid : codebookValid bookA = true ∧ codebookValid bookB = true ∧
    codebookValid [⟨0, 0, 0, 1⟩, ⟨0, 1, 0, 2⟩] = false ∧ codebookValid [⟨0, 0, 0, 1⟩, ⟨0, 0, 1, 1⟩] = false := by
  decide

/-! ### Witnesses: concrete states and operands that meet the hypotheses of each statement -/

theorem test_witness_DecodeAndEncodeAgree : decode 0x00021303 = .ok (.nttPmul 3 1 2) := by decide

theorem test_witness_WordRejectedExactlyWhenIllegal :
    (∃ s : State, s.status.busy = true ∧ decode s.run.cmd = .error .unlistedOp ∧ s.turns = []) ∧
    (∃ w : Word, decode w = .ok .hufDec) :=
  ⟨⟨running 0x08 0 0 0 0, by decide⟩, 0x31, by decide⟩

theorem test_witness_StepRunsTheDecodedCommand :
    (∃ s : State, s.status.busy = true ∧ decode s.run.cmd = .ok .nop ∧ s.turns = []) ∧
    (∃ s : State, s.status.busy = true ∧ decode s.run.cmd = .ok (.nttFwd 7 7) ∧
      s.turns = [.engine, .host]) :=
  ⟨⟨running 0 0 0 0 0, by decide⟩, withHost (running 0x7701 0 0 0 0) [] [.engine, .host], by decide⟩

theorem test_witness_TurnsInterleave :
    (∃ s : State, s.turns = [.host] ∧ s.inbox = []) ∧
    (∃ s : State, s.turns = [.host] ∧ s.inbox = [.rst true]) ∧
    (∃ s : State, s.turns = [.engine] ∧ s.status.busy = false) ∧
    (∃ s : State, s.turns = [.engine] ∧ s.status.busy = true ∧ decode s.run.cmd = .ok .nop) ∧
    (∃ s : State, s.turns = [.engine] ∧ s.status.busy = true ∧ decode s.run.cmd = .error .unlistedOp) ∧
    (∃ s : State, s.turns = [] ∧ s.status.busy = false ∧ s.inbox = [.rst false]) ∧
    (∃ s : State, s.turns = [] ∧ s.status.busy = false ∧ s.inbox = []) :=
  ⟨⟨withHost State.reset [] [.host], by decide⟩, ⟨withHost State.reset [.rst true] [.host], by decide⟩,
    ⟨withHost State.reset [] [.engine], by decide⟩, ⟨withHost (running 0 0 0 0 0) [] [.engine], by decide⟩,
    ⟨withHost (running 0x08 0 0 0 0) [] [.engine], by decide⟩, ⟨withHost State.reset [.rst false] [], by decide⟩,
    State.reset, by decide⟩

theorem test_witness_AcceptanceLatchesTheContext : ∃ (s : State) (r : BusReq), IsWrite r 0x10 0x25 ∧
    s.status.busy = false ∧ s.status.err = false ∧ s.turns = [] ∧ decode 0x25 = .ok .entR64 :=
  ⟨State.reset, writeReq 0x10 0x25, isWrite_writeReq _ (by decide), by decide⟩

theorem test_witness_RefusedCommandWriteSetsOvr :
    (∃ (s : State) (r : BusReq), IsWrite r 0x10 0 ∧ s.status.busy = true) ∧
    (∃ (s : State) (r : BusReq), IsWrite r 0x10 0 ∧ s.status.err = true) :=
  ⟨⟨running 0 0 0 0 0, writeReq 0x10 0, isWrite_writeReq _ (by decide), rfl⟩,
    { State.reset with status := ⟨false, true, true, false, 1⟩ }, writeReq 0x10 0,
    isWrite_writeReq _ (by decide), rfl⟩

/-- The ends of each memory of the window, and `DOMAIN`. -/
def ownedOffsets : List Nat := [0x14, 0x800, 0x9FC, 0xC00, 0xDFC, 0x4000, 0x7FFC]

theorem test_witness_BusyOperandAccessesAreLostOrFree : ∀ a ∈ ownedOffsets,
    (MemoryWord a ∨ a = 0x14) ∧ ∃ (s : State) (r r' : BusReq), s.status.busy = true ∧
      IsWrite r a 1 ∧ IsRead r' a := by
  intro a ha
  simp only [ownedOffsets, List.mem_cons, List.not_mem_nil, or_false] at ha
  refine ⟨?_, running 0 0 0 0 0, writeReq a 1, readReq a, rfl, isWrite_writeReq _ ?_,
    isRead_readReq ?_⟩
  · unfold MemoryWord; omega
  all_goals omega

/-- A register write and a register read at every register offset the statements name. -/
theorem test_witness_register_accesses (a : Nat) (w : Word) (h : a < 0x80) :
    ∃ r r' : BusReq, IsWrite r a w ∧ IsRead r' a :=
  ⟨writeReq a w, readReq a, isWrite_writeReq _ (by omega), isRead_readReq (by omega)⟩

theorem test_witness_HostRegisterWritesTakeEffect :
    (∃ r r' : BusReq, IsWrite r 0x08 0xFFFEFFFF ∧ (0xFFFEFFFF : Word).getLsbD 16 = false ∧
      IsRead r' 0x08) ∧
    (∃ r : BusReq, IsWrite r 0x18 5) ∧ (∃ r : BusReq, IsWrite r 0x1C 5) ∧
    (∃ r : BusReq, IsWrite r (0x40 + 4 * (0 : Fin 16).val) 5) ∧
    (∃ r : BusReq, IsWrite r (0x40 + 4 * (15 : Fin 16).val) 5) ∧
    (∃ (r : BusReq) (s : State), IsWrite r 0x14 0xFF ∧ s.status.busy = false) :=
  ⟨⟨writeReq 8 _, readReq 8, isWrite_writeReq _ (by decide), by decide, isRead_readReq (by decide)⟩,
    ⟨_, isWrite_writeReq _ (by decide)⟩, ⟨_, isWrite_writeReq _ (by decide)⟩,
    ⟨_, isWrite_writeReq _ (by decide)⟩, ⟨_, isWrite_writeReq _ (by decide)⟩,
    writeReq 0x14 0xFF, State.reset, isWrite_writeReq _ (by decide), rfl⟩

theorem test_witness_StatusReadsAndClears : ∃ r r' : BusReq, IsWrite r 0x0C 0xE ∧ IsRead r' 0x0C :=
  test_witness_register_accesses _ _ (by decide)

theorem test_witness_RegistersReadTheirValue :
    (∀ a ∈ [0x10, 0x18, 0x1C, 0x40, 0x7C, 0x30, 0x3C], ∃ r : BusReq, IsRead r a) ∧
    (∃ r : BusReq, IsWrite r (0x30 + 4 * (3 : Fin 4).val) 1) ∧
    (∃ (s : State) (r : BusReq), IsRead r 0x14 ∧ s.status.busy = false) := by
  refine ⟨fun a ha => ⟨readReq a, isRead_readReq ?_⟩, ⟨_, isWrite_writeReq _ (by decide)⟩,
    State.reset, readReq 0x14, isRead_readReq (by decide), rfl⟩
  revert a
  decide

theorem test_witness_IdentityAndParameterRegisters :
    (∀ a ∈ [0x00, 0x04, 0x28, 0x2C], ∃ r r' : BusReq, IsWrite r a 7 ∧ IsRead r' a) ∧
    (∃ s : State, kindOf s.ctrl.kind = some .b0) ∧ (∃ s : State, kindOf s.ctrl.kind = some .b4) ∧
    (∃ s : State, s.ctrl.kind = 5 ∧ 4 < s.ctrl.kind.toNat) ∧
    (∃ s : State, s.ctrl.kind = 7 ∧ 4 < s.ctrl.kind.toNat) := by
  refine ⟨fun a ha => test_witness_register_accesses a 7 ?_, ⟨State.reset, rfl⟩,
    ⟨{ State.reset with ctrl := ⟨4, false, false⟩ }, rfl⟩,
    ⟨{ State.reset with ctrl := ⟨5, false, false⟩ }, by decide⟩,
    { State.reset with ctrl := ⟨7, false, false⟩ }, by decide⟩
  revert a
  decide

theorem test_witness_AbortEndsTheRunningCommand :
    (∃ (s : State) (r r' : BusReq), IsWrite r 0x08 0x10001 ∧ (0x10001 : Word).getLsbD 16 = true ∧
      s.status.busy = true ∧ IsRead r' 0x08) ∧
    (∃ (s : State) (r : BusReq), IsWrite r 0x08 0x10001 ∧ s.status.busy = false) :=
  ⟨⟨running 0x11 1 0 0 0, writeReq 8 _, readReq 8, isWrite_writeReq _ (by decide), by decide, rfl,
      isRead_readReq (by decide)⟩,
    State.reset, writeReq 8 _, isWrite_writeReq _ (by decide), rfl⟩

theorem test_witness_IrqFollowsEnableAndDone :
    (∃ (s : State) (r : BusReq), IsWrite r 0x08 0x100 ∧ (0x100 : Word).getLsbD 8 = true ∧
      s.status.done = true) ∧
    (∃ r : BusReq, IsWrite r 0x08 0 ∧ (0 : Word).getLsbD 8 = false) ∧
    (∃ r : BusReq, IsWrite r 0x0C 2 ∧ (2 : Word).getLsbD 1 = true) ∧
    (∃ (s : State) (r : BusReq), IsWrite r 0x10 0 ∧ s.status.busy = false ∧ s.status.err = false) ∧
    (∃ s t : State, step s = .next t ∧ s.status.busy = true ∧ t.status.busy = false ∧ t.rst = false ∧
      t.ctrl.irqEn = true) :=
  ⟨⟨{ State.reset with status := ⟨false, true, false, false, 0⟩ }, writeReq 8 _,
      isWrite_writeReq _ (by decide), by decide, rfl⟩,
    ⟨writeReq 8 _, isWrite_writeReq _ (by decide), by decide⟩,
    ⟨writeReq 12 _, isWrite_writeReq _ (by decide), by decide⟩,
    ⟨State.reset, writeReq 16 _, isWrite_writeReq _ (by decide), rfl, rfl⟩,
    { running 0 0 0 0 0 with ctrl := ⟨0, false, true⟩ }, _, rfl, rfl, rfl, rfl, rfl⟩

/-- `s` with the bytes `bs` stored from offset `a` on. -/
def withBytes (s : State) (a : Nat) (bs : List Byte) : State := { s with mem := s.mem.write a bs }

theorem test_witness_MemoryWordsAtTheirOffsets :
    (∃ (s : State) (r r' : BusReq), s.status.busy = false ∧ s.bankWord? 7 511 = some 0x01020304 ∧
      IsRead r (0x4000 + 0x800 * (7 : Bank).toNat + 4 * 511) ∧
      IsWrite r' (0x4000 + 0x800 * (7 : Bank).toNat + 4 * 511) 0x01020304) ∧
    (∃ (s : State) (r r' : BusReq), s.status.busy = false ∧
      (∀ m, m < 4 → s.sym? (4 * 127 + m) = some ((0x01020304 : Word).extractLsb' (8 * m) 8)) ∧
      IsRead r (0x0800 + 4 * 127) ∧ IsWrite r' (0x0800 + 4 * 127) 0x01020304) ∧
    (∃ (s : State) (r r' : BusReq), s.status.busy = false ∧
      (∀ m, m < 4 → s.code? (4 * 0 + m) = some ((0x01020304 : Word).extractLsb' (8 * m) 8)) ∧
      IsRead r (0x0C00 + 4 * 0) ∧ IsWrite r' (0x0C00 + 4 * 0) 0x01020304) :=
  ⟨⟨withBytes State.reset 0x7FFC [4, 3, 2, 1], readReq 0x7FFC, writeReq 0x7FFC 0x01020304, rfl,
      by decide, isRead_readReq (by decide), isWrite_writeReq _ (by decide)⟩,
    ⟨withBytes State.reset 0x9FC [4, 3, 2, 1], readReq 0x9FC, writeReq 0x9FC 0x01020304, rfl,
      by decide, isRead_readReq (by decide), isWrite_writeReq _ (by decide)⟩,
    withBytes State.reset 0xC00 [4, 3, 2, 1], readReq 0xC00, writeReq 0xC00 0x01020304, rfl,
      by decide, isRead_readReq (by decide), isWrite_writeReq _ (by decide)⟩

theorem test_witness_UnwrittenReadsFault :
    (∃ (s : State) (r : BusReq), MemoryWord 0x7FFC ∧ IsRead r 0x7FFC ∧ s.status.busy = false ∧
      s.mem.byte? (0x7FFC + 3) = none) ∧
    (∀ ta tb : Bool, ∃ s : State, kindOf s.run.kind = some .b1 ∧ 511 < Config.N .b1 ∧
      s.bankWord? 0 511 = none ∧ tagOf s.run.dom 0 = ta ∧ tagOf s.run.dom 7 = tb) ∧
    (∃ s : State, kindOf s.run.kind = some .b1 ∧ 0 < s.run.a0.toNat ∧ s.run.a0.toNat ≤ Config.N .b1 ∧
      codeLength (fun _ => ⟨0, 0, 0, 1⟩) 0 0 ≤ Config.LMAX .b1 ∧ s.sym? 0 = none) ∧
    (∃ s : State, kindOf s.run.kind = some .b1 ∧ s.run.a0.toNat ≤ Config.LMAX .b1 ∧
      1 ≤ s.run.a1.toNat ∧ s.run.a1.toNat ≤ Config.N .b1 ∧ 511 < (s.run.a0.toNat + 7) / 8 ∧
      s.code? 511 = none) := by
  refine ⟨⟨State.reset, readReq 0x7FFC, by unfold MemoryWord; omega, isRead_readReq (by decide), rfl, rfl⟩,
    fun ta tb => ?_, ⟨running 0x30 1 512 0 0, rfl, by decide, by decide, by simp [codeLength], rfl⟩,
    running 0x31 1 4095 512 0, by decide +kernel⟩
  obtain ⟨dom, h⟩ : ∃ dom : BitVec 8, tagOf dom 0 = ta ∧ tagOf dom 7 = tb := by
    cases ta <;> cases tb
    · exact ⟨0, by decide⟩
    · exact ⟨0x80, by decide⟩
    · exact ⟨1, by decide⟩
    · exact ⟨0x81, by decide⟩
  exact ⟨running 0x07 1 0 0 dom, rfl, by decide, rfl, h⟩

theorem test_witness_ResetPinResets : ∃ s : State, s.rst = true ∧ (readReq 0).write = false ∧
    (writeReq 0 0).write = true := ⟨{ State.reset with rst := true }, rfl, rfl, rfl⟩

theorem test_witness_StepKeepsTheInvariant :
    ∃ s t : State, s.Inv ∧ step s = .next t ∧ s.status.busy = true :=
  ⟨running 0 4 0 0 0, _,
    ⟨rfl, by unfold Status.wf; decide, Entropy.wf_reset, fun _ => rfl, fun h => (by cases h),
      by decide, fun h => (by cases h)⟩, rfl, rfl⟩

/-- The completions: a commit, an error, an abort and a reset. -/
theorem test_witness_OnlyCompletionSetsDone :
    (∃ s t : State, step s = .next t ∧ s.status.busy = true ∧ t.status.busy = false ∧
      s.status.done = false ∧ t.status.done = true ∧ t.status.err = false) ∧
    (∃ s t : State, step s = .next t ∧ s.status.busy = true ∧ t.status.busy = false ∧
      t.status.errcode = 9 + 2 - 8) ∧
    (∃ s t : State, step s = .next t ∧ s.status.busy = true ∧ t.status.busy = false ∧
      t.status.errcode = 10) ∧
    (∃ s t : State, step s = .next t ∧ s.status.busy = true ∧ t.status.busy = false ∧ t.rst = true) :=
  ⟨⟨running 0 0 0 0 0, _, rfl, rfl, rfl, rfl, rfl, rfl⟩,
    ⟨running 0x22 0 33 0 0, _, rfl, rfl, rfl, rfl⟩,
    ⟨withHost (running 0x11 0 0 0 0) [.access (writeReq 8 0x10000)] [.host], _, rfl, rfl, rfl, rfl⟩,
    withHost (running 0x11 0 0 0 0) [.rst true] [.host], _, rfl, rfl, rfl, rfl⟩

theorem test_witness_ResultsChangeOnlyAtSuccess :
    (∃ s t : State, step s = .next t ∧ ¬ ResultsKept s t) ∧
    (∃ r r' : BusReq, IsWrite r 0x20 1 ∧ IsRead r' 0x20) ∧
    (∃ r r' : BusReq, IsWrite r 0x24 1 ∧ IsRead r' 0x24) :=
  ⟨⟨withDrawn (running 0x21 0 0 0 0) [1], _, rfl, fun h => absurd h.1 (by decide)⟩,
    test_witness_register_accesses _ _ (by decide), test_witness_register_accesses _ _ (by decide)⟩

theorem test_witness_TagsChangeOnlyByDomainWriteOrCommit :
    (∃ r : BusReq, IsWrite r 0x4000 1 ∧ MemoryWord 0x4000) ∧
    (∃ s t : State, step s = .next t ∧ t.domain ≠ s.domain) :=
  ⟨⟨writeReq 0x4000 1, isWrite_writeReq _ (by decide), by unfold MemoryWord; omega⟩,
    withHost State.reset [.access (writeReq 0x14 0x80)] [], _, rfl, by decide⟩

theorem test_witness_ErrorsChangeOnlyStatus : ∃ s t : State, s.status.busy = true ∧ s.status.err = false ∧
    s.turns = [] ∧ step s = .next t ∧ t.status.err = true :=
  ⟨running 0x101 7 0 0 0, _, rfl, rfl, rfl, rfl, rfl⟩

theorem test_witness_SeedMovesOnlyByRefill :
    (∃ s t : State, exec .entByte s = .next t) ∧
    (∃ s t : State, exec .nop s = .next t) :=
  ⟨⟨running 0x23 0 0 0 0, _, rfl⟩, running 0 0 0 0 0, _, rfl⟩

theorem test_witness_DrawingCommandsDrawOrComplete :
    (∀ i ∈ [Instr.smpGauss 7, .smpGauss1, .smpPosbin, .smpBerexp, .smpBercosh],
      DrawsWhenLegal (running 0 4 0 0 0) i) ∧
    DrawsWhenLegal (running 0 4 0 0 0) .smpBer ∧
    DrawsWhenLegal (running 0 4 (BitVec.ofNat 32 (Config.ELL .b4 - 1)) 0 0) .smpBer ∧
    DrawsWhenLegal (running 0 7 32 0 0) .entBits ∧
    (∀ i ∈ [Instr.entBit, .entByte, .entR16, .entR64], DrawsWhenLegal (running 0 7 0 0 0) i) ∧
    Requests (running 0 4 0 0 0) .bit (.smpGauss 7) ∧ Requests (running 0 7 32 0 0) (.bits 32) .entBits ∧
    (∀ r, ¬ Requests (running 0 7 0 0 0) r .entBits) ∧
    (∀ r, ¬ Requests (withDrawn (running 0 4 0 0 0) [1, 0]) r .smpPosbin) := by
  have hl : Config.ELL .b4 = Config.ellRaw .b4 % 32 + 1 := rfl
  refine ⟨?_, ⟨.b4, rfl, ?_⟩, ⟨.b4, rfl, ?_⟩, by unfold DrawsWhenLegal; decide, ?_, ⟨.b4, rfl, rfl⟩,
    ⟨rfl, by decide, rfl⟩, fun r h => absurd h.2.1 (by decide), fun r h => ?_⟩
  · intro i hi
    simp only [List.mem_cons, List.not_mem_nil, or_false] at hi
    rcases hi with rfl | rfl | rfl | rfl | rfl <;> unfold DrawsWhenLegal <;> decide
  · show 0 < Config.ELL .b4
    omega
  · show (BitVec.ofNat 32 (Config.ELL .b4 - 1)).toNat < Config.ELL .b4
    rw [BitVec.toNat_ofNat]
    omega
  · intro i hi
    simp only [List.mem_cons, List.not_mem_nil, or_false] at hi
    rcases hi with rfl | rfl | rfl | rfl <;> trivial
  · exact absurd (show positiveBinary [1, 0] = .need r from h) (by
      rw [show positiveBinary [1, 0] = .done 1 [] from rfl]
      exact fun h => by cases h)

/-- A machine with every byte of the banks, SYMBUF and CODEBUF written. -/
def full : State :=
  withBytes (withBytes (withBytes State.reset 0x800 (List.replicate 512 0)) 0xC00
    (List.replicate 512 0)) 0x4000 (List.replicate 16384 0)

theorem test_witness_WrittenMachineRunsSafely :
    full.allWritten ∧ (∀ op ∈ full.inbox, op.isSafe) ∧
    (∀ op ∈ (withHost full [.access (readReq 0x7FFC), .rst false] []).inbox, op.isSafe) := by
  refine ⟨fun a ha => ?_, fun op h => (by cases h), fun op h => ?_⟩
  · unfold isStore at ha
    simp only [Bool.or_eq_true, Bool.and_eq_true, decide_eq_true_eq] at ha
    have hb (m : Memory) (x n : Nat) (h : x ≤ a ∧ a < x + n ∨ m.byte? a ≠ none) :
        (m.write x (List.replicate n 0)).byte? a ≠ none := by
      rw [Memory.byte?_write, List.length_replicate]
      split
      · rw [List.getElem?_replicate, if_pos (by omega)]
        exact Option.some_ne_none _
      · exact h.resolve_left (by assumption)
    exact hb _ _ _ (by
      by_cases h : 0x4000 ≤ a
      · left; omega
      · right
        exact hb _ _ _ (by
          by_cases h : 0xC00 ≤ a
          · left; omega
          · right; exact hb _ _ _ (.inl (by omega))))
  · simp only [withHost, List.mem_cons, List.not_mem_nil, or_false] at h
    rcases h with rfl | rfl
    · show (readReq 0x7FFC).target ≠ none
      decide
    · rfl

theorem test_witness_KindErrors :
    (∀ i ∈ [Instr.nttFwd 0 7, .smpBer, .hufDec], UsesKind i) ∧
    (∃ s : State, s.run.kind = 5 ∧ 4 < s.run.kind.toNat) ∧
    (∃ s : State, s.run.kind = 7 ∧ 4 < s.run.kind.toNat) ∧
    (∃ s t : State, ¬ UsesKind .entByte ∧ s.status.errcode ≠ 2 ∧ exec .entByte s = .next t) ∧
    (∃ r : BusReq, IsWrite r 0x08 7) := by
  refine ⟨?_, ⟨running 0 5 0 0 0, by decide⟩, ⟨running 0 7 0 0 0, by decide⟩,
    ⟨running 0x23 7 0 0 0, _, fun h => h, by decide, rfl⟩, _, isWrite_writeReq _ (by decide)⟩
  intro i hi
  simp only [List.mem_cons, List.not_mem_nil, or_false] at hi
  rcases hi with rfl | rfl | rfl <;> trivial

theorem test_witness_ArgErrors :
    (∃ s t : State, s.status.errcode.toNat ≠ 3 ∧ exec .entBits s = .next t ∧ s.run.a0 = 33) ∧
    (∃ s t : State, s.status.errcode.toNat ≠ 3 ∧ exec .entBits s = .next t ∧ s.run.a0 = 32) ∧
    (∃ s : State, kindOf s.run.kind = some .b1 ∧ Config.ELL .b1 ≤ s.run.a0.toNat ∧
      s.run.a0.toNat = Config.ELL .b1) ∧
    (∃ s : State, kindOf s.run.kind = some .b1 ∧ s.run.a0.toNat = 0) ∧
    (∃ s : State, kindOf s.run.kind = some .b1 ∧ s.run.a0.toNat = Config.N .b1 + 1) ∧
    (∃ s : State, kindOf s.run.kind = some .b1 ∧ s.run.a0.toNat = Config.LMAX .b1 + 1) ∧
    (∃ s : State, kindOf s.run.kind = some .b1 ∧ s.run.a0.toNat = 0 ∧ s.run.a1.toNat = 0) ∧
    (∃ s : State, kindOf s.run.kind = some .b1 ∧ s.run.a0.toNat = 0 ∧
      s.run.a1.toNat = Config.N .b1 + 1) := by
  have hl : Config.ELL .b1 = Config.ellRaw .b1 % 32 + 1 := rfl
  have he : (BitVec.ofNat 32 (Config.ELL .b1)).toNat = Config.ELL .b1 := by
    rw [BitVec.toNat_ofNat]; omega
  exact ⟨⟨running 0x22 0 33 0 0, _, by decide, rfl, rfl⟩, ⟨running 0x22 0 32 0 0, _, by decide, rfl, rfl⟩,
    ⟨running 0x13 1 (BitVec.ofNat 32 (Config.ELL .b1)) 0 0, rfl, Nat.le_of_eq he.symm, he⟩,
    ⟨running 0x30 1 0 0 0, by decide⟩, ⟨running 0x30 1 513 0 0, by decide⟩,
    ⟨running 0x31 1 4096 1 0, by decide +kernel⟩, ⟨running 0x31 1 0 0 0, by decide⟩,
    running 0x31 1 0 513 0, by decide⟩

theorem test_witness_DomainErrors :
    (∃ s : State, kindOf s.run.kind = some .b4 ∧ tagOf s.run.dom 7 = true) ∧
    (∃ s : State, kindOf s.run.kind = some .b0 ∧ tagOf s.run.dom 0 = false) :=
  ⟨⟨running 0x7001 4 0 0 0x80, by decide⟩, running 0x02 0 0 0 0xFE, by decide⟩

/-- `s` with words 0.. of two banks stored, A last. -/
def withBanks (s : State) (a b : Bank) (va vb : List Word) : State := (s.writeBank b vb).writeBank a va

theorem withBanks_A (s : State) (a b : Bank) (va vb : List Word) {i : Nat} (h : i < va.length) :
    (withBanks s a b va vb).bankWord? a i = some va[i] := State.bankWord?_writeBank h

theorem withBanks_B (s : State) {a b : Bank} (hab : a ≠ b) (va vb : List Word) {i : Nat}
    (h : i < vb.length) (hl : va.length ≤ 512) (hl' : vb.length ≤ 512) :
    (withBanks s a b va vb).bankWord? b i = some vb[i] := by
  rw [← State.bankWord?_writeBank (s := s) (b := b) h]
  unfold withBanks
  refine Memory.word?_congr fun k hk => State.byte?_writeBank ?_
  have h1 := a.isLt
  have h2 := b.isLt
  have h3 : a.toNat ≠ b.toNat := fun e => hab (BitVec.eq_of_toNat_eq e)
  rw [bankAddr_eq, bankAddr_eq]
  omega

theorem Q_pos_b1 : 0 < Config.Q .b1 := by decide
theorem q_above : 12288 < Config.Q .b1 := by show 12288 < 12289; omega

theorem bankHolds_replicate {s : State} {b : Bank} {n x : Nat}
    (h : ∀ i, i < n → s.bankWord? b i = some (BitVec.ofNat 32 x)) : BankHolds s b n fun _ => x := h

/-- The states of the NTT witnesses: kind B1, A is P0 and B is P7, every word of A is x and of B is y. -/
def nttState (dom : BitVec 8) (x y : Word) : State :=
  withBanks (running 0 1 0 0 dom) 0 7 (List.replicate 512 x) (List.replicate 512 y)

theorem nttState_A (dom : BitVec 8) (x y : Word) {i : Nat} (h : i < Config.N .b1) :
    (nttState dom x y).bankWord? 0 i = some x := by
  have h' : i < (List.replicate 512 x).length := by rw [List.length_replicate]; exact h
  rw [nttState, withBanks_A _ _ _ _ _ h', List.getElem_replicate]

theorem nttState_B (dom : BitVec 8) (x y : Word) {i : Nat} (h : i < Config.N .b1) :
    (nttState dom x y).bankWord? 7 i = some y := by
  have h' : i < (List.replicate 512 y).length := by rw [List.length_replicate]; exact h
  rw [nttState, withBanks_B _ (by decide) _ _ h' (Nat.le_of_eq List.length_replicate)
    (Nat.le_of_eq List.length_replicate), List.getElem_replicate]

/-- A in range and B unwritten, under each tag of A and of B. -/
theorem test_witness_UnwrittenReadsFault_B (dom : BitVec 8) : ∃ s : State, kindOf s.run.kind = some .b1 ∧
    s.run.dom = dom ∧ BankHolds s 0 (Config.N .b1) (fun _ => 12288) ∧ InField .b1 (fun _ => 12288) ∧
    511 < Config.N .b1 ∧ s.bankWord? 7 511 = none := by
  refine ⟨(running 0x03 1 0 0 dom).writeBank 0 (List.replicate 512 12288), rfl, rfl, fun i hi => ?_,
    fun _ _ => q_above, by decide, ?_⟩
  · have h : i < (List.replicate 512 (12288 : Word)).length := by rw [List.length_replicate]; exact hi
    rw [State.bankWord?_writeBank h, List.getElem_replicate]
    rfl
  · rw [show (none : Option Word) = (running 0x03 1 0 0 dom).bankWord? 7 511 from rfl]
    refine Memory.word?_congr fun k hk => State.byte?_writeBank (.inr ?_)
    rw [List.length_replicate, bankAddr_eq, bankAddr_eq]
    show 0x4000 + 0x800 * 0 + 4 * 0 + 4 * 512 ≤ 0x4000 + 0x800 * 7 + 4 * 511 + k
    omega

/-- A word just above and just below the legal range, in A, and in B when A is legal. -/
theorem test_witness_RangeErrors :
    (∀ w ∈ [(12289 : Word), 0xFFFFFFFF], (w.toInt < 0 ∨ (Config.Q .b1 : Int) ≤ w.toInt) ∧
      ∀ dom : BitVec 8, ∃ s : State, kindOf s.run.kind = some .b1 ∧ s.run.dom = dom ∧
        (∀ j, j < Config.N .b1 → s.bankWord? 0 j ≠ none) ∧ s.bankWord? 0 511 = some w) ∧
    (∀ dom : BitVec 8, ∃ s : State, kindOf s.run.kind = some .b1 ∧ s.run.dom = dom ∧
      (∀ j, j < Config.N .b1 → s.bankWord? 7 j ≠ none) ∧ s.bankWord? 7 0 = some 12289 ∧
      BankHolds s 0 (Config.N .b1) (fun _ => 12288) ∧ InField .b1 fun _ => 12288) ∧
    (∀ ta tb : Bool, ∃ dom : BitVec 8, tagOf dom 0 = ta ∧ tagOf dom 7 = tb) := by
  refine ⟨fun w hw => ⟨?_, fun dom => ⟨nttState dom w 0, rfl, rfl, fun j hj => ?_, ?_⟩⟩,
    fun dom => ⟨nttState dom 12288 12289, rfl, rfl, fun j hj => ?_, ?_, fun i hi => ?_, fun i _ => ?_⟩, ?_⟩
  · simp only [List.mem_cons, List.not_mem_nil, or_false] at hw
    rcases hw with rfl | rfl
    · exact .inr (by decide +kernel)
    · exact .inl (by decide +kernel)
  · rw [nttState_A _ _ _ hj]; exact Option.some_ne_none _
  · exact nttState_A _ _ _ (by decide)
  · rw [nttState_B _ _ _ hj]; exact Option.some_ne_none _
  · exact nttState_B _ _ _ (by decide)
  · exact nttState_A _ _ _ hi
  · exact q_above
  · decide

theorem test_witness_NopCompletes : (0x80000000 : Word).extractLsb' 0 8 = 0 ∧ (0x80000000 : Word) ≠ 0 := by
  decide

/-- The hypotheses of the NTT statements: a kind, any tags, and coefficients at the ends of [0, q) in both
sources. -/
theorem test_witness_Ntt (dom : BitVec 8) : ∃ s : State, kindOf s.run.kind = some .b1 ∧ s.run.dom = dom ∧
    BankHolds s 0 (Config.N .b1) (fun _ => 12288) ∧ InField .b1 (fun _ => 12288) ∧
    BankHolds s 7 (Config.N .b1) (fun _ => 0) ∧ InField .b1 fun _ => 0 :=
  ⟨nttState dom 12288 0, rfl, rfl, fun _ h => nttState_A _ _ _ h, fun _ _ => q_above, fun _ h => nttState_B _ _ _ h, fun _ _ => Q_pos_b1⟩

theorem test_witness_NttNegAndModqReduce : ∃ s : State, kindOf s.run.kind = some .b1 ∧
    ∀ i, i < Config.N .b1 → s.bankWord? 0 i = some ((fun _ => 0x80000000) i) :=
  ⟨nttState 0 0x80000000 0, rfl, fun _ h => nttState_A _ _ _ h⟩

theorem evalOdd_one (k : Kind) (j : Nat) : evalOdd k (fun i => if i = 0 then 1 else 0) j = 1 := by
  have h := N_pos k
  have hq := Q_pos k
  unfold evalOdd
  rw [Finset.sum_eq_single 0]
  · simpa using Nat.mod_eq_of_lt hq
  · intro i _ hi
    simp [hi]
  · intro h0
    exact absurd (Finset.mem_range.2 h) h0

theorem evalOdd_zero (k : Kind) (j : Nat) : evalOdd k (fun _ => 0) j = 0 := by
  simp [evalOdd]

/-- The words of the polynomial 1. -/
def oneWords : List Word := (List.range 512).map fun i => BitVec.ofNat 32 (if i = 0 then 1 else 0)

theorem oneWords_length : oneWords.length = 512 := by
  rw [oneWords, List.length_map, List.length_range]

theorem oneWords_get {i : Nat} (h : i < oneWords.length) :
    oneWords[i] = BitVec.ofNat 32 (if i = 0 then 1 else 0) := by
  simp only [oneWords, List.getElem_map, List.getElem_range]

/-- An invertible source (the polynomial 1) and one that is not (0), both legal. -/
theorem test_witness_NttInvertInvertsTheTransform :
    (∃ (s : State) (v : Nat → Nat), kindOf s.run.kind = some .b1 ∧ tagOf s.run.dom 0 = false ∧
      BankHolds s 0 (Config.N .b1) v ∧ InField .b1 v ∧ ∀ j, j < Config.N .b1 → evalOdd .b1 v j ≠ 0) ∧
    (∃ (s : State) (v : Nat → Nat), kindOf s.run.kind = some .b1 ∧ tagOf s.run.dom 0 = false ∧
      BankHolds s 0 (Config.N .b1) v ∧ InField .b1 v ∧ evalOdd .b1 v 511 = 0) := by
  refine ⟨⟨withBanks (running 0 1 0 0 0) 0 7 oneWords [], fun i => if i = 0 then 1 else 0, rfl, by decide,
      fun i hi => ?_, fun i _ => ?_, fun j _ => by rw [evalOdd_one]; decide⟩,
    nttState 0 0 0, fun _ => 0, rfl, by decide, fun _ h => nttState_A _ _ _ h, fun _ _ => Q_pos_b1,
    evalOdd_zero _ _⟩
  · have h' : i < oneWords.length := by rw [oneWords_length]; exact hi
    rw [withBanks_A _ _ _ _ _ h', oneWords_get]
  · show (if i = 0 then 1 else 0) < 12289
    split <;> omega

/-- B holds the transform of the polynomial 1 (every word 1), A any legal polynomial. -/
theorem test_witness_NttMulIsTheNegacyclicProduct : ∃ (s : State) (v w : Nat → Nat),
    kindOf s.run.kind = some .b1 ∧ tagOf s.run.dom 0 = false ∧ tagOf s.run.dom 7 = true ∧
    BankHolds s 0 (Config.N .b1) v ∧ InField .b1 v ∧ InField .b1 w ∧
    BankHolds s 7 (Config.N .b1) (evalOdd .b1 w) :=
  ⟨nttState 0x80 12288 1, fun _ => 12288, fun i => if i = 0 then 1 else 0, rfl, by decide, by decide,
    fun _ h => nttState_A _ _ _ h, fun _ _ => q_above, fun i _ => by
      show (if i = 0 then 1 else 0) < 12289
      split <;> omega, fun i h => by
      rw [evalOdd_one]
      exact nttState_B _ _ _ h⟩

theorem nttZero_read :
    (nttState 0 0 0).readBank 0 (Config.ring .b1).n = some (List.replicate 512 0) :=
  State.readBank_eq_some.2 ⟨List.length_replicate, fun i hi => by
    rw [nttState_A _ _ _ hi, List.getElem?_replicate]
    exact (if_pos hi).symm⟩

theorem nttZero_inRange :
    (List.replicate 512 (0 : Word)).all (inRange (Config.ring .b1).q) = true := by
  rw [List.all_eq_true]
  intro w hm
  rw [List.eq_of_mem_replicate hm]
  decide

theorem nttZero_fwd : ∃ t, exec (.nttFwd 3 0) (nttState 0 0 0) = .next t := by
  rw [exec, execNttFwd, withKind_some (k := .b1) rfl,
    withTag_right (show tagOf 0 0 = false by decide), withCoeffs_some nttZero_read nttZero_inRange]
  exact ⟨_, rfl⟩

/-- The second command of the inverse law, in a state whose source is the first one's destination. -/
theorem test_witness_NttInvAfterFwdRestores : ∃ (s t u : State) (v : Nat → Nat),
    kindOf s.run.kind = some .b1 ∧ tagOf s.run.dom 0 = false ∧ BankHolds s 0 (Config.N .b1) v ∧
    InField .b1 v ∧ exec (.nttFwd 3 0) s = .next t ∧
    (∀ i, i < Config.N .b1 → u.bankWord? 3 i = t.bankWord? 3 i) ∧ kindOf u.run.kind = some .b1 ∧
    tagOf u.run.dom 3 = true := by
  obtain ⟨t, ht⟩ := nttZero_fwd
  obtain ⟨l, hl, hd⟩ : ∃ l : Latched, kindOf l.kind = some .b1 ∧ tagOf l.dom 3 = true :=
    ⟨{ Latched.reset with kind := 1, dom := 0xFF }, rfl, by decide⟩
  exact ⟨nttState 0 0 0, t, { t with run := l }, fun _ => 0, rfl, by decide,
    fun _ h => nttState_A _ _ _ h, fun _ _ => Q_pos_b1, ht, fun _ _ => by simp only [State.bankWord?],
    hl, hd⟩

theorem test_witness_FftLoopComputesTheClosedForm : ∃ v : List Nat, v.length = Config.N .b1 ∧
    ∀ c ∈ v, c < Config.Q .b1 :=
  ⟨List.replicate 512 12288, List.length_replicate, fun c h => by
    rw [List.eq_of_mem_replicate h]; show 12288 < 12289; omega⟩

theorem test_witness_EntDraws : ∃ s : State, s.run.drawn = [] ∧ s.run.a0 = 0 := ⟨running 0x22 0 0 0 0, rfl, rfl⟩

theorem test_witness_EntBitsDrawsThenCommits :
    (∃ s : State, s.run.drawn = [] ∧ s.run.a0.toNat = 1) ∧
    (∃ s : State, s.run.drawn = [] ∧ s.run.a0.toNat = 32) :=
  ⟨⟨running 0x22 0 1 0 0, by decide⟩, running 0x22 0 32 0 0, by decide⟩

theorem test_witness_FastAndSlowBits :
    (∃ e : Entropy, 32 ≤ e.bitavail) ∧ (∃ e : Entropy, e.bitavail < 1) ∧
    (∃ e : Entropy, e.bitavail ≠ 0) ∧ (∃ e : Entropy, e.bitavail = 0) :=
  ⟨⟨bitsE1, by decide⟩, ⟨Entropy.reset, by decide⟩, ⟨bitsE1, by decide⟩, Entropy.reset, rfl⟩

theorem test_witness_PoolDrawsFollowTheHash :
    (∃ (p : PoolParams) (e : Entropy), 1 ≤ p.blocks ∧
      e.bpos = 64 * p.blocks ∧ e.hpos = 32 * p.blocks ∧ e.wpos = 8 * p.blocks) ∧
    (∃ (p : PoolParams) (e : Entropy), 1 ≤ p.blocks ∧
      e.bpos < 64 * p.blocks ∧ e.hpos < 32 * p.blocks ∧ e.wpos < 8 * p.blocks) :=
  ⟨⟨Config.pool, Entropy.reset, Nat.succ_le_succ (Nat.zero_le _), rfl, rfl, rfl⟩,
    toyPool, { Entropy.reset with bpos := 639, hpos := 319, wpos := 79 }, by decide⟩

theorem test_witness_BernoulliComparesWithTheRow :
    (1 ≤ toy.cols ∧ [(0xC0 : Byte)].length = toy.cols) ∧
    (([] : List Byte).length < toy.cols ∧ ∀ j, j < ([] : List Byte).length → [].getD j 0 = toy.cdt 0 j) :=
  ⟨by decide, by decide, fun _ h => absurd h (Nat.not_lt_zero _)⟩

/-- The draws that equal the row in every byte decide it; no draw yet does not. -/
theorem test_witness_SmpBerComparesByteByByte :
    (∃ (s : State) (us : List Byte), kindOf s.run.kind = some .b4 ∧
      s.run.a0.toNat < Config.ELL .b4 ∧ s.run.drawn = byteDraws us ∧ us.length ≤ Config.COLS .b4 ∧
      (∀ j, j + 1 < us.length → us.getD j 0 = Config.CDT .b4 s.run.a0.toNat j) ∧ us ≠ [] ∧
      us.length = Config.COLS .b4) ∧
    (∃ (s : State) (us : List Byte), kindOf s.run.kind = some .b4 ∧
      s.run.a0.toNat < Config.ELL .b4 ∧ s.run.drawn = byteDraws us ∧ us = [] ∧
      us.length < Config.COLS .b4) := by
  have hl : Config.ELL .b4 = Config.ellRaw .b4 % 32 + 1 := rfl
  have hc : Config.COLS .b4 = Config.colsRaw .b4 + 1 := rfl
  have h0 : ((running 0x13 4 0 0 0).run.a0).toNat = 0 := rfl
  refine ⟨⟨withDrawn (running 0x13 4 0 0 0) (byteDraws ((List.range (Config.COLS .b4)).map (Config.CDT .b4 0))),
      (List.range (Config.COLS .b4)).map (Config.CDT .b4 0), rfl, ?_, rfl, by simp, ?_, ?_, by simp⟩,
    running 0x13 4 0 0 0, [], rfl, ?_, rfl, rfl, ?_⟩
  · show 0 < Config.ELL .b4
    omega
  · intro j hj
    rw [List.length_map, List.length_range] at hj
    show _ = Config.CDT .b4 0 j
    simp [List.getD, show j < Config.COLS .b4 by omega]
  · rw [hc, Ne, List.map_eq_nil_iff, List.range_eq_nil]
    omega
  · show 0 < Config.ELL .b4
    omega
  · show 0 < Config.COLS .b4
    omega

theorem test_witness_BernoulliExpIsBounded :
    toy.ell ≤ 32 ∧ (∃ ds : List DWord, toy.ell * toy.cols ≤ ds.length) ∧
    (∀ i, i < toy.ell → (8 : Word).getLsbD i = (0 : Word).getLsbD i) ∧
    (∀ i, i < toy.ell → (8 : Word).getLsbD i = false) ∧
    ((2 < toy.ell ∧ (5 : Word).getLsbD 2 = true ∧ ∀ j, 2 < j → j < toy.ell → (5 : Word).getLsbD j = false) ∧
      bernoulli toy 2 [] = .need .byte ∧ bernoulli toy 2 [0x41] = .done false [] ∧
      bernoulli toy 2 [0x40] = .done true []) ∧
    (∃ s : State, kindOf s.run.kind = some .b0 ∧ ∀ i, i < Config.ELL .b0 → s.run.a0.getLsbD i = false) ∧
    (∃ s : State, kindOf s.run.kind = some .b4 ∧ s.run.a0 = 0x80000000) :=
  ⟨by decide, ⟨[0, 0, 0], by decide⟩, by decide, by decide,
    ⟨⟨by decide, by decide, fun j h h' => by have : j < 3 := h'; omega⟩, rfl, rfl, rfl⟩,
    ⟨running 0x14 0 0 0 0, rfl, fun i _ => by simp [running]⟩, running 0x15 4 0x80000000 0 0, rfl, rfl⟩

/-- S7 to S9: each outcome of the loop, and the places where it needs a draw. -/
theorem test_witness_BernoulliCoshLoop :
    (4 : Word).toNat = 2 * (0xFFFFFFFE : Word).toInt.natAbs % 2 ^ 32 ∧
    bernoulliExp toy 4 [0x00] = .done true [] ∧
    bernoulliExp toy 4 [0x50, 1, 0x00] = .done false [1, 0x00] ∧
    bernoulliExp toy 4 [0x50, 0, 0x41] = .done false [0, 0x41] ∧
    bernoulliExp toy 4 [0x41] = .done false [] ∧ bernoulliExp toy 4 [0x40, 0x00] = .done true [0x00] ∧
    bernoulliExp toy 4 [] = .need .byte ∧ bernoulliExp toy 4 [0x50] = .done false [] :=
  ⟨by decide, rfl, rfl, rfl, rfl, rfl, rfl, rfl⟩

theorem test_witness_PositiveBinaryPatterns :
    ((5 : DWord).setWidth 32 ≠ (0 : Word) ∧ (5 : DWord).setWidth 32 ≠ (1 : Word)) ∧
    positiveBinary [1, 0] = .done 1 [] := ⟨by decide, rfl⟩

/-- S16 to S18, cut into the procedures they call; and a residue without a draw. -/
theorem test_witness_GaussCombinesItsDraws :
    (1 ≤ toy.ksigma ∧ positiveBinary [0, 3, 1, 0x00, 1] = .done 0 [3, 1, 0x00, 1] ∧
      ResidueIs toy [3, 1, 0x00, 1] 1 [0x00, 1] ∧
      bernoulliExp toy (BitVec.ofNat 32 (1 * (1 + 2 * toy.ksigma * 0))) [0x00, 1] = .done true [1] ∧
      bernoulliExp toy (BitVec.ofNat 32 (1 * (1 + 2 * toy.ksigma * 0))) [0xFF, 1] = .done false [1] ∧
      bernoulliExp toy (BitVec.ofNat 32 (1 * (1 + 2 * toy.ksigma * 0))) [0x00] = .done true [] ∧
      bernoulliExp toy (BitVec.ofNat 32 (1 * (1 + 2 * toy.ksigma * 0))) [] = .need .byte) ∧
    (positiveBinary [0, 0, 0, 1] = .done 0 [0, 0, 1] ∧ ResidueIs toy [0, 0, 1] 0 [0, 1] ∧
      bernoulliExp toy (BitVec.ofNat 32 (0 * (0 + 2 * toy.ksigma * 0))) [0, 1] = .done true [0, 1]) ∧
    (positiveBinary [] = .need .bit ∧ positiveBinary [0, 3] = .done 0 [3] ∧ toy.ksigmaBits ≠ 0 ∧
      ∀ r ∈ [(3 : DWord)], toy.ksigma ≤ (r.setWidth 32).toNat) ∧
    ResidueIs { toy with ksigma := 1, ksigmaBits := 0 } [1] 0 [1] := by
  refine ⟨⟨by decide, rfl, .inr ⟨by decide, [3], 1, rfl, ?_, by decide, by decide⟩, rfl, rfl, rfl, rfl⟩,
    ⟨rfl, .inr ⟨by decide, [], 0, rfl, by simp, by decide, by decide⟩, rfl⟩,
    ⟨rfl, rfl, by decide, ?_⟩, .inl ⟨rfl, rfl, rfl⟩⟩ <;>
  exact fun r h => by rw [List.mem_singleton.1 h]; decide

/-- Draws on which `Gauss()` is done for every kind, whatever its OPEN parameters: x = 0, y = 0, the
acceptance value 0 accepts without a draw, and the bit 1 gives z = 0. -/
theorem gauss_done (k : Kind) : ∃ ds rest, gauss (Config.sampler k) ds = .done 0 rest := by
  have hb : bernoulliExp (Config.sampler k) 0 [1] = .done true [1] := by
    have h (n : Nat) : bernoulliRows (Config.sampler k) 0 n [1] = .done true [1] := by
      induction n with
      | zero => rfl
      | succ n ih => rw [bernoulliRows, if_neg (by simp)]; exact ih
    exact h 32
  by_cases h0 : Config.KSIGMABITS k = 0
  · have hr : residue (Config.sampler k) [1] = .done 0 [1] := by
      show residueLoop (Config.sampler k) 2 [1] = _
      rw [residueLoop, Sampler.andThen_done (v := 0) (rest := [1])]
      · rfl
      · unfold drawBits
        rw [if_pos (show (Config.sampler k).ksigmaBits = 0 from h0)]
    refine ⟨[0, 1], [], ?_⟩
    show gaussLoop (Config.sampler k) 3 [0, 1] = _
    rw [gaussLoop, Sampler.andThen_done (show positiveBinary [0, 1] = .done 0 [1] from rfl),
      Sampler.andThen_done hr]
    rw [show acceptValue (Config.sampler k) 0 0 = 0 by simp [acceptValue],
      Sampler.andThen_done hb, if_pos rfl, Sampler.andThen_done (show drawBit [1] = .done true [] from rfl)]
    simp
  · have hr : residue (Config.sampler k) [0, 1] = .done 0 [1] := by
      show residueLoop (Config.sampler k) 3 [0, 1] = _
      rw [residueLoop, Sampler.andThen_done (v := 0) (rest := [1])]
      · rfl
      · unfold drawBits
        rw [if_neg (show ¬ (Config.sampler k).ksigmaBits = 0 from h0)]
        rfl
    refine ⟨[0, 0, 1], [], ?_⟩
    show gaussLoop (Config.sampler k) 4 [0, 0, 1] = _
    rw [gaussLoop, Sampler.andThen_done (show positiveBinary [0, 0, 1] = .done 0 [0, 1] from rfl),
      Sampler.andThen_done hr]
    rw [show acceptValue (Config.sampler k) 0 0 = 0 by simp [acceptValue],
      Sampler.andThen_done hb, if_pos rfl, Sampler.andThen_done (show drawBit [1] = .done true [] from rfl)]
    simp

/-- `BernoulliExp(1)` needs its first byte for every kind (R253: row 0 exists). -/
theorem bernoulliExp_need (k : Kind) : bernoulliExp (Config.sampler k) 1 [] = .need .byte := by
  have hc : Config.COLS k = Config.colsRaw k + 1 := rfl
  have h0 : Sys2Proof.Machine.bernoulli (Config.sampler k) 0 [] = .need .byte := by
    unfold Sys2Proof.Machine.bernoulli
    rw [show (Config.sampler k).cols = Config.colsRaw k + 1 from hc]
    rfl
  have h (n : Nat) : bernoulliRows (Config.sampler k) 1 (n + 1) [] = .need .byte := by
    induction n with
    | zero =>
      rw [bernoulliRows, if_pos]
      · exact Sampler.andThen_need h0
      · simp [Config.sampler, Config.ELL]
    | succ n ih => rw [bernoulliRows, if_neg]; exact ih; simp
  exact h 31

/-- Each of the four commands finds its procedure done on some draws, and in need of one on others. The last
clause, a BernoulliCosh that needs a byte, is for a kind with ELL of 2 or more: with ELL = 1 the even xx has
no row and the command never draws (R253, R254). -/
theorem test_witness_SamplerCommandsCommitTheirProcedure :
    (∃ (s : State) (rest : List DWord), kindOf s.run.kind = some .b4 ∧
      gauss (Config.sampler .b4) s.run.drawn = .done 0 rest) ∧
    (∃ s : State, kindOf s.run.kind = some .b4 ∧
      positiveBinary s.run.drawn = .done 2 []) ∧
    (∃ s : State, kindOf s.run.kind = some .b0 ∧
      bernoulliExp (Config.sampler .b0) s.run.a0 s.run.drawn = .done true []) ∧
    (∃ s : State, kindOf s.run.kind = some .b0 ∧
      bernoulliCosh (Config.sampler .b0) s.run.a0 s.run.drawn = .done true []) ∧
    (∃ s : State, kindOf s.run.kind = some .b0 ∧
      gauss (Config.sampler .b0) s.run.drawn = .need .bit ∧ positiveBinary s.run.drawn = .need .bit) ∧
    (∃ s : State, kindOf s.run.kind = some .b0 ∧
      bernoulliExp (Config.sampler .b0) s.run.a0 s.run.drawn = .need .byte) ∧
    bernoulliCosh toy 1 [] = .need .byte := by
  obtain ⟨ds, rest, h⟩ := gauss_done .b4
  have hz (k : Kind) : bernoulliExp (Config.sampler k) 0 [] = .done true [] := by
    have h (n : Nat) : bernoulliRows (Config.sampler k) 0 n [] = .done true [] := by
      induction n with
      | zero => rfl
      | succ n ih => rw [bernoulliRows, if_neg (by simp)]; exact ih
    exact h 32
  refine ⟨⟨withDrawn (running 0x11 4 0 0 0) ds, rest, rfl, h⟩,
    ⟨withDrawn (running 0x12 4 0 0 0) [1, 1, 0], rfl, rfl⟩, ⟨running 0x14 0 0 0 0, rfl, hz _⟩,
    ⟨running 0x15 0 0 0 0, rfl, ?_⟩, ⟨running 0x11 0 0 0 0, rfl, rfl, rfl⟩,
    ⟨running 0x14 0 1 0 0, rfl, bernoulliExp_need _⟩, rfl⟩
  show coshLoop (Config.sampler .b0) (coshArg 0) 1 [] = _
  rw [coshLoop, show coshArg 0 = 0 by decide, Sampler.andThen_done (hz .b0)]
  rfl

/-- The last sample of a bank, an earlier one, and one that needs its first draw. -/
theorem test_witness_SmpGaussFillsTheBank :
    (∃ (s : State) (rest : List DWord), kindOf s.run.kind = some .b1 ∧
      gauss (Config.sampler .b1) s.run.drawn = .done 0 rest ∧
      s.run.pending.length + 1 = Config.N .b1) ∧
    (∃ (s : State) (rest : List DWord), kindOf s.run.kind = some .b1 ∧
      gauss (Config.sampler .b1) s.run.drawn = .done 0 rest ∧
      s.run.pending.length + 1 < Config.N .b1) ∧
    (∃ s : State, kindOf s.run.kind = some .b1 ∧
      gauss (Config.sampler .b1) s.run.drawn = .need .bit) := by
  obtain ⟨ds, rest, h⟩ := gauss_done .b1
  let s := withDrawn (running 0x410 1 0 0 0) ds
  exact ⟨⟨{ s with run := { s.run with pending := List.replicate 511 0 } }, rest, rfl, h, by
      show (List.replicate 511 (0 : Word)).length + 1 = 512
      rw [List.length_replicate]⟩,
    ⟨s, rest, rfl, h, by show 0 + 1 < 512; decide⟩, running 0x410 1 0 0 0, rfl, rfl⟩

/-- Prefixes of the rounds that end at each place in one. -/
theorem test_witness_PosbinCanRunForever :
    ∀ ds ∈ [[], [1], [1, 1], [1, 1, 5], [(1 : DWord), 1, 5, 1]], ∃ s : State,
      kindOf s.run.kind = some .b2 ∧ s.run.drawn = ds ∧
      s.run.drawn <+: (List.replicate 3 [(1 : DWord), 1, 5]).flatten := by
  intro ds h
  refine ⟨withDrawn (running 0x12 2 0 0 0) ds, rfl, rfl, ?_⟩
  show ds <+: _
  revert ds
  decide

/-- The canonical byte of a pair denotes it, for every pair a byte denotes (R300). -/
theorem pairOf_canonByte {hi z2 : Int} (h : pairHasByte hi z2 = true) :
    pairOf (canonByte hi z2) = (hi, z2) ∧ symHi (canonByte hi z2) = hi ∧
      symZ2 (canonByte hi z2) = z2 := by
  have key : ∀ (h : Fin 16) (z : Fin 15), pairOf (canonByte h.val (z.val - 7)) =
        ((h.val : Int), (z.val : Int) - 7) ∧
      symHi (canonByte h.val (z.val - 7)) = h.val ∧ symZ2 (canonByte h.val (z.val - 7)) = z.val - 7 := by
    decide +kernel
  simp only [pairHasByte, Bool.and_eq_true, decide_eq_true_eq] at h
  have h1 := key ⟨hi.toNat, by omega⟩ ⟨(z2 + 7).toNat, by omega⟩
  simp only [show ((hi.toNat : Nat) : Int) = hi by omega,
    show (((z2 + 7).toNat : Nat) : Int) - 7 = z2 by omega] at h1
  exact h1

/-- A byte's pair is one a byte denotes. -/
theorem pairHasByte_pairOf (b : Byte) : pairHasByte (pairOf b).1 (pairOf b).2 = true := by
  revert b
  decide +kernel

theorem codeLength_const (e : CodeEntry) (n : Nat) : codeLength (fun _ => e) 0 n = n * e.len := by
  simp [codeLength]

/-- `s` with the same byte in SYM[0..n-1]. -/
def withSym (s : State) (n : Nat) (b : Byte) : State := withBytes s 0x800 (List.replicate n b)

theorem withSym_sym {s : State} {n j : Nat} {b : Byte} (h : j < n) : (withSym s n b).sym? j = some b := by
  have hj : j < (List.replicate n b).length := by rw [List.length_replicate]; exact h
  show ((s.mem.write 0x800 (List.replicate n b)).byte? (0x800 + j)) = some b
  rw [Memory.byte?_write_inside hj, List.getElem_replicate]

/-- The symbols of the entry e, `count` of them, kind κ latched: they meet the hypotheses of a success where
the stream fits, and of an overflow at symbol m where it does not. -/
theorem encodable {c : CodecParams} {e : CodeEntry} (he : e ∈ c.book) (hb : pairHasByte e.hi e.z2 = true)
    (κ : BitVec 3) {count : Nat} (h1 : 1 ≤ count) (hn : count ≤ c.n) (h512 : count ≤ 512) :
    ∃ (s : State) (b : Byte), s.run.kind = κ ∧ s.run.a0.toNat = count ∧ 1 ≤ s.run.a0.toNat ∧
      s.run.a0.toNat ≤ c.n ∧ (∀ j, j < s.run.a0.toNat → s.sym? j = some b ∧ Encodes c.book b e) ∧
      ∀ m, codeLength (fun _ => e) 0 m = m * e.len := by
  have ha : (BitVec.ofNat 32 count).toNat = count := by rw [BitVec.toNat_ofNat]; omega
  refine ⟨withSym (running 0x30 κ (BitVec.ofNat 32 count) 0 0) count (canonByte e.hi e.z2), _, rfl, ha,
    ?_, ?_, fun j hj => ⟨withSym_sym ?_, he, (pairOf_canonByte hb).1.symm⟩, codeLength_const e⟩
  · exact le_of_le_of_eq h1 ha.symm
  · exact le_of_eq_of_le ha hn
  · exact Nat.lt_of_lt_of_eq hj ha

theorem admitted_bookA : Admitted ⟨bookA, 4095, 512⟩ := ⟨by decide, by decide, by decide⟩

/-- A success of the encoder (the longest count, H5's symbol), the byte without an entry (H6), and the symbol
128 of 32 bits that overflows (H8, H9). -/
theorem test_witness_HufEncWritesTheStream :
    (∃ (s : State) (b : Byte) (e : CodeEntry), Admitted ⟨bookA, 4095, 512⟩ ∧ s.run.a0.toNat = 512 ∧
      (∀ j, j < s.run.a0.toNat → s.sym? j = some b ∧ Encodes bookA b e) ∧
      codeLength (fun _ => e) 0 s.run.a0.toNat ≤ 4095) ∧
    (∃ s : State, 0 < s.run.a0.toNat ∧ s.run.a0.toNat ≤ 512 ∧ s.sym? 0 = some 0x02 ∧
      Unencodable bookA 0x02) ∧
    (∃ (s : State) (b : Byte) (e : CodeEntry), Admitted ⟨[e], 4095, 512⟩ ∧ 127 < s.run.a0.toNat ∧
      s.run.a0.toNat ≤ 512 ∧ (∀ j, j < s.run.a0.toNat → s.sym? j = some b ∧ Encodes [e] b e) ∧
      codeLength (fun _ => e) 0 127 ≤ 4095 ∧ 4095 < codeLength (fun _ => e) 0 (127 + 1)) := by
  obtain ⟨s, b, _, ha, _, _, h, hl⟩ := encodable (c := ⟨bookA, 4095, 512⟩) (e := ⟨1, 0, 7, 3⟩)
    (by decide) rfl 1 (count := 512) (by omega) (by show 512 ≤ 512; omega) (by omega)
  obtain ⟨s', b', _, ha', _, _, h', hl'⟩ := encodable (c := ⟨[⟨0, 0, 0, 32⟩], 4095, 512⟩)
    (e := ⟨0, 0, 0, 32⟩) (by decide) rfl 1 (count := 512) (by omega) (by show 512 ≤ 512; omega) (by omega)
  refine ⟨⟨s, b, _, admitted_bookA, ha, h, by rw [hl, ha]; decide⟩,
    ⟨withSym (running 0x30 1 512 0 0) 1 0x02, by show 0 < 512; omega, by show 512 ≤ 512; omega,
      withSym_sym (by omega), ?_⟩,
    s', b', _, ⟨by decide, by decide, by decide⟩, by omega, by omega, h', by rw [hl']; decide,
    by rw [hl']; decide⟩
  rintro e ⟨hm, hp⟩
  simp only [bookA, List.mem_cons, List.not_mem_nil, or_false] at hm
  rcases hm with rfl | rfl | rfl | rfl <;> exact absurd hp (by decide)

/-- The command on its kind's OPEN codebook: a success where some entry has a byte, ERR_SYMBOL on every byte
where none has, and an overflow where one has a byte and 8 bits or more. -/
theorem test_witness_HufEnc_command :
    ((∃ e ∈ Config.HUFF .b1, pairHasByte e.hi e.z2 = true) → ∃ (s : State) (b : Byte) (e : CodeEntry),
      kindOf s.run.kind = some .b1 ∧ s.run.a0.toNat = 1 ∧ 1 ≤ Config.N .b1 ∧
      (∀ j, j < s.run.a0.toNat → s.sym? j = some b ∧ Encodes (Config.HUFF .b1) b e) ∧
      codeLength (fun _ => e) 0 s.run.a0.toNat ≤ Config.LMAX .b1) ∧
    ((¬ ∃ e ∈ Config.HUFF .b1, pairHasByte e.hi e.z2 = true) → ∃ s : State,
      kindOf s.run.kind = some .b1 ∧ 0 < s.run.a0.toNat ∧ s.run.a0.toNat ≤ Config.N .b1 ∧
      s.sym? 0 = some 0 ∧ Unencodable (Config.HUFF .b1) 0) ∧
    (∀ e ∈ Config.HUFF .b1, pairHasByte e.hi e.z2 = true → 8 ≤ e.len → ∃ (s : State) (m : Nat) (b : Byte),
      kindOf s.run.kind = some .b1 ∧ m < s.run.a0.toNat ∧ s.run.a0.toNat ≤ Config.N .b1 ∧
      (∀ j, j < s.run.a0.toNat → s.sym? j = some b ∧ Encodes (Config.HUFF .b1) b e) ∧
      codeLength (fun _ => e) 0 m ≤ Config.LMAX .b1 ∧
      Config.LMAX .b1 < codeLength (fun _ => e) 0 (m + 1)) := by
  have hN : (Config.codec .b1).n = 512 := rfl
  have hL : Config.LMAX .b1 = 4095 := LMAX_eq .b1
  refine ⟨fun ⟨e, he, hb⟩ => ?_, fun hno => ⟨withSym (running 0x30 1 512 0 0) 1 0, rfl,
      by show 0 < 512; omega, by show 512 ≤ 512; omega, withSym_sym (by omega), fun e he => ?_⟩,
    fun e he hb hl => ?_⟩
  · obtain ⟨s, b, hk, ha, _, _, h, hl⟩ :=
      encodable (c := Config.codec .b1) he hb 1 (count := 1) (by omega) (by omega) (by omega)
    have h2 := (codebookValid_entry (HUFF_valid .b1) he).2.1
    exact ⟨s, b, e, by rw [hk]; rfl, ha, by decide, h, by rw [hl, ha, hL]; omega⟩
  · refine hno ⟨e, he.1, ?_⟩
    have h := pairHasByte_pairOf 0
    rw [← he.2] at h
    exact h
  · obtain ⟨s, b, hk, ha, _, _, h, hc⟩ :=
      encodable (c := Config.codec .b1) he hb 1 (count := 512) (by omega) (by omega) (by omega)
    have hd : 4095 / e.len < 512 := Nat.div_lt_of_lt_mul (by omega)
    have hm := Nat.div_add_mod 4095 e.len
    have hr := Nat.mod_lt 4095 (show 0 < e.len by omega)
    refine ⟨s, 4095 / e.len, b, by rw [hk]; rfl, by omega, ?_, h, ?_, ?_⟩
    · rw [ha]; decide
    · rw [hc, hL, Nat.mul_comm]
      omega
    · rw [hc, hL, Nat.add_mul, Nat.mul_comm]
      omega

/-- A stream of one codeword (bookA's `10`), its pad set; and the empty stream, which is corrupt, for bookA
and for every kind's own codebook. -/
theorem test_witness_HufDecReadsTheStream :
    (∃ (s : State) (code : Nat → Byte) (es : Nat → CodeEntry), kindOf s.run.kind = some .b1 ∧
      s.run.a0.toNat ≤ 4095 ∧ 1 ≤ s.run.a1.toNat ∧ s.run.a1.toNat ≤ 512 ∧
      (∀ j, j < (s.run.a0.toNat + 7) / 8 → s.code? j = some (code j)) ∧
      IsStream bookA code s.run.a0.toNat s.run.a1.toNat es) ∧
    (∀ k : Kind, ∃ (s : State) (code : Nat → Byte), kindOf s.run.kind = some k ∧
      s.run.a0.toNat ≤ Config.LMAX k ∧ 1 ≤ s.run.a1.toNat ∧ s.run.a1.toNat ≤ Config.N k ∧
      (∀ j, j < (s.run.a0.toNat + 7) / 8 → s.code? j = some (code j)) ∧
      ∀ book, codebookValid book = true → ¬ ∃ es, IsStream book code s.run.a0.toNat s.run.a1.toNat es) := by
  refine ⟨⟨withBytes (running 0x31 1 2 1 0) 0xC00 [0xFE], fun _ => 0xFE, fun _ => ⟨0, 1, 2, 2⟩, rfl,
    by decide, by decide, by decide, ?_, fun _ _ => (by decide : (⟨0, 1, 2, 2⟩ : CodeEntry) ∈ bookA ∧ (0 : Int) ≤ 0 ∧ (0 : Int) ≤ 15 ∧
      (-7 : Int) ≤ 1 ∧ (1 : Int) ≤ 7), ?_, ?_⟩, fun k => ?_⟩
  · intro j hj
    have hj : j < 1 := hj
    obtain rfl : j = 0 := by omega
    rfl
  · show codeLength _ 0 1 = 2
    rw [codeLength_const]
    rfl
  · show codeNumber _ 2 % 2 ^ 2 = streamNumber _ 1
    simp [codeNumber, streamNumber, codeLength]
  · obtain ⟨κ, hκ⟩ : ∃ κ : BitVec 3, kindOf κ = some k := by
      cases k
      · exact ⟨0, rfl⟩
      · exact ⟨1, rfl⟩
      · exact ⟨2, rfl⟩
      · exact ⟨3, rfl⟩
      · exact ⟨4, rfl⟩
    refine ⟨running 0x31 κ 0 1 0, fun _ => 0, hκ, Nat.zero_le _, Nat.le_refl _, N_pos k,
      fun j hj => absurd (show j < (0 + 7) / 8 from hj) (by omega), ?_⟩
    rintro book hv ⟨es, h, hl, _⟩
    have := (codebookValid_entry hv (h 0 (show 0 < 1 by omega)).1).1
    rw [show codeLength es 0 _ = (es 0).len by
      show codeLength es 0 1 = _
      simp [codeLength]] at hl
    have hl : (es 0).len = 0 := hl
    omega

/-- What the round trip needs of an encoding of one symbol, whatever the codebook. -/
theorem roundTrip_met {c : CodecParams} {e : CodeEntry} (hv : codebookValid c.book = true)
    (he : e ∈ c.book) (hb : pairHasByte e.hi e.z2 = true) (hn : 1 ≤ c.n) (hl : 32 ≤ c.lmax) (κ : BitVec 3) :
    ∃ (s t u : State) (b : Nat → Byte), s.run.kind = κ ∧ u.run.kind = κ ∧
      (∀ j, j < s.run.a0.toNat → s.sym? j = some (b j)) ∧ hufEnc c s = .next t ∧
      t.status.err = false ∧ u.run.a0 = t.result0 ∧ u.run.a1 = s.run.a0 ∧
      ∀ j, j < 512 → u.code? j = t.code? j := by
  let s := withSym (running 0x30 κ 1 0 0) 1 (canonByte e.hi e.z2)
  have hs : s.sym? 0 = some (canonByte e.hi e.z2) := withSym_sym (by omega)
  obtain ⟨e', he'⟩ : ∃ e', entryOfByte c.book (canonByte e.hi e.z2) = some e' := by
    refine Option.isSome_iff_exists.1 (List.find?_isSome.2 ⟨e, he, ?_⟩)
    rw [(pairOf_canonByte hb).2.1, (pairOf_canonByte hb).2.2]
    simp
  have hle := (codebookValid_entry hv (List.mem_of_find?_eq_some he')).2.1
  have hE : encodeFrom c.book c.lmax s.sym? 1 0 0 0 =
      .stream (0 * 2 ^ e'.len + e'.value) (0 + e'.len) := by
    rw [encodeFrom, hs]
    simp only [he']
    rw [if_neg (by omega)]
    rfl
  have hx : ∃ t, hufEnc c s = .next t ∧ t.status.err = false := by
    rw [hufEnc, withArg_legal (by rw [show s.run.a0.toNat = 1 from rfl]; simp [hn]),
      show s.run.a0.toNat = 1 from rfl, hE]
    exact ⟨_, rfl, rfl⟩
  obtain ⟨t, ht, hte⟩ := hx
  exact ⟨s, t, { t with run := { Latched.reset with kind := κ, a0 := t.result0, a1 := 1 } },
    fun _ => canonByte e.hi e.z2, rfl, rfl, fun j hj => withSym_sym hj, ht, hte, rfl, rfl, fun _ _ => rfl⟩

/-- The codec on bookA, and the commands where some entry of the OPEN codebook has a byte. -/
theorem test_witness_HuffmanRoundTrip :
    (∃ (s t u : State) (b : Nat → Byte), Admitted ⟨bookA, 4095, 512⟩ ∧
      (∀ j, j < s.run.a0.toNat → s.sym? j = some (b j)) ∧ hufEnc ⟨bookA, 4095, 512⟩ s = .next t ∧
      t.status.err = false ∧ u.run.a0 = t.result0 ∧ u.run.a1 = s.run.a0 ∧
      ∀ j, j < 512 → u.code? j = t.code? j) ∧
    ((∃ e ∈ Config.HUFF .b1, pairHasByte e.hi e.z2 = true) → ∃ (s t u : State) (b : Nat → Byte),
      kindOf s.run.kind = some .b1 ∧ kindOf u.run.kind = some .b1 ∧
      (∀ j, j < s.run.a0.toNat → s.sym? j = some (b j)) ∧ exec .hufEnc s = .next t ∧
      t.status.err = false ∧ u.run.a0 = t.result0 ∧ u.run.a1 = s.run.a0 ∧
      ∀ j, j < 512 → u.code? j = t.code? j) := by
  refine ⟨?_, fun ⟨e, he, hb⟩ => ?_⟩
  · obtain ⟨s, t, u, b, _, _, h⟩ := roundTrip_met (c := ⟨bookA, 4095, 512⟩) (e := ⟨1, 0, 7, 3⟩)
      (by decide) (by decide) rfl (by decide) (by decide) 1
    exact ⟨s, t, u, b, admitted_bookA, h⟩
  · obtain ⟨s, t, u, b, hk, hk', h1, h2, h⟩ := roundTrip_met (c := Config.codec .b1) (HUFF_valid .b1) he hb
      (N_pos .b1) (by show 32 ≤ Config.LMAX .b1; rw [LMAX_eq]; decide) 1
    refine ⟨s, t, u, b, by rw [hk]; rfl, by rw [hk']; rfl, h1, ?_, h⟩
    rw [exec, execHufEnc, withKind_some (k := .b1) (by rw [hk]; rfl)]
    exact h2

end Sys2Proof.Tests
end

section
/-! SUPPORT. The register map and the host's accesses (20_memory.md R82, R89; 10_state.md R39): what a read of
a register answers, which writes are ignored, and what no host write changes. -/

namespace Sys2Proof.Machine

open Sys2Proof.Claims

/-! ### The register map -/

theorem targetAt_seed (j : Fin 16) : targetAt (0x40 + 4 * j.val) = some (.seed j) := by
  revert j
  decide

theorem targetAt_reserved (j : Fin 4) : targetAt (0x30 + 4 * j.val) = some .reserved := by
  revert j
  decide

theorem isStore_memoryWord {a : Nat} (h : MemoryWord a) : isStore a = true := by
  obtain ⟨_, h⟩ := h
  simp only [isStore, Bool.or_eq_true, Bool.and_eq_true, decide_eq_true_eq]
  omega

theorem targetAt_memoryWord {a : Nat} (h : MemoryWord a) : targetAt a = some (.store a) := by
  have hs := isStore_memoryWord h
  obtain ⟨_, h⟩ := h
  rw [targetAt, if_neg (by omega), if_neg (by omega), if_pos hs]

/-- The word number of a register that has an offset of its own (R82). -/
def Target.registerNumber : Target → Option Nat
  | .id => some 0
  | .version => some 1
  | .ctrl => some 2
  | .status => some 3
  | .cmd => some 4
  | .domain => some 5
  | .arg0 => some 6
  | .arg1 => some 7
  | .result0 => some 8
  | .result1 => some 9
  | .paramQ => some 10
  | .paramN => some 11
  | .reserved | .seed _ | .store _ => none

/-- Each register stands at one offset only. -/
theorem targetAt_registerNumber {a n : Nat} {t : Target} (h : targetAt a = some t)
    (hn : t.registerNumber = some n) : a / 4 = n := by
  unfold targetAt at h
  split at h
  · split at h <;> cases h <;> cases hn <;> assumption
  · split at h
    · cases h; cases hn
    · split at h <;> cases h; cases hn

/-- A write to a register with an offset of its own is a word write at that offset. -/
theorem isWrite_of_target {r : BusReq} {t : Target} {n : Nat} (hw : r.write = true)
    (h : r.target = some t) (hn : t.registerNumber = some n) : IsWrite r (4 * n) r.wdata := by
  obtain ⟨hsize, halign, ht⟩ := BusReq.target_some h
  have := targetAt_registerNumber ht hn
  exact ⟨hsize, hw, by omega, rfl⟩

/-! ### Accesses at a mapped offset -/

theorem target_of_word {r : BusReq} {o : Nat} {t : Target} (hsize : r.size = .word)
    (haddr : r.addr.toNat = o) (hal : o % 4 = 0) (ht : targetAt o = some t) : r.target = some t := by
  rw [BusReq.target, if_pos ⟨hsize, by rw [haddr]; exact hal⟩, haddr, ht]

theorem busAccess_of_isRead {r : BusReq} {o : Nat} {t : Target} (h : IsRead r o) (hal : o % 4 = 0)
    (ht : targetAt o = some t) (s : State) : busAccess r s = busRead t s := by
  obtain ⟨hsize, hwrite, haddr⟩ := h
  simp [busAccess, target_of_word hsize haddr hal ht, hwrite]

theorem busAccess_of_isWrite {r : BusReq} {o : Nat} {w : Word} {t : Target} (h : IsWrite r o w)
    (hal : o % 4 = 0) (ht : targetAt o = some t) (s : State) :
    busAccess r s = .next { s.busStore t w with resp := .writeDone } := by
  obtain ⟨hsize, hwrite, haddr, hdata⟩ := h
  simp [busAccess, target_of_word hsize haddr hal ht, hwrite, hdata]

/-- A register the engine never owns reads as its value at any time (R89). -/
theorem answers_regValue {r : BusReq} {o : Nat} {t : Target} (h : IsRead r o) (hal : o % 4 = 0)
    (ht : targetAt o = some t) (hown : t.engineOwned = false) (s : State) :
    Answers s r (s.regValue t) := by
  rw [Answers, busAccess_of_isRead h hal ht]
  cases t with
  | domain | store => cases hown
  | _ => rfl

/-- `DOMAIN` reads as its value while the engine is idle (R37, R88). -/
theorem answers_domain {r : BusReq} {s : State} (h : IsRead r 0x14) (hidle : s.status.busy = false) :
    Answers s r (s.domain.setWidth 32) := by
  rw [Answers, busAccess_of_isRead h rfl rfl]
  simp [busRead, hidle, State.answer, State.regValue]

/-! ### Writes -/

/-- The targets a host write leaves as they are (R39). -/
def Target.readOnly : Target → Bool
  | .id | .version | .result0 | .result1 | .paramQ | .paramN | .reserved => true
  | _ => false

theorem State.busStore_readOnly {t : Target} (h : t.readOnly = true) (s : State) (w : Word) :
    s.busStore t w = s := by
  cases t with
  | id | version | result0 | result1 | paramQ | paramN | reserved => rfl
  | ctrl | status | cmd | domain | arg0 | arg1 | seed | store => cases h

/-- A write of a read-only or reserved register is answered and ignored (R39). -/
theorem busAccess_readOnly_write {r : BusReq} {o : Nat} {w : Word} {t : Target} (h : IsWrite r o w)
    (hal : o % 4 = 0) (ht : targetAt o = some t) (hro : t.readOnly = true) (s : State) :
    busAccess r s = .next { s with resp := .writeDone } := by
  rw [busAccess_of_isWrite h hal ht, State.busStore_readOnly hro]

/-- A write of `CTRL` stores its fields, and ends a running command when it asks for an abort (R42, R356). -/
theorem State.writeCtrl_cases (s : State) (w : Word) :
    s.writeCtrl w = { s with ctrl := Ctrl.ofWord w } ∨
    (abortBit w = true ∧ s.status.busy = true ∧
      s.writeCtrl w = State.fail { s with ctrl := Ctrl.ofWord w } .aborted) := by
  rw [State.writeCtrl]
  split
  · rename_i h
    rw [Bool.and_eq_true] at h
    exact .inr ⟨h.1, h.2, rfl⟩
  · exact .inl rfl

theorem State.writeCtrl_domain (s : State) (w : Word) : (s.writeCtrl w).domain = s.domain := by
  obtain h | ⟨_, _, h⟩ := s.writeCtrl_cases w <;> rw [h]
  rfl

theorem State.resultsKept_writeCtrl (s : State) (w : Word) : ResultsKept s (s.writeCtrl w) := by
  obtain h | ⟨_, _, h⟩ := s.writeCtrl_cases w <;> rw [h] <;> exact ⟨rfl, rfl⟩

/-- No host write changes a result (R46). -/
theorem State.resultsKept_busStore (s : State) (t : Target) (w : Word) :
    ResultsKept s (s.busStore t w) := by
  obtain h | ⟨_, h⟩ | ⟨_, h⟩ | ⟨_, h⟩ | ⟨_, _, _, h⟩ | ⟨_, _, h⟩ | ⟨_, _, _, h⟩ | ⟨_, _, _, h⟩ :=
    busStore_cases s t w <;> rw [h]
  -- the third case is a write of `CTRL`, which can end a command
  case inr.inr.inl => exact s.resultsKept_writeCtrl w
  all_goals exact ⟨rfl, rfl⟩

/-- A host write changes the tags only when it is of `DOMAIN` and the engine is idle (R37, R38). -/
theorem State.domain_busStore (s : State) (t : Target) (w : Word) :
    (s.busStore t w).domain = s.domain ∨ t = .domain ∧ s.status.busy = false := by
  obtain h | ⟨_, h⟩ | ⟨_, h⟩ | ⟨_, h⟩ | ⟨_, _, _, h⟩ | ⟨ht, hb, h⟩ | ⟨_, _, _, h⟩ | ⟨_, _, _, h⟩ :=
    busStore_cases s t w
  -- the third case is a write of `CTRL`, the sixth the write of `DOMAIN`
  case inr.inr.inl => rw [h]; exact .inl (s.writeCtrl_domain w)
  case inr.inr.inr.inr.inr.inl => exact .inr ⟨ht, hb⟩
  all_goals rw [h]; exact .inl rfl

/-! ### Host actions -/

/-- A host action changes a result only as reset does (R46). -/
theorem resultsKept_of_hostOp {op : HostOp} {s t : State} (h : hostOp op s = .next t) :
    t.rst = true ∨ ResultsKept s t := by
  obtain ⟨_, rfl⟩ | ⟨_, rfl⟩ | ⟨_, _, _, _, rfl⟩ | ⟨r, tg, _, _, _, _, rfl⟩ := hostOp_cases h
  · exact .inl rfl
  · exact .inr ⟨rfl, rfl⟩
  · exact .inr ⟨rfl, rfl⟩
  · exact .inr (s.resultsKept_busStore tg r.wdata)

/-- A host action changes a tag only as reset or as an idle write of `DOMAIN` (R38). -/
theorem domain_of_hostOp {op : HostOp} {s t : State} (h : hostOp op s = .next t) :
    t.rst = true ∨ t.domain = s.domain ∨
      ∃ r w, op = .access r ∧ IsWrite r 0x14 w ∧ s.status.busy = false := by
  obtain ⟨_, rfl⟩ | ⟨_, rfl⟩ | ⟨_, _, _, _, rfl⟩ | ⟨r, tg, hop, _, hw, ht, rfl⟩ := hostOp_cases h
  · exact .inl rfl
  · exact .inr (.inl rfl)
  · exact .inr (.inl rfl)
  · obtain hd | ⟨rfl, hb⟩ := s.domain_busStore tg r.wdata
    · exact .inr (.inl hd)
    · exact .inr (.inr ⟨r, _, hop, isWrite_of_target hw ht rfl, hb⟩)

end Sys2Proof.Machine
end

section
/-! SUPPORT. What a register's value is as a number (10_state.md R43, R47), and the status after reset. -/

namespace Sys2Proof.Machine

/-- Bits put below a word add to the word moved up. -/
theorem toNat_append_add {m n : Nat} (x : BitVec m) (y : BitVec n) :
    (x ++ y).toNat = 2 ^ n * x.toNat + y.toNat := by
  rw [BitVec.toNat_append, Nat.shiftLeft_eq, Nat.mul_comm, Nat.two_pow_add_eq_or_of_lt y.isLt]

theorem toNat_flagBit (b : Bool) : (flagBit b).toNat = b.toNat := BitVec.toNat_ofBool b

/-- STATUS as a number: each field at its place (R43). -/
theorem Status.toNat_word (st : Status) : st.word.toNat = st.busy.toNat + 2 * st.done.toNat +
    4 * st.err.toNat + 8 * st.ovr.toNat + 256 * st.errcode.toNat := by
  have hzero (n : Nat) : (0 : BitVec n).toNat = 0 := BitVec.toNat_zero
  simp only [Status.word, toNat_append_add, toNat_flagBit, hzero]
  omega

/-- The fields after a write of STATUS: each clears where the write holds a 1, `ERRCODE` with `ERR` (R43). -/
theorem Status.writeClear_fields (st : Status) (w : Word) : (st.writeClear w).busy = st.busy ∧
    (st.writeClear w).done = (if w.getLsbD 1 then false else st.done) ∧
    (st.writeClear w).err = (if w.getLsbD 2 then false else st.err) ∧
    (st.writeClear w).ovr = (if w.getLsbD 3 then false else st.ovr) ∧
    (st.writeClear w).errcode = (if w.getLsbD 2 then 0 else st.errcode) := by
  have clear (b c : Bool) : (b && !c) = if c then false else b := by cases b <;> cases c <;> rfl
  exact ⟨rfl, clear _ _, clear _ _, clear _ _, rfl⟩

theorem kindOf_eq_none {k : BitVec 3} (h : 4 < k.toNat) : kindOf k = none := by
  revert k
  decide

theorem toNat_paramOf {f : Kind → Nat} {c : Ctrl} {k : Kind} (hk : kindOf c.kind = some k)
    (hf : f k < 2 ^ 32) : (paramOf f c).toNat = f k := by
  simp only [paramOf, hk, BitVec.toNat_ofNat, Nat.mod_eq_of_lt hf]

theorem paramOf_invalid (f : Kind → Nat) {c : Ctrl} (h : 4 < c.kind.toNat) : paramOf f c = 0 := by
  simp only [paramOf, kindOf_eq_none h]

theorem Status.wf_reset : State.reset.status.wf :=
  ⟨(nomatch ·), fun _ => rfl, (nomatch ·)⟩

end Sys2Proof.Machine
end

section
/-! CERTIFICATES. 10_state.md: the values of the registers and their values after reset. -/

namespace Sys2Proof.Claims

open Sys2Proof.Machine

/-- Settles O10: the fields of STATUS add up to its word, and a write is the write-1-to-clear of it. -/
theorem statusReadsAndClears : Obligations.StatusReadsAndClears := by
  intro s r r' w hw hr
  refine ⟨⟨_, answers_regValue hr rfl rfl rfl s, s.status.toNat_word⟩, s.status.writeClear w, ?_,
    s.status.writeClear_fields w⟩
  exact busAccess_of_isWrite hw rfl rfl s

/-- Settles O11: every register is answered with its value. -/
theorem registersReadTheirValue : Obligations.RegistersReadTheirValue := by
  intro s r
  refine ⟨fun h => answers_regValue h rfl rfl rfl s, fun h => answers_regValue h rfl rfl rfl s,
    fun h => answers_regValue h rfl rfl rfl s,
    fun j h => answers_regValue h (by omega) (targetAt_seed j) rfl s,
    fun h hidle => ⟨_, answers_domain h hidle, BitVec.toNat_setWidth_of_le (by decide)⟩,
    fun j => ⟨fun h => answers_regValue h (by omega) (targetAt_reserved j) rfl s, fun w h => ?_⟩⟩
  exact busAccess_readOnly_write h (by omega) (targetAt_reserved j) rfl s

/-- Settles O12: the parameters of a valid kind fit a word, and all four registers are read-only. -/
theorem identityAndParameterRegisters : Obligations.IdentityAndParameterRegisters := by
  intro s r
  have hQ (k : Kind) : Config.Q k < 2 ^ 32 := Nat.lt_of_le_of_lt (Q_le k) (by decide)
  have hN (k : Kind) : Config.N k < 2 ^ 32 := Nat.lt_of_le_of_lt (N_le k) (by decide)
  refine ⟨fun h => answers_regValue h rfl rfl rfl s, fun h => answers_regValue h rfl rfl rfl s,
    fun k hk => ⟨fun h => ⟨_, answers_regValue h rfl rfl rfl s, toNat_paramOf hk (hQ k)⟩,
      fun h => ⟨_, answers_regValue h rfl rfl rfl s, toNat_paramOf hk (hN k)⟩⟩, ?_, ?_⟩
  · rintro hk (h | h)
    · rw [← paramOf_invalid Config.Q hk]
      exact answers_regValue h rfl rfl rfl s
    · rw [← paramOf_invalid Config.N hk]
      exact answers_regValue h rfl rfl rfl s
  · rintro a w h (rfl | rfl | rfl | rfl) <;> exact busAccess_readOnly_write h rfl rfl rfl s

/-- Settles O18: each register of the reset state, and its empty memory and pools. -/
theorem resetValues : Obligations.ResetValues := by
  have hseeds (j : Fin 16) : State.reset.seeds[j] = 0 := Vector.getElem_replicate _
  exact ⟨rfl, rfl, rfl, rfl, rfl, rfl, rfl, rfl, hseeds, fun _ => rfl, rfl, rfl, rfl, rfl, rfl⟩

/-- Settles O20: after reset the memory is empty, the flags are 0, the pools are empty and nothing runs. -/
theorem resetMeetsTheInvariant : Obligations.ResetMeetsTheInvariant where
  memory := Memory.wf_nil
  status := Status.wf_reset
  entropy := Entropy.wf_reset
  command := (nomatch ·)
  idle := fun _ => ⟨rfl, rfl⟩
  pending := by decide
  inReset := (nomatch ·)

end Sys2Proof.Claims
end

section
/-! SUPPORT. What one engine step of a command can do, said of any property of the next state: the operand
forms' checks, and then the results and the tags (40_control.md R143 to R145). -/

namespace Sys2Proof.Machine

section
variable {P : State → Prop} {s t : State} (hfail : ∀ e, P (s.fail e))
include hfail

/-! A property that every error completion has holds after a checked command if it holds after its body. -/

theorem withKind_induction {body : Kind → Result} (h : withKind s body = .next t)
    (hbody : ∀ k, body k = .next t → P t) : P t := by
  obtain ⟨k, _, h⟩ | ⟨_, rfl⟩ := withKind_next h
  · exact hbody k h
  · exact hfail .kind

theorem withArg_induction {ok : Bool} {body : Result} (h : withArg s ok body = .next t)
    (hbody : body = .next t → P t) : P t := by
  obtain ⟨_, h⟩ | ⟨_, rfl⟩ := withArg_next h
  · exact hbody h
  · exact hfail .arg

theorem withTag_induction {b : Bank} {tag : Bool} {body : Result} (h : withTag s b tag body = .next t)
    (hbody : body = .next t → P t) : P t := by
  obtain ⟨_, h⟩ | ⟨_, rfl⟩ := withTag_next h
  · exact hbody h
  · exact hfail .domain

theorem withCoeffs_induction {b : Bank} {r : RingParams} {body : List Nat → Result}
    (h : withCoeffs s b r body = .next t) (hbody : ∀ v, body v = .next t → P t) : P t := by
  obtain ⟨_, _, ⟨_, h⟩ | ⟨_, rfl⟩⟩ := withCoeffs_next h
  · exact hbody _ h
  · exact hfail .range

end

/-! ### Results -/

/-- The commands that define a result (30_encoding.md R116). -/
def resultCommands : List Instr :=
  [.smpGauss1, .smpPosbin, .smpBer, .smpBerexp, .smpBercosh, .entBit, .entBits, .entByte, .entR16,
    .entR64, .hufEnc]

/-- The results after one engine step of the command i: kept, or written in the successful completion of a
command that defines them. -/
def ResultsAfter (i : Instr) (s t : State) : Prop :=
  ResultsKept s t ∨
    (i ∈ resultCommands ∧ t.status = s.status.completed ∧ (i = .entR64 ∨ t.result1 = s.result1))

theorem ResultsAfter.fail (i : Instr) (s : State) (e : ErrCode) : ResultsAfter i s (s.fail e) :=
  .inl ⟨rfl, rfl⟩

theorem ResultsAfter.ofSampler {α : Type} {i : Instr} {p : Sampler α} {f : α → Word} {s t : State}
    (hi : i ∈ resultCommands) (h : runSampler p s (intoResult0 f) = .next t) : ResultsAfter i s t := by
  obtain ⟨_, _, rfl⟩ | ⟨_, _, _, rfl⟩ := runSampler_next h
  · exact .inl ⟨rfl, rfl⟩
  · exact .inr ⟨hi, rfl, .inr rfl⟩

theorem ResultsAfter.ofBank {i : Instr} {s t : State} {d : Bank} {ws : List Word} {tag : Bool}
    (h : Host.Outcome.next (s.commitBank d ws tag) = (.next t : Result)) : ResultsAfter i s t := by
  cases h
  exact .inl ⟨rfl, rfl⟩

/-- R46 for one engine step: a case for each command. -/
theorem exec_resultsAfter {i : Instr} {s t : State} (h : exec i s = .next t) : ResultsAfter i s t := by
  have hfail := ResultsAfter.fail i s
  cases i with
  | nop => cases h; exact .inl ⟨rfl, rfl⟩
  | nttFwd d a | nttInv d a =>
    exact withKind_induction hfail h fun k h => withTag_induction hfail h fun h =>
      withCoeffs_induction hfail h fun v h => .ofBank h
  | nttPmul d a b | nttMul d a b =>
    exact withKind_induction hfail h fun k h => withTag_induction hfail h fun h =>
      withTag_induction hfail h fun h => withCoeffs_induction hfail h fun v h =>
      withCoeffs_induction hfail h fun w h => .ofBank h
  | nttNeg d a =>
    exact withKind_induction hfail h fun k h => withCoeffs_induction hfail h fun v h => .ofBank h
  | nttInvert d a =>
    refine withKind_induction hfail h fun k h => withTag_induction hfail h fun h =>
      withCoeffs_induction hfail h fun v h => ?_
    dsimp only at h
    split at h
    · cases h; exact hfail .notinv
    · exact .ofBank h
  | nttModq d a =>
    refine withKind_induction hfail h fun k h => ?_
    obtain ⟨ws, _, h⟩ := withWords_next h
    exact .ofBank h
  | smpGauss d =>
    refine withKind_induction hfail h fun k h => ?_
    split at h
    · cases h; exact .inl ⟨rfl, rfl⟩
    · dsimp only at h
      split at h
      · cases h; exact .inl ⟨rfl, rfl⟩
      · exact .ofBank h
  | smpGauss1 | smpPosbin | smpBerexp | smpBercosh =>
    exact withKind_induction hfail h fun k h => .ofSampler (by decide) h
  | smpBer =>
    exact withKind_induction hfail h fun k h => withArg_induction hfail h fun h => .ofSampler (by decide) h
  | entSeed => cases h; exact .inl ⟨rfl, rfl⟩
  | entBit | entByte | entR16 => exact .ofSampler (by decide) h
  | entBits => exact withArg_induction hfail h fun h => .ofSampler (by decide) h
  | entR64 =>
    rw [exec, execEntR64] at h
    obtain ⟨_, _, rfl⟩ | ⟨_, _, _, rfl⟩ := runSampler_next h
    · exact .inl ⟨rfl, rfl⟩
    · exact .inr ⟨by decide, rfl, .inl rfl⟩
  | hufEnc =>
    refine withKind_induction hfail h fun k h => withArg_induction hfail h fun h => ?_
    split at h
    · cases h; exact .inr ⟨by decide, rfl, .inr rfl⟩
    · cases h; exact hfail _
    · cases h
  | hufDec =>
    refine withKind_induction hfail h fun k h => withArg_induction hfail h fun h => ?_
    split at h
    · cases h
    · split at h
      · cases h; exact .inl ⟨rfl, rfl⟩
      · cases h; exact hfail .corrupt

/-! ### Tags -/

/-- An engine step changes a tag only in a successful completion (R38). -/
theorem EngineStep.domain_kept_or_completed {s t : State} (h : EngineStep s t) :
    t.domain = s.domain ∨ t.status = s.status.completed := by
  cases h with
  | bank d ws tag _ => exact .inr rfl
  | _ => exact .inl rfl

end Sys2Proof.Machine
end

section
/-! CERTIFICATES. 10_state.md: what changes the results and the tags. -/

namespace Sys2Proof.Claims

open Sys2Proof.Machine

theorem answers_results (s : State) (r : BusReq) (w : Word) :
    (IsRead r 0x20 → Answers s r s.result0) ∧ (IsRead r 0x24 → Answers s r s.result1) ∧
    (IsWrite r 0x20 w ∨ IsWrite r 0x24 w → busAccess r s = .next { s with resp := .writeDone }) := by
  refine ⟨fun h => answers_regValue h rfl rfl rfl s, fun h => answers_regValue h rfl rfl rfl s, ?_⟩
  rintro (h | h) <;> exact busAccess_readOnly_write h rfl rfl rfl s

/-- Settles O23: of all steps only an engine step and a reset can touch a result, and an engine step only in
the successful completion of a command that defines it. -/
theorem resultsChangeOnlyAtSuccess : Obligations.ResultsChangeOnlyAtSuccess := by
  refine ⟨⟨rfl, rfl⟩, answers_results, fun s t hstep hchanged => ?_⟩
  cases step_kind hstep with
  | engine _ rest i hb hd h =>
    obtain hkept | ⟨hi, hst, hr1⟩ := exec_resultsAfter h
    · exact absurd hkept hchanged
    · rw [hst]
      exact .inr ⟨hb, rfl, rfl, rfl, rfl, i, hd, hr1, hi⟩
  | illegal rest e hb hd => exact absurd ⟨rfl, rfl⟩ hchanged
  | idle rest => exact absurd ⟨rfl, rfl⟩ hchanged
  | host _ rest op ops hi h =>
    obtain hrst | hkept := resultsKept_of_hostOp h
    · exact .inl hrst
    · exact absurd hkept hchanged

/-- Settles O24: a host action changes a tag only as an idle write of DOMAIN, an engine step only in a
successful completion. -/
theorem tagsChangeOnlyByDomainWriteOrCommit : Obligations.TagsChangeOnlyByDomainWriteOrCommit := by
  refine ⟨fun s r a w hw ha => ⟨_, busAccess_of_isWrite hw ha.1 (targetAt_memoryWord ha) s, ?_⟩,
    fun s t hstep hchanged => ?_⟩
  · obtain h | ⟨h, _⟩ := s.domain_busStore (.store a) w
    · exact h
    · cases h
  · cases step_kind hstep with
    | engine _ rest i hb hd h =>
      obtain hkept | hst := (exec_engineStep h).domain_kept_or_completed
      · exact absurd hkept hchanged
      · rw [hst]
        exact .inr (.inr ⟨hb, rfl, rfl, rfl⟩)
    | illegal rest e hb hd => exact absurd rfl hchanged
    | idle rest => exact absurd rfl hchanged
    | host _ rest op ops hi h =>
      obtain hrst | hkept | ⟨r, w, rfl, hw, hb⟩ := domain_of_hostOp h
      · exact .inl hrst
      · exact absurd hkept hchanged
      · exact .inr (.inl ⟨r, ops, w, hi, hw, hb⟩)

end Sys2Proof.Claims
end

section
/-! SUPPORT. Reading what nothing wrote (10_state.md R33, R36): words, banks and the code buffer; and how far
`HUF.ENC` comes on symbols that have an entry (44_huffman.md R303, R310). -/

namespace Sys2Proof.Machine

open Sys2Proof.Claims

/-! ### Words and banks -/

/-- A word with an unwritten byte has no value. -/
theorem Memory.word?_eq_none {m : Memory} {a i : Nat} (hi : i < 4) (h : m.byte? (a + i) = none) :
    m.word? a = none := by
  unfold Memory.word?
  split
  next b0 b1 b2 b3 h0 h1 h2 h3 =>
    obtain rfl | rfl | rfl | rfl : i = 0 ∨ i = 1 ∨ i = 2 ∨ i = 3 := by omega
    · rw [Nat.add_zero, h0] at h; cases h
    · rw [h1] at h; cases h
    · rw [h2] at h; cases h
    · rw [h3] at h; cases h
  next => rfl

theorem withWords_unwritten {s : State} {b : Bank} {n i : Nat} (hi : i < n)
    (h : s.bankWord? b i = none) (body : List Word → Result) :
    withWords s b n body = .fault .unwrittenRead := by
  simp only [withWords, State.readBank_eq_none.2 ⟨i, hi, h⟩]

/-- A source is read whole before its range check (log 15). -/
theorem withCoeffs_unwritten {s : State} {b : Bank} {r : RingParams} {i : Nat} (hi : i < r.n)
    (h : s.bankWord? b i = none) (body : List Nat → Result) :
    withCoeffs s b r body = .fault .unwrittenRead := withWords_unwritten hi h _

/-- A bank that holds field elements passes its range check. -/
theorem withCoeffs_of_bankHolds {s : State} {b : Bank} {k : Kind} {v : Nat → Nat}
    (h : BankHolds s b (Config.N k) v) (hv : InField k v) (body : List Nat → Result) :
    withCoeffs s b (Config.ring k) body = body ((List.range (Config.N k)).map v) := by
  let ws := (List.range (Config.N k)).map fun i => coeffWord (v i)
  have hread : s.readBank b (Config.ring k).n = some ws := by
    refine State.readBank_eq_some.2 ⟨by simp [ws, ring_n], fun i hi => ?_⟩
    rw [h i hi]
    simp [ws, List.getElem?_range (show i < Config.N k from hi), coeffWord]
  have hrange : ws.all (inRange (Config.ring k).q) = true := by
    simp only [ws, List.all_map, List.all_eq_true, List.mem_range]
    exact fun i hi => inRange_coeffWord (Nat.le_of_lt (Q_lt k)) (hv i hi)
  have hnum : ws.map BitVec.toNat = (List.range (Config.N k)).map v := by
    simp only [ws, List.map_map]
    refine List.map_congr_left fun i hi => toNat_coeffWord ?_
    exact Nat.lt_trans (hv i (List.mem_range.1 hi)) (Q_lt k)
  rw [withCoeffs_some hread hrange, hnum]

/-! ### The encoder -/

/-- A byte's components are the pair it denotes (R300). -/
theorem symbol_eq_pairOf (b : Byte) : (symHi b, symZ2 b) = pairOf b := by
  revert b
  decide

/-- A valid codebook has one entry for a symbol (R301), the one the search finds. -/
theorem entryOfByte_of_encodes {book : List CodeEntry} (hbook : codebookValid book = true) {b : Byte}
    {e : CodeEntry} (h : Encodes book b e) : entryOfByte book b = some e := by
  obtain ⟨hmem, hpair⟩ := h
  rw [← symbol_eq_pairOf, Prod.mk.injEq] at hpair
  obtain ⟨hhi, hz2⟩ := hpair
  unfold entryOfByte
  induction book with
  | nil => cases hmem
  | cons f rest ih =>
    simp only [codebookValid, Bool.and_eq_true, List.all_eq_true] at hbook
    obtain ⟨⟨_, hcompat⟩, hrest⟩ := hbook
    obtain rfl | hmem := List.mem_cons.1 hmem
    · exact List.find?_cons_of_pos (by simp [hhi, hz2])
    · have hdiff : ¬ (f.hi = e.hi ∧ f.z2 = e.z2) := by
        have := hcompat e hmem
        simp only [CodeEntry.compatible, Bool.and_eq_true, Bool.not_eq_true', Bool.and_eq_false_iff,
          decide_eq_false_iff_not] at this
        tauto
      rw [List.find?_cons_of_neg (by simpa [← hhi, ← hz2] using hdiff)]
      exact ih hrest hmem

theorem codeLength_succ (es : Nat → CodeEntry) {lo hi : Nat} (h : lo ≤ hi) :
    codeLength es lo (hi + 1) = codeLength es lo hi + (es hi).len :=
  Finset.sum_Ico_succ_top h _

/-- One more symbol moves the stream up by its codeword's length and appends the codeword (R303). -/
theorem streamNumber_succ (es : Nat → CodeEntry) (c : Nat) :
    streamNumber es (c + 1) = streamNumber es c * 2 ^ (es c).len + (es c).value := by
  unfold streamNumber
  rw [Finset.sum_range_succ, Finset.sum_mul]
  congr 1
  · refine Finset.sum_congr rfl fun j hj => ?_
    rw [codeLength_succ es (Finset.mem_range.1 hj), Nat.pow_add, Nat.mul_assoc]
  · simp [codeLength]

/-- After m symbols with an entry, whose codewords fit, the encoder stands at the next symbol with their
stream and its length (R303, R310). -/
theorem encodeFrom_after_symbols {book : List CodeEntry} {lmax count m : Nat} {rd : Nat → Option Byte}
    {b : Nat → Byte} {es : Nat → CodeEntry} (hbook : codebookValid book = true) (hm : m ≤ count)
    (hsym : ∀ j, j < m → rd j = some (b j) ∧ Encodes book (b j) (es j))
    (hfit : codeLength es 0 m ≤ lmax) :
    encodeFrom book lmax rd count 0 0 0 =
      encodeFrom book lmax rd (count - m) m (streamNumber es m) (codeLength es 0 m) := by
  induction m with
  | zero => simp [streamNumber, codeLength]
  | succ m ih =>
    obtain ⟨hrd, henc⟩ := hsym m (Nat.lt_succ_self m)
    rw [codeLength_succ es (Nat.zero_le m)] at hfit ⊢
    rw [ih (by omega) (fun j hj => hsym j (by omega)) (by omega),
      show count - m = count - (m + 1) + 1 by omega, encodeFrom, hrd]
    simp only [entryOfByte_of_encodes hbook henc]
    rw [if_neg (by omega), streamNumber_succ]

end Sys2Proof.Machine
end

section
/-! CERTIFICATES. 10_state.md R33, R36: each reader of unwritten bytes stops in the named fault. -/

namespace Sys2Proof.Claims

open Sys2Proof.Machine

theorem busAccess_unwritten {s : State} {r : BusReq} {a i : Nat} (ha : MemoryWord a) (hr : IsRead r a)
    (hidle : s.status.busy = false) (hi : i < 4) (h : s.mem.byte? (a + i) = none) :
    busAccess r s = .fault .unwrittenRead := by
  rw [busAccess_of_isRead hr ha.1 (targetAt_memoryWord ha)]
  simp [busRead, hidle, Memory.word?_eq_none hi h]

section
variable {s : State} {k : Kind} {i : Nat} (d a b : Bank) (hk : kindOf s.run.kind = some k)
  (hi : i < Config.N k)
include hk hi

/-- The NTT commands whose source A holds an unwritten word, with every tag as its command requires. -/
theorem exec_ntt_unwritten_A (h : s.bankWord? a i = none) :
    exec (.nttModq d a) s = .fault .unwrittenRead ∧ exec (.nttNeg d a) s = .fault .unwrittenRead ∧
    (tagOf s.run.dom a = false → exec (.nttFwd d a) s = .fault .unwrittenRead ∧
      exec (.nttInvert d a) s = .fault .unwrittenRead) ∧
    (tagOf s.run.dom a = true → exec (.nttInv d a) s = .fault .unwrittenRead) ∧
    (tagOf s.run.dom a = true → tagOf s.run.dom b = true →
      exec (.nttPmul d a b) s = .fault .unwrittenRead) ∧
    (tagOf s.run.dom a = false → tagOf s.run.dom b = true →
      exec (.nttMul d a b) s = .fault .unwrittenRead) := by
  have hread := withCoeffs_unwritten (r := Config.ring k) hi h
  refine ⟨?_, ?_, fun ta => ⟨?_, ?_⟩, fun ta => ?_, fun ta tb => ?_, fun ta tb => ?_⟩
  · rw [exec, execNttModq, withKind_some hk, withWords_unwritten hi h]
  · rw [exec, execNttNeg, withKind_some hk, hread]
  · rw [exec, execNttFwd, withKind_some hk, withTag_right ta, hread]
  · rw [exec, execNttInvert, withKind_some hk, withTag_right ta, hread]
  · rw [exec, execNttInv, withKind_some hk, withTag_right ta, hread]
  · rw [exec, execNttPmul, withKind_some hk, withTag_right ta, withTag_right tb, hread]
  · rw [exec, execNttMul, withKind_some hk, withTag_right ta, withTag_right tb, hread]

/-- The two-source commands read B once A has passed its range check. -/
theorem exec_ntt_unwritten_B (h : s.bankWord? b i = none) (v : Nat → Nat)
    (hA : BankHolds s a (Config.N k) v) (hv : InField k v) :
    (tagOf s.run.dom a = true → tagOf s.run.dom b = true →
      exec (.nttPmul d a b) s = .fault .unwrittenRead) ∧
    (tagOf s.run.dom a = false → tagOf s.run.dom b = true →
      exec (.nttMul d a b) s = .fault .unwrittenRead) := by
  have hread := withCoeffs_unwritten (r := Config.ring k) hi h
  refine ⟨fun ta tb => ?_, fun ta tb => ?_⟩
  · rw [exec, execNttPmul, withKind_some hk, withTag_right ta, withTag_right tb,
      withCoeffs_of_bankHolds hA hv, hread]
  · rw [exec, execNttMul, withKind_some hk, withTag_right ta, withTag_right tb,
      withCoeffs_of_bankHolds hA hv, hread]

end

theorem exec_hufEnc_unwritten {s : State} {k : Kind} {m : Nat} {b : Nat → Byte} {es : Nat → CodeEntry}
    (hk : kindOf s.run.kind = some k) (hm : m < s.run.a0.toNat) (hn : s.run.a0.toNat ≤ Config.N k)
    (hsym : ∀ j, j < m → s.sym? j = some (b j) ∧ Encodes (Config.HUFF k) (b j) (es j))
    (hfit : codeLength es 0 m ≤ Config.LMAX k) (h : s.sym? m = none) :
    exec .hufEnc s = .fault .unwrittenRead := by
  have henc : encodeFrom (Config.HUFF k) (Config.LMAX k) s.sym? s.run.a0.toNat 0 0 0 = .unwritten := by
    rw [encodeFrom_after_symbols (HUFF_valid k) (Nat.le_of_lt hm) hsym hfit,
      show s.run.a0.toNat - m = s.run.a0.toNat - (m + 1) + 1 by omega, encodeFrom, h]
  have hcount : 1 ≤ s.run.a0.toNat := by omega
  rw [exec, execHufEnc, withKind_some hk, hufEnc, withArg_legal (by simp [hcount, hn])]
  simp only [codec_book, codec_lmax, henc]

theorem exec_hufDec_unwritten {s : State} {k : Kind} {j : Nat} (hk : kindOf s.run.kind = some k)
    (hl : s.run.a0.toNat ≤ Config.LMAX k) (h1 : 1 ≤ s.run.a1.toNat) (hn : s.run.a1.toNat ≤ Config.N k)
    (hj : j < (s.run.a0.toNat + 7) / 8) (h : s.code? j = none) :
    exec .hufDec s = .fault .unwrittenRead := by
  have hread : s.readCode (streamBytes s.run.a0.toNat) = none := State.readCode_eq_none.2 ⟨j, hj, h⟩
  rw [exec, execHufDec, withKind_some hk, hufDec, withArg_legal (by simp [hl, h1, hn]), hread]

/-- Settles O17: the host read, the NTT commands' sources A and B, and the two buffers of the codec. -/
theorem unwrittenReadsFault : Obligations.UnwrittenReadsFault :=
  ⟨fun _ _ _ _ => busAccess_unwritten,
    fun d a b _ _ _ hk hi => ⟨exec_ntt_unwritten_A d a b hk hi, exec_ntt_unwritten_B d a b hk hi⟩,
    fun _ _ _ _ _ => exec_hufEnc_unwritten, fun _ _ _ => exec_hufDec_unwritten⟩

end Sys2Proof.Claims
end

section
/-! SUPPORT. The host's accesses to what the engine owns while busy, the unmapped offsets, and the words of the
memories as their bytes (20_memory.md R82 to R88). -/

namespace Sys2Proof.Machine

open Sys2Proof.Claims

/-! ### The map -/

/-- The offsets of the window without a target are R82's unmapped ones. -/
theorem targetAt_eq_none {a : Nat} (h : a < 0x8000) : targetAt a = none ↔ Unmapped a := by
  unfold targetAt Unmapped
  split
  · exact iff_of_false (by split <;> simp) (by omega)
  · split
    · exact iff_of_false (by simp) (by omega)
    · simp only [isStore, ite_eq_right_iff, reduceCtorEq, imp_false, Bool.or_eq_true, Bool.and_eq_true,
        decide_eq_true_eq]
      omega

/-- An access without a target is not a word, not aligned, or at an unmapped offset (R87). -/
theorem BusReq.target_eq_none {r : BusReq} :
    r.target = none ↔ r.size ≠ .word ∨ r.addr.toNat % 4 ≠ 0 ∨ Unmapped r.addr.toNat := by
  rw [BusReq.target, ← targetAt_eq_none r.addr.isLt]
  split
  next h =>
    obtain ⟨hsize, halign⟩ := h
    simp [hsize, halign]
  next h => exact iff_of_true rfl ((not_and_or.1 h).imp_right .inl)

/-- The access stops in the bus error exactly when it has no target (R87). -/
theorem busAccess_eq_busError {r : BusReq} {s : State} :
    busAccess r s = .fault .busError ↔ r.target = none := by
  obtain ⟨hn, h⟩ | ⟨t, ht, ⟨_, h⟩ | ⟨_, _, _, h⟩ | ⟨_, w, h⟩ | ⟨_, a, _, _, h⟩⟩ := busAccess_cases r s
  · simp [h, hn]
  all_goals simp [h, ht]

/-- A memory word and `DOMAIN` are mapped and the engine's while it runs (R88). -/
theorem targetAt_operand {a : Nat} (h : MemoryWord a ∨ a = 0x14) :
    a % 4 = 0 ∧ ∃ t, targetAt a = some t ∧ t.engineOwned = true := by
  obtain h | rfl := h
  · exact ⟨h.1, _, targetAt_memoryWord h, rfl⟩
  · exact ⟨rfl, _, rfl, rfl⟩

/-! ### What the engine owns, while busy and while idle -/

theorem busRead_busy {t : Target} {s : State} (hown : t.engineOwned = true)
    (hbusy : s.status.busy = true) : busRead t s = .next s.answerFree := by
  simp [busRead, hown, hbusy]

theorem State.busStore_busy {t : Target} {s : State} (hown : t.engineOwned = true)
    (hbusy : s.status.busy = true) (w : Word) : s.busStore t w = s.overrun := by
  simp [State.busStore, hown, hbusy]

theorem State.busStore_domain_idle {s : State} (hidle : s.status.busy = false) (w : Word) :
    s.busStore .domain w = { s with domain := w.extractLsb' 0 8 } := by
  simp [State.busStore, hidle, BitVec.setWidth_eq_extractLsb']

theorem State.busStore_store_idle {s : State} (hidle : s.status.busy = false) (a : Nat) (w : Word) :
    s.busStore (.store a) w = { s with mem := s.mem.write a (wordBytes w) } := by
  simp [State.busStore, hidle]

/-- An idle read of a written memory word is answered with it (R83 to R85). -/
theorem answers_memoryWord {a : Nat} {r : BusReq} {s : State} {w : Word} (ha : MemoryWord a)
    (hr : IsRead r a) (hidle : s.status.busy = false) (hw : s.mem.word? a = some w) : Answers s r w := by
  rw [Answers, busAccess_of_isRead hr ha.1 (targetAt_memoryWord ha)]
  simp [busRead, hidle, hw, State.answer]

/-- The state after an idle host write of the memory word at offset a. -/
def State.wordStored (s : State) (a : Nat) (w : Word) : State :=
  { s with mem := s.mem.write a (wordBytes w), resp := .writeDone }

theorem busAccess_memoryWrite {a : Nat} {r : BusReq} {s : State} {w : Word} (ha : MemoryWord a)
    (hw : IsWrite r a w) (hidle : s.status.busy = false) :
    busAccess r s = .next (s.wordStored a w) := by
  rw [busAccess_of_isWrite hw ha.1 (targetAt_memoryWord ha), State.busStore_store_idle hidle]
  rfl

/-- A stored word changes its four bytes only. -/
theorem State.memoryKeptOutside_wordStored (s : State) (a : Nat) (w : Word) :
    MemoryKeptOutside s (s.wordStored a w) a 4 :=
  fun _ h => Memory.byte?_write_outside (bs := wordBytes w) h

/-! ### Words as bytes, the first in bits 7:0 -/

theorem getElem?_wordBytes (w : Word) {i : Nat} (hi : i < 4) :
    (wordBytes w)[i]? = some (w.extractLsb' (8 * i) 8) := by
  obtain rfl | rfl | rfl | rfl : i = 0 ∨ i = 1 ∨ i = 2 ∨ i = 3 := by omega
  all_goals rfl

theorem Memory.byte?_write_word (m : Memory) (a : Nat) (w : Word) {i : Nat} (hi : i < 4) :
    (m.write a (wordBytes w)).byte? (a + i) = some (w.extractLsb' (8 * i) 8) := by
  rw [Memory.byte?_write, wordBytes_length, if_pos (by omega), Nat.add_sub_cancel_left,
    getElem?_wordBytes w hi]

/-- Four bytes of `w` in order read as `w` (R86). -/
theorem Memory.word?_of_bytes {m : Memory} {a : Nat} {w : Word}
    (h : ∀ i, i < 4 → m.byte? (a + i) = some (w.extractLsb' (8 * i) 8)) : m.word? a = some w := by
  rw [← Memory.word?_write_same m a w]
  exact Memory.word?_congr fun i hi => (h i hi).trans (m.byte?_write_word a w hi).symm

/-! ### CTRL -/

theorem State.busStore_ctrl (s : State) (w : Word) : s.busStore .ctrl w = s.writeCtrl w := rfl

/-- A write of `CTRL` without `ABORT` stores its fields and does nothing else (R42). -/
theorem State.writeCtrl_of_not_abort {w : Word} (h : w.getLsbD 16 = false) (s : State) :
    s.writeCtrl w = { s with ctrl := Ctrl.ofWord w } := by
  obtain hs | ⟨ha, _⟩ := s.writeCtrl_cases w
  · exact hs
  · cases h.symm.trans ha

/-- `CTRL` reads back as bits 2:0, 4 and 8 of the word written (R42). -/
theorem Ctrl.word_ofWord (w : Word) : (Ctrl.ofWord w).word = w &&& 0x00000117 := by
  refine BitVec.eq_of_getLsbD_eq fun i hi => ?_
  simp only [Ctrl.word, Ctrl.ofWord, flagBit, BitVec.getLsbD_append, BitVec.getLsbD_and]
  interval_cases i <;> simp

end Sys2Proof.Machine
end

section
/-! CERTIFICATES. 20_memory.md: the map, the busy period, and the host's reads and writes. -/

namespace Sys2Proof.Claims

open Sys2Proof.Machine

/-- Settles O8: the engine owns the target, so a write is an overrun and a read a free answer. -/
theorem busyOperandAccessesAreLostOrFree : Obligations.BusyOperandAccessesAreLostOrFree := by
  intro s r a ha hbusy
  obtain ⟨hal, t, ht, hown⟩ := targetAt_operand ha
  refine ⟨fun w hw => ?_, fun hr => ⟨Config.freeValue s.freeIdx, s.freeIdx + 1, ?_⟩⟩
  · rw [busAccess_of_isWrite hw hal ht, State.busStore_busy hown hbusy]
    rfl
  · rw [busAccess_of_isRead hr hal ht, busRead_busy hown hbusy]
    rfl

/-- Settles O9: each register's own effect; the engine owns none of them but DOMAIN. -/
theorem hostRegisterWritesTakeEffect : Obligations.HostRegisterWritesTakeEffect := by
  intro s r w
  refine ⟨fun h habort => ⟨Ctrl.ofWord w, rfl, rfl, rfl, ?_, fun r' hr => ?_⟩,
    fun h => busAccess_of_isWrite h rfl rfl s, fun h => busAccess_of_isWrite h rfl rfl s,
    fun j h => busAccess_of_isWrite h (by omega) (targetAt_seed j) s, fun h hidle => ?_⟩
  · rw [busAccess_of_isWrite h rfl rfl, State.busStore_ctrl, State.writeCtrl_of_not_abort habort]
  · rw [← Ctrl.word_ofWord]
    exact answers_regValue hr rfl rfl rfl _
  · rw [busAccess_of_isWrite h rfl rfl, State.busStore_domain_idle hidle]

/-- Settles O15: no target means an ill-formed access, and the bus error has no other source. -/
theorem busErrorExactlyWhenIllFormed : Obligations.BusErrorExactlyWhenIllFormed :=
  fun _ _ => busAccess_eq_busError.trans BusReq.target_eq_none

section
variable {s : State} {r : BusReq} {w : Word} (hidle : s.status.busy = false)
include hidle

/-- A bank's word stands at its offset (R83). -/
theorem bankWord_at_its_offset (b : Bank) {i : Nat} (hi : i < 512) :
    (IsRead r (bankAddr b i) → s.bankWord? b i = some w → Answers s r w) ∧
    (IsWrite r (bankAddr b i) w → ∃ t, busAccess r s = .next t ∧ t.bankWord? b i = some w ∧
      MemoryKeptOutside s t (bankAddr b i) 4 ∧ t = { s with mem := t.mem, resp := .writeDone }) := by
  have ha : MemoryWord (bankAddr b i) := by
    have := b.isLt
    rw [bankAddr_eq]
    unfold MemoryWord
    omega
  exact ⟨fun hr hw => answers_memoryWord ha hr hidle hw,
    fun hw => ⟨_, busAccess_memoryWrite ha hw hidle, Memory.word?_write_same _ _ w,
      s.memoryKeptOutside_wordStored _ w, rfl⟩⟩

/-- Word n of a byte buffer at `base` holds the buffer's bytes 4n to 4n + 3 (R84, R85). -/
theorem bufferWord_at_its_offset {base n : Nat} (ha : MemoryWord (base + 4 * n)) :
    (IsRead r (base + 4 * n) →
      (∀ m, m < 4 → s.mem.byte? (base + (4 * n + m)) = some (w.extractLsb' (8 * m) 8)) →
      Answers s r w) ∧
    (IsWrite r (base + 4 * n) w → ∃ t, busAccess r s = .next t ∧
      (∀ m, m < 4 → t.mem.byte? (base + (4 * n + m)) = some (w.extractLsb' (8 * m) 8)) ∧
      MemoryKeptOutside s t (base + 4 * n) 4 ∧ t = { s with mem := t.mem, resp := .writeDone }) := by
  simp only [← Nat.add_assoc]
  exact ⟨fun hr hw => answers_memoryWord ha hr hidle (Memory.word?_of_bytes hw),
    fun hw => ⟨_, busAccess_memoryWrite ha hw hidle, fun _ => s.mem.byte?_write_word _ w,
      s.memoryKeptOutside_wordStored _ w, rfl⟩⟩

end

/-- Settles O16: the banks by word, the two buffers by byte. -/
theorem memoryWordsAtTheirOffsets : Obligations.MemoryWordsAtTheirOffsets := by
  intro s r w hidle
  refine ⟨fun b i hi => bankWord_at_its_offset hidle b hi,
    fun n hn => bufferWord_at_its_offset hidle ?_, fun n hn => bufferWord_at_its_offset hidle ?_⟩ <;>
  · unfold MemoryWord
    omega

end Sys2Proof.Claims
end

section
/-! SUPPORT. The decoder and the encoder (30_encoding.md R111 to R115): a word and its fields, what the opcode
map makes of a row's fields, and what an illegal word's step does (60_exceptions.md R340). -/

namespace Sys2Proof

/-! ### A word and its fields -/

/-- The word with the given fields, `OP` lowest (R111). -/
def CmdFields.word (f : CmdFields) : Word := f.z2 ++ f.b ++ f.z1 ++ f.a ++ f.z0 ++ f.d ++ f.op

theorem CmdFields.word_fieldsOf (w : Word) : (fieldsOf w).word = w := by
  simp only [CmdFields.word, fieldsOf]
  repeat rw [BitVec.extractLsb'_append_extractLsb'_eq_extractLsb' (by decide)]
  exact BitVec.extractLsb'_eq_self

theorem CmdFields.reservedZero_iff {f : CmdFields} :
    f.reservedZero = true ↔ f.z0 = 0 ∧ f.z1 = 0 ∧ f.z2 = 0 := by
  simp [CmdFields.reservedZero, and_assoc]

/-- A word without reserved bits is assembled from its opcode and its bank fields (R111). -/
theorem assemble_fieldsOf {w : Word} (h : (fieldsOf w).reservedZero = true) :
    assemble (fieldsOf w).op (fieldsOf w).d (fieldsOf w).a (fieldsOf w).b = w := by
  obtain ⟨h0, h1, h2⟩ := CmdFields.reservedZero_iff.1 h
  have hfields : fieldsOf (assemble (fieldsOf w).op (fieldsOf w).d (fieldsOf w).a (fieldsOf w).b) =
      fieldsOf w := by
    rw [fieldsOf_assemble, CmdFields.mk.injEq]
    exact ⟨rfl, rfl, h0.symm, rfl, h1.symm, rfl, h2.symm⟩
  rw [← CmdFields.word_fieldsOf (assemble ..), hfields, CmdFields.word_fieldsOf]

theorem extractLsb'_ne_zero_iff {n : Nat} {w : BitVec n} {start len : Nat} :
    w.extractLsb' start len ≠ 0 ↔ ∃ i < len, w.getLsbD (start + i) = true := by
  refine ⟨fun h => ?_, fun ⟨i, hi, hbit⟩ h => ?_⟩
  · by_contra hnone
    refine h (BitVec.eq_of_getLsbD_eq fun i hi => ?_)
    simpa [hi] using fun hbit => hnone ⟨i, hi, hbit⟩
  · have := congrArg (BitVec.getLsbD · i) h
    simp [hi, hbit] at this

/-- A reserved field is nonzero when one of the bits 11, 15 and 31:19 is set (R111). -/
theorem not_reservedZero_fieldsOf {w : Word} : ¬ (fieldsOf w).reservedZero = true ↔
    (w.getLsbD 11 = true ∨ w.getLsbD 15 = true ∨ ∃ i, 19 ≤ i ∧ w.getLsbD i = true) := by
  have hhigh : (∃ i < 13, w.getLsbD (19 + i) = true) ↔ ∃ i, 19 ≤ i ∧ w.getLsbD i = true := by
    refine ⟨fun ⟨i, _, hbit⟩ => ⟨19 + i, by omega, hbit⟩, fun ⟨i, hi, hbit⟩ => ?_⟩
    have := BitVec.lt_of_getLsbD hbit
    exact ⟨i - 19, by omega, by rwa [Nat.add_sub_cancel' hi]⟩
  simp only [CmdFields.reservedZero_iff, fieldsOf, not_and_or, ← ne_eq, extractLsb'_ne_zero_iff, hhigh,
    Nat.lt_one_iff, exists_eq_left, Nat.add_zero]

/-! ### The opcode map -/

/-- The bank fields the row's opcode does not use are zero (R113). -/
structure OpRow.UnusedZero (r : OpRow) (f : CmdFields) : Prop where
  d : r.usesD = false → f.d = 0
  a : r.usesA = false → f.a = 0
  b : r.usesB = false → f.b = 0

theorem OpRow.not_unusedZero {r : OpRow} {f : CmdFields} : ¬ r.UnusedZero f ↔
    (r.usesD = false ∧ f.d ≠ 0) ∨ (r.usesA = false ∧ f.a ≠ 0) ∨ (r.usesB = false ∧ f.b ≠ 0) := by
  have hand : r.UnusedZero f ↔ (r.usesD = false → f.d = 0) ∧ (r.usesA = false → f.a = 0) ∧
      (r.usesB = false → f.b = 0) := ⟨fun h => ⟨h.d, h.a, h.b⟩, fun ⟨d, a, b⟩ => ⟨d, a, b⟩⟩
  simp only [hand, not_and_or, Classical.not_imp, ne_eq]

/-- The answer `x` is what R114 and R115 give fields `f` of the row's opcode: the command whose word has them,
or `unusedField`. -/
def OpRow.Reads (r : OpRow) (f : CmdFields) (x : Except DecodeError Instr) : Prop :=
  (∃ i, x = .ok i ∧ encode i = assemble r.op f.d f.a f.b ∧ r.UnusedZero f) ∨
  (x = .error .unusedField ∧ ¬ r.UnusedZero f)

section
variable {f : CmdFields} {op : BitVec 8}

theorem reads_rowNone {i : Instr} (henc : encode i = assemble op 0 0 0) :
    OpRow.Reads ⟨op, false, false, false⟩ f (rowNone f i) := by
  unfold rowNone
  split
  next hz =>
    obtain ⟨hd, ha, hb⟩ := hz
    exact .inl ⟨i, rfl, by rw [henc, hd, ha, hb], fun _ => hd, fun _ => ha, fun _ => hb⟩
  next hz => exact .inr ⟨rfl, fun h => hz ⟨h.d rfl, h.a rfl, h.b rfl⟩⟩

theorem reads_rowD {mk : Bank → Instr} (henc : ∀ d, encode (mk d) = assemble op d 0 0) :
    OpRow.Reads ⟨op, true, false, false⟩ f (rowD f mk) := by
  unfold rowD
  split
  next hz =>
    obtain ⟨ha, hb⟩ := hz
    exact .inl ⟨mk f.d, rfl, by rw [henc, ha, hb], nofun, fun _ => ha, fun _ => hb⟩
  next hz => exact .inr ⟨rfl, fun h => hz ⟨h.a rfl, h.b rfl⟩⟩

theorem reads_rowDA {mk : Bank → Bank → Instr} (henc : ∀ d a, encode (mk d a) = assemble op d a 0) :
    OpRow.Reads ⟨op, true, true, false⟩ f (rowDA f mk) := by
  unfold rowDA
  split
  next hb => exact .inl ⟨mk f.d f.a, rfl, by rw [henc, hb], nofun, nofun, fun _ => hb⟩
  next hb => exact .inr ⟨rfl, fun h => hb (h.b rfl)⟩

theorem reads_rowDAB {mk : Bank → Bank → Bank → Instr}
    (henc : ∀ d a b, encode (mk d a b) = assemble op d a b) :
    OpRow.Reads ⟨op, true, true, true⟩ f (rowDAB f mk) :=
  .inl ⟨mk f.d f.a f.b, rfl, henc _ _ _, nofun, nofun, nofun⟩

end

/-- The decoder reads each row of the opcode map as R114 lists it: a case for each row. -/
theorem decodeOp_reads {r : OpRow} (hr : r ∈ opRows) {f : CmdFields} (hop : r.op = f.op) :
    r.Reads f (decodeOp f) := by
  obtain ⟨op, d, z0, a, z1, b, z2⟩ := f
  obtain rfl : r.op = op := hop
  simp only [opRows, nttRows, smpRows, entRows, hufRows, List.mem_cons, List.mem_append,
    List.not_mem_nil, or_false] at hr
  obtain rfl | ((hntt | hsmp) | hent) | hhuf := hr
  · exact reads_rowNone rfl
  · obtain rfl | rfl | rfl | rfl | rfl | rfl | rfl := hntt
    case inr.inr.inl | inr.inr.inr.inr.inr.inl => exact reads_rowDAB fun _ _ _ => rfl
    all_goals exact reads_rowDA fun _ _ => rfl
  · obtain rfl | rfl | rfl | rfl | rfl | rfl := hsmp
    case inl => exact reads_rowD fun _ => rfl
    all_goals exact reads_rowNone rfl
  · obtain rfl | rfl | rfl | rfl | rfl | rfl := hent <;> exact reads_rowNone rfl
  · obtain rfl | rfl := hhuf <;> exact reads_rowNone rfl

theorem decodeOp_unlisted {f : CmdFields} (h : ¬ ∃ r ∈ opRows, r.op = f.op) :
    decodeOp f = .error .unlistedOp := by
  have hne : ∀ n ∈ opRows.map fun r => r.op.toNat, f.op.toNat ≠ n := by
    intro n hn heq
    obtain ⟨r, hr, rfl⟩ := List.mem_map.1 hn
    exact h ⟨r, hr, BitVec.eq_of_toNat_eq heq.symm⟩
  unfold decodeOp
  split
  case h_23 => rfl
  all_goals exact absurd ‹_› (hne _ (by decide))

theorem encode_of_decodeOp_ok {f : CmdFields} {i : Instr} (h : decodeOp f = .ok i) :
    encode i = assemble f.op f.d f.a f.b := by
  by_cases hlisted : ∃ r ∈ opRows, r.op = f.op
  · obtain ⟨r, hr, hop⟩ := hlisted
    obtain ⟨j, hj, henc, _⟩ | ⟨herr, _⟩ := decodeOp_reads hr hop
    · cases hj.symm.trans h
      rw [henc, hop]
    · cases herr.symm.trans h
  · cases (decodeOp_unlisted hlisted).symm.trans h

/-- R115's first and third way to be illegal. -/
theorem decodeOp_error_iff {f : CmdFields} : (∃ e, decodeOp f = .error e) ↔
    (¬ ∃ r ∈ opRows, r.op = f.op) ∨ ∃ r ∈ opRows, r.op = f.op ∧ ¬ r.UnusedZero f := by
  refine ⟨fun ⟨e, he⟩ => or_iff_not_imp_left.2 fun hlisted => ?_, ?_⟩
  · obtain ⟨r, hr, hop⟩ := not_not.1 hlisted
    obtain ⟨_, hok, _⟩ | ⟨_, hused⟩ := decodeOp_reads hr hop
    · cases hok.symm.trans he
    · exact ⟨r, hr, hop, hused⟩
  · rintro (hunlisted | ⟨r, hr, hop, hused⟩)
    · exact ⟨_, decodeOp_unlisted hunlisted⟩
    · obtain ⟨_, _, _, hzero⟩ | ⟨herr, _⟩ := decodeOp_reads hr hop
      · exact absurd hzero hused
      · exact ⟨_, herr⟩

/-! ### Decoding -/

theorem decode_of_reservedZero {w : Word} (h : (fieldsOf w).reservedZero = true) :
    decode w = decodeOp (fieldsOf w) :=
  if_pos (CmdFields.reservedZero_iff.1 h)

theorem decode_of_not_reservedZero {w : Word} (h : ¬ (fieldsOf w).reservedZero = true) :
    decode w = .error .reservedBit :=
  if_neg (mt CmdFields.reservedZero_iff.2 h)

theorem decode_assemble (op : BitVec 8) (d a b : Bank) :
    decode (assemble op d a b) = decodeOp ⟨op, d, 0, a, 0, b, 0⟩ := by
  rw [decode_of_reservedZero] <;> rw [fieldsOf_assemble]
  rfl

/-- The opcode map reads every command's own opcode and fields back. -/
theorem decode_encode (i : Instr) : decode (encode i) = .ok i := by
  cases i <;> exact decode_assemble _ _ _ _

theorem encode_of_decode_ok {w : Word} {i : Instr} (h : decode w = .ok i) : encode i = w := by
  by_cases hz : (fieldsOf w).reservedZero = true
  · rw [decode_of_reservedZero hz] at h
    exact (encode_of_decodeOp_ok h).trans (assemble_fieldsOf hz)
  · cases (decode_of_not_reservedZero hz).symm.trans h

/-- R115's second way to be illegal comes before the other two. -/
theorem decode_error_iff {w : Word} : (∃ e, decode w = .error e) ↔
    ¬ (fieldsOf w).reservedZero = true ∨ ∃ e, decodeOp (fieldsOf w) = .error e := by
  by_cases hz : (fieldsOf w).reservedZero = true
  · simp only [decode_of_reservedZero hz, hz, not_true, false_or]
  · exact iff_of_true ⟨_, decode_of_not_reservedZero hz⟩ (.inl hz)

/-- The three ways a word is illegal (R115), on its bits. -/
theorem decode_error_iff_illegal {w : Word} : (∃ e, decode w = .error e) ↔
    ((¬ ∃ r ∈ opRows, r.op = w.extractLsb' 0 8) ∨
     (w.getLsbD 11 = true ∨ w.getLsbD 15 = true ∨ ∃ i, 19 ≤ i ∧ w.getLsbD i = true) ∨
     (∃ r ∈ opRows, r.op = w.extractLsb' 0 8 ∧
       ((r.usesD = false ∧ w.extractLsb' 8 3 ≠ 0) ∨ (r.usesA = false ∧ w.extractLsb' 12 3 ≠ 0) ∨
        (r.usesB = false ∧ w.extractLsb' 16 3 ≠ 0)))) := by
  simp only [decode_error_iff, not_reservedZero_fieldsOf, decodeOp_error_iff, OpRow.not_unusedZero]
  exact or_left_comm

end Sys2Proof

namespace Sys2Proof.Machine

/-! ### An illegal word's step -/

/-- An error completion reports its code and changes nothing else (R340). -/
theorem State.failsWith_fail (s : State) (e : ErrCode) : FailsWith s (s.fail e) e.bits.toNat where
  busy := rfl
  done := rfl
  err := rfl
  ovr := rfl
  errcode := rfl
  memory := fun _ => rfl
  domain := rfl
  results := ⟨rfl, rfl⟩
  entropy := rfl
  host := ⟨rfl, rfl, rfl, rfl, rfl, rfl, rfl, rfl, rfl, rfl⟩
  latch := ⟨rfl, rfl, rfl, rfl, rfl, rfl, rfl, rfl, rfl⟩

/-- With no turn scheduled, a running command has the next one (log 1). -/
theorem step_of_busy {s : State} (hbusy : s.status.busy = true) (hturns : s.turns = []) :
    step s = engineTurn s := by
  simp only [step, State.takeTurn, hturns, hbusy, if_true]

theorem engineTurn_of_illegal {s : State} {e : DecodeError} (hbusy : s.status.busy = true)
    (hcmd : decode s.run.cmd = .error e) : engineTurn s = .next (s.fail .illegal) := by
  simp only [engineTurn, hbusy, hcmd, if_true]

end Sys2Proof.Machine
end

section
/-! CERTIFICATES. 30_encoding.md: decode and encode agree, and the illegal words. -/

namespace Sys2Proof.Claims

open Sys2Proof.Machine

/-- Settles O2: an assembled word has the fields put in, and a decoded word is assembled from its fields. -/
theorem decodeAndEncodeAgree : Obligations.DecodeAndEncodeAgree :=
  ⟨decode_encode, fun _ _ => encode_of_decode_ok⟩

/-- Settles O3: the decoder's errors are R115's three ways, and both words of one command are its encoding. -/
theorem wordRejectedExactlyWhenIllegal : Obligations.WordRejectedExactlyWhenIllegal := by
  refine ⟨fun w => decode_error_iff_illegal, fun s e hbusy hcmd hturns => ?_, fun w w' i h h' => ?_⟩
  · rw [step_of_busy hbusy hturns, engineTurn_of_illegal hbusy hcmd]
    exact ⟨_, rfl, s.failsWith_fail .illegal⟩
  · exact (encode_of_decode_ok h).symm.trans (encode_of_decode_ok h')

/-- Settles O1: each legal example is the encoding of the command it names, and each illegal one breaks its
own rule of R115. -/
theorem encodingExamplesDecode : Obligations.EncodingExamplesDecode :=
  ⟨decode_encode .nop, decode_encode (.nttFwd 2 0), decode_encode (.nttInv 1 3),
    decode_encode (.nttPmul 3 1 2), decode_encode (.nttMul 3 0 2), decode_encode (.nttInvert 1 0),
    decode_encode (.nttModq 0 0), decode_encode (.smpGauss 4), decode_encode .entR64,
    decode_encode .hufDec, decode_encode (.nttFwd 4 0), rfl, rfl⟩

end Sys2Proof.Claims
end

section
/-! SUPPORT. The machine's invariant (Safety.lean `State.Inv`): what an operation must keep for it, and that
every engine step and every host action keeps it. -/

namespace Sys2Proof.Machine

/-! ### The status register -/

namespace Status.wf

variable {st : Status} (h : st.wf)
include h

theorem completed : st.completed.wf := ⟨nofun, h.2⟩

theorem accepted (herr : st.err = false) : st.accepted.wf := ⟨fun _ => ⟨herr, rfl⟩, h.2⟩

theorem overrun : st.overrun.wf := h

/-- Clearing `ERR` clears `ERRCODE` with it (10_state.md R43). -/
theorem writeClear (w : Word) : (st.writeClear w).wf := by
  obtain ⟨hbusy, hnoerr, herr⟩ := h
  refine ⟨fun hb => ?_, ?_⟩
  · obtain ⟨he, hd⟩ := hbusy hb
    simp [Status.writeClear, he, hd]
  · cases hw : w.getLsbD 2 with
    | true => simp [Status.writeClear, hw]
    | false => simp only [Status.writeClear, hw, Bool.not_false, Bool.and_true]; exact ⟨hnoerr, herr⟩

end Status.wf

/-- Every error code is one of R341's. -/
theorem ErrCode.bits_range (e : ErrCode) : 1 ≤ e.bits.toNat ∧ e.bits.toNat ≤ 10 := by
  cases e <;> decide

theorem Status.wf_failed (st : Status) (e : ErrCode) : (st.failed e).wf :=
  ⟨nofun, nofun, fun _ => e.bits_range⟩

/-- At least one block a refill (00_scope.md R10). -/
theorem poolBlocks_pos : 1 ≤ Config.pool.blocks := Nat.succ_pos _

theorem isStore_sym {i : Nat} (h : i < 512) : isStore (symBase + i) = true := by
  rw [isStore, show symBase = 0x0800 from rfl]
  simp only [Bool.or_eq_true, Bool.and_eq_true, decide_eq_true_eq]
  omega

theorem isStore_code {i : Nat} (h : i < 512) : isStore (codeBase + i) = true := by
  rw [isStore, show codeBase = 0x0C00 from rfl]
  simp only [Bool.or_eq_true, Bool.and_eq_true, decide_eq_true_eq]
  omega

/-! ### The machine -/

namespace State.Inv

/-- A state with nothing running and nothing pending meets the invariant if its memory, status and entropy unit
are well-formed. -/
theorem of_idle {t : State} (hmem : t.mem.wf = true) (hst : t.status.wf) (hent : t.ent.wf Config.pool)
    (hidle : t.status.busy = false) (hdrawn : t.run.drawn = []) (hpending : t.run.pending = []) :
    t.Inv where
  memory := hmem
  status := hst
  entropy := hent
  command := fun h => by cases hidle.symm.trans h
  idle := fun _ => ⟨hdrawn, hpending⟩
  pending := by rw [hpending]; decide
  inReset := fun _ => hidle

theorem pinReset (s : State) : s.pinReset.Inv :=
  of_idle Memory.wf_nil Status.wf_reset Entropy.wf_reset rfl rfl rfl

variable {s t : State} (hs : s.Inv)
include hs

/-- The invariant speaks of six fields only: a state with the same ones meets it too. -/
theorem of_same_fields (h : t = { t with
    mem := s.mem, status := s.status, ent := s.ent, run := s.run, cmd := s.cmd, rst := s.rst }) :
    t.Inv := by
  rw [h]
  exact ⟨hs.memory, hs.status, hs.entropy, hs.command, hs.idle, hs.pending, hs.inReset⟩

/-- A new status register that runs a command exactly when the old one does. -/
theorem setStatus {st : Status} (hst : st.wf) (hbusy : st.busy = s.status.busy) :
    State.Inv { s with status := st } where
  memory := hs.memory
  status := hst
  entropy := hs.entropy
  command := fun h => hs.command (hbusy.symm.trans h)
  idle := fun h => hs.idle (hbusy.symm.trans h)
  pending := hs.pending
  inReset := fun h => hbusy.trans (hs.inReset h)

theorem setMem {m : Memory} (hm : m.wf = true) : State.Inv { s with mem := m } :=
  { hs with memory := hm }

theorem setEnt {e : Entropy} (he : e.wf Config.pool) : State.Inv { s with ent := e } :=
  { hs with entropy := he }

/-! #### The command lifecycle -/

theorem commit : s.commit.Inv :=
  of_idle hs.memory hs.status.completed hs.entropy rfl rfl rfl

theorem fail (e : ErrCode) : (s.fail e).Inv :=
  of_idle hs.memory (s.status.wf_failed e) hs.entropy rfl rfl rfl

theorem accept (w : Word) (herr : s.status.err = false) (hrst : s.rst = false) : (s.accept w).Inv where
  memory := hs.memory
  status := hs.status.accepted herr
  entropy := hs.entropy
  command := fun _ => rfl
  idle := nofun
  pending := Nat.zero_lt_succ 511
  inReset := fun h => by cases hrst.symm.trans h

/-- What a running command has computed so far is free, up to 511 pending samples. -/
theorem setProgress (hbusy : s.status.busy = true) (ds : List DWord) {vs : List Word}
    (hvs : vs.length < 512) : State.Inv { s with run := { s.run with drawn := ds, pending := vs } } where
  memory := hs.memory
  status := hs.status
  entropy := hs.entropy
  command := hs.command
  idle := fun h => by cases hbusy.symm.trans h
  pending := hvs
  inReset := hs.inReset

theorem draw (hbusy : s.status.busy = true) (r : DrawReq) : (s.draw r).Inv :=
  (hs.setEnt (Entropy.wf_draw poolBlocks_pos hs.entropy s.run.slow r)).setProgress hbusy _ hs.pending

/-- Each engine step of a running command keeps the invariant: a case for each kind of step. -/
theorem engineStep (hbusy : s.status.busy = true) (h : EngineStep s t) : t.Inv := by
  cases h with
  | failed e _ => exact hs.fail e
  | draw r _ => exact hs.draw hbusy r
  | nextSample k v h =>
    have hvs : (s.run.pending ++ [v]).length < 512 := by
      simpa using Nat.lt_of_lt_of_le h (N_le k)
    exact (hs.setProgress hbusy [] hvs).draw hbusy .bit
  | nothing => exact hs.commit
  | seed => exact (hs.setEnt (Entropy.wf_load _)).commit
  | bank d ws tag h =>
    have hl : ws.length ≤ 512 := h.elim id fun h => Nat.le_trans h hs.pending
    exact ((hs.setMem (State.wf_writeBank hs.memory hl)).of_same_fields rfl).commit
  | result | results => exact (hs.of_same_fields rfl).commit
  | sym bs h =>
    have hm : (s.mem.write symBase bs).wf = true :=
      Memory.wf_write hs.memory fun i hi => isStore_sym (Nat.lt_of_lt_of_le hi h)
    exact (hs.setMem hm).commit
  | code bs len h =>
    have hm : (s.mem.write codeBase bs).wf = true :=
      Memory.wf_write hs.memory fun i hi => isStore_code (Nat.lt_of_lt_of_le hi h)
    exact ((hs.setMem hm).of_same_fields rfl).commit

/-! #### The host -/

theorem writeCtrl (w : Word) : (s.writeCtrl w).Inv := by
  have hctrl : State.Inv { s with ctrl := Ctrl.ofWord w } := hs.of_same_fields rfl
  obtain h | ⟨_, _, h⟩ := s.writeCtrl_cases w <;> rw [h]
  · exact hctrl
  · exact hctrl.fail .aborted

/-- A host write at a mapped offset keeps the invariant, outside reset: a case for each of its effects. -/
theorem busStore {r : BusReq} {tg : Target} (ht : r.target = some tg) (hrst : s.rst = false) (w : Word) :
    (s.busStore tg w).Inv := by
  obtain h | ⟨_, h⟩ | ⟨_, h⟩ | ⟨_, h⟩ | ⟨_, _, herr, h⟩ | ⟨_, _, h⟩ | ⟨_, _, _, h⟩ | ⟨a, rfl, _, h⟩ :=
    busStore_cases s tg w <;> rw [h]
  · exact hs
  · exact hs.setStatus hs.status.overrun rfl
  · exact hs.writeCtrl w
  · exact hs.setStatus (hs.status.writeClear w) rfl
  · exact hs.accept w herr hrst
  · exact hs.of_same_fields rfl
  · exact hs.of_same_fields rfl
  · obtain ⟨_, halign, hat⟩ := BusReq.target_some ht
    obtain ⟨rfl, hstore⟩ := targetAt_store hat
    exact hs.setMem (Memory.wf_write hs.memory fun i hi => isStore_word hstore halign hi)

theorem hostOp {op : HostOp} (h : hostOp op s = .next t) : t.Inv := by
  obtain ⟨_, rfl⟩ | ⟨_, rfl⟩ | ⟨_, _, _, _, rfl⟩ | ⟨r, tg, _, hrst, _, ht, rfl⟩ := hostOp_cases h
  · exact pinReset s
  · exact { hs with inReset := nofun }
  · exact hs.of_same_fields rfl
  · exact (hs.busStore ht hrst r.wdata).of_same_fields rfl

end State.Inv

end Sys2Proof.Machine
end

section
/-! CERTIFICATES. 40_control.md R146: every step keeps the machine's invariant. -/

namespace Sys2Proof.Claims

open Sys2Proof.Machine

/-- Settles O21: the engine's steps and the host's actions each keep the invariant, and taking a turn touches
no field it speaks of. -/
theorem stepKeepsTheInvariant : Obligations.StepKeepsTheInvariant := by
  intro s t hs hstep
  cases step_kind hstep with
  | engine _ rest i hb hd h =>
    have hs' : State.Inv { s with turns := rest } := hs.of_same_fields rfl
    exact hs'.engineStep hb (exec_engineStep h)
  | illegal rest e hb hd =>
    have hs' : State.Inv { s with turns := rest } := hs.of_same_fields rfl
    exact hs'.fail .illegal
  | idle rest => exact hs.of_same_fields rfl
  | host _ rest op ops hi h =>
    have hs' : State.Inv { s with turns := rest, inbox := ops } := hs.of_same_fields rfl
    exact hs'.hostOp h

end Sys2Proof.Claims
end

section
/-! SUPPORT. The engine's turn, writes of `CMD`, and what a completion leaves as it is (40_control.md R140 to
R147). -/

namespace Sys2Proof.Machine

open Sys2Proof.Claims

/-- Whose turn the schedule's first entry says, it is (log 1). -/
theorem step_of_engine_scheduled {s : State} {rest : List Agent} (hturns : s.turns = .engine :: rest) :
    step s = engineTurn { s with turns := rest } := by
  simp only [step, State.takeTurn, hturns]

theorem engineTurn_of_command {s : State} {i : Instr} (hbusy : s.status.busy = true)
    (hcmd : decode s.run.cmd = .ok i) : engineTurn s = exec i s := by
  simp only [engineTurn, hbusy, hcmd, if_true]

/-! ### Writes of CMD -/

theorem State.issue_accepted {s : State} (hbusy : s.status.busy = false) (herr : s.status.err = false)
    (w : Word) : s.issue w = s.accept w := by
  simp only [State.issue, hbusy, herr, Bool.or_self, Bool.false_eq_true, if_false]

theorem State.issue_refused {s : State} (h : s.status.busy = true ∨ s.status.err = true) (w : Word) :
    s.issue w = s.overrun :=
  if_pos (Bool.or_eq_true_iff.2 h)

theorem busAccess_cmd_write {r : BusReq} {w : Word} (h : IsWrite r 0x10 w) (s : State) :
    busAccess r s = .next { s.issue w with resp := .writeDone } :=
  busAccess_of_isWrite h rfl rfl s

/-! ### Completions -/

/-- A commit completes the command, whatever was written in the same step (R145). -/
theorem State.completes_commit {s u : State} (h : u = { s with
    mem := u.mem, domain := u.domain, result0 := u.result0, result1 := u.result1, ent := u.ent }) :
    Completes s u.commit := by
  rw [h]
  exact ⟨rfl, rfl, rfl, rfl, rfl, ⟨rfl, rfl, rfl, rfl, rfl, rfl, rfl, rfl, rfl, rfl⟩,
    rfl, rfl, rfl, rfl, rfl, rfl, rfl, rfl, rfl⟩

theorem exec_nop (s : State) : exec .nop s = .next s.commit := rfl

/-- A nonzero word with opcode 0 has a reserved bit set, or a bank field that `NOP`'s row does not use
(30_encoding.md R114, R115). -/
theorem decode_nop_opcode {w : Word} (hop : (fieldsOf w).op = 0) (hw : w ≠ 0) :
    ∃ e, decode w = .error e := by
  refine decode_error_iff.2 (or_iff_not_imp_left.2 fun hz => decodeOp_error_iff.2 (.inr
    ⟨⟨0x00, false, false, false⟩, List.mem_cons_self, hop.symm, fun hunused => hw ?_⟩))
  rw [← assemble_fieldsOf (not_not.1 hz), hop, hunused.d rfl, hunused.a rfl, hunused.b rfl]
  rfl

end Sys2Proof.Machine
end

section
/-! SUPPORT. Other values in the registers a running command has latched (40_control.md R142, 10_state.md R51):
each operand form, and then each command, answers the same with them. -/

namespace Sys2Proof.Machine

open Sys2Proof.Claims

section
variable {c : Ctrl} {x y : Word} {v : Vector Word 16} {s : State}

theorem withHostRegisters_run : (withHostRegisters c x y v s).run = s.run := rfl

theorem withKind_hostRegisters {body body' : Kind → Result}
    (h : ∀ k, body' k = mapNext (withHostRegisters c x y v) (body k)) :
    withKind (withHostRegisters c x y v s) body' = mapNext (withHostRegisters c x y v) (withKind s body) := by
  rw [withKind, withKind, withHostRegisters_run]
  cases kindOf s.run.kind with
  | none => rfl
  | some k => exact h k

theorem withArg_hostRegisters {ok : Bool} {body body' : Result}
    (h : body' = mapNext (withHostRegisters c x y v) body) :
    withArg (withHostRegisters c x y v s) ok body' =
      mapNext (withHostRegisters c x y v) (withArg s ok body) := by
  cases ok
  · rfl
  · exact h

theorem withTag_hostRegisters {b : Bank} {tag : Bool} {body body' : Result}
    (h : body' = mapNext (withHostRegisters c x y v) body) :
    withTag (withHostRegisters c x y v s) b tag body' =
      mapNext (withHostRegisters c x y v) (withTag s b tag body) := by
  rw [withTag, withTag, withHostRegisters_run]
  split
  · exact h
  · rfl

theorem withWords_hostRegisters {b : Bank} {n : Nat} {body body' : List Word → Result}
    (h : ∀ ws, body' ws = mapNext (withHostRegisters c x y v) (body ws)) :
    withWords (withHostRegisters c x y v s) b n body' =
      mapNext (withHostRegisters c x y v) (withWords s b n body) := by
  have hread : (withHostRegisters c x y v s).readBank b n = s.readBank b n := rfl
  rw [withWords, withWords, hread]
  cases s.readBank b n with
  | none => rfl
  | some ws => exact h ws

theorem withCoeffs_hostRegisters {b : Bank} {r : RingParams} {body body' : List Nat → Result}
    (h : ∀ cs, body' cs = mapNext (withHostRegisters c x y v) (body cs)) :
    withCoeffs (withHostRegisters c x y v s) b r body' =
      mapNext (withHostRegisters c x y v) (withCoeffs s b r body) := by
  refine withWords_hostRegisters fun ws => ?_
  split
  · exact h _
  · rfl

theorem runSampler_hostRegisters {α : Type} {p : Sampler α} {finish : α → State → State}
    (h : ∀ a, finish a (withHostRegisters c x y v s) = withHostRegisters c x y v (finish a s)) :
    runSampler p (withHostRegisters c x y v s) finish =
      mapNext (withHostRegisters c x y v) (runSampler p s finish) := by
  rw [runSampler, runSampler, withHostRegisters_run]
  cases p s.run.drawn with
  | need r => rfl
  | done a rest => exact congrArg _ (h a)

end

/-- R142 for one engine step: a case for each command. -/
theorem exec_hostRegisters (i : Instr) (s : State) (c : Ctrl) (x y : Word) (v : Vector Word 16) :
    exec i (withHostRegisters c x y v s) = mapNext (withHostRegisters c x y v) (exec i s) := by
  cases i with
  | nop | entSeed => rfl
  | nttFwd d a | nttInv d a =>
    exact withKind_hostRegisters fun k => withTag_hostRegisters (withCoeffs_hostRegisters fun _ => rfl)
  | nttPmul d a b | nttMul d a b =>
    exact withKind_hostRegisters fun k => withTag_hostRegisters (withTag_hostRegisters
      (withCoeffs_hostRegisters fun _ => withCoeffs_hostRegisters fun _ => rfl))
  | nttNeg d a => exact withKind_hostRegisters fun k => withCoeffs_hostRegisters fun _ => rfl
  | nttInvert d a =>
    refine withKind_hostRegisters fun k => withTag_hostRegisters (withCoeffs_hostRegisters fun cs => ?_)
    dsimp only
    split <;> rfl
  | nttModq d a => exact withKind_hostRegisters fun k => withWords_hostRegisters fun _ => rfl
  | smpGauss d =>
    refine withKind_hostRegisters fun k => ?_
    rw [withHostRegisters_run]
    cases gauss (Config.sampler k) s.run.drawn with
    | need r => rfl
    | done z rest =>
      dsimp only
      split <;> rfl
  | smpGauss1 | smpPosbin | smpBerexp | smpBercosh =>
    exact withKind_hostRegisters fun k => runSampler_hostRegisters fun _ => rfl
  | smpBer =>
    exact withKind_hostRegisters fun k => withArg_hostRegisters (runSampler_hostRegisters fun _ => rfl)
  | entBit | entByte | entR16 => exact runSampler_hostRegisters fun _ => rfl
  | entBits => exact withArg_hostRegisters (runSampler_hostRegisters fun _ => rfl)
  | entR64 =>
    rw [exec, exec, execEntR64, execEntR64]
    exact runSampler_hostRegisters fun _ => rfl
  | hufEnc =>
    refine withKind_hostRegisters fun k => withArg_hostRegisters ?_
    have hsym : (withHostRegisters c x y v s).sym? = s.sym? := rfl
    rw [hsym, withHostRegisters_run]
    cases encodeFrom (Config.codec k).book (Config.codec k).lmax s.sym? s.run.a0.toNat 0 0 0 <;> rfl
  | hufDec =>
    refine withKind_hostRegisters fun k => withArg_hostRegisters ?_
    have hcode (n : Nat) : (withHostRegisters c x y v s).readCode n = s.readCode n := rfl
    rw [hcode, withHostRegisters_run]
    cases s.readCode (streamBytes s.run.a0.toNat) with
    | none => rfl
    | some bytes =>
      dsimp only
      split <;> rfl

end Sys2Proof.Machine
end

section
/-! CERTIFICATES. 40_control.md: the engine's turn, the `CMD` write, `NOP`, and the latched context. -/

namespace Sys2Proof.Claims

open Sys2Proof.Machine

/-- Settles O4: with no turn scheduled the running command has it, and else the schedule gives it. -/
theorem stepRunsTheDecodedCommand : Obligations.StepRunsTheDecodedCommand := by
  refine fun s i hbusy hcmd => ⟨fun hturns => ?_, fun rest hturns => ?_⟩
  · rw [step_of_busy hbusy hturns, engineTurn_of_command hbusy hcmd]
  · rw [step_of_engine_scheduled hturns]
    exact engineTurn_of_command hbusy hcmd

/-- Settles O6: the write is accepted, and the accepted word runs in the next step. -/
theorem acceptanceLatchesTheContext : Obligations.AcceptanceLatchesTheContext := by
  intro s r w hw hbusy herr
  refine ⟨{ s.accept w with resp := .writeDone }, ?_, rfl, rfl, rfl, rfl, rfl, rfl, rfl, rfl, rfl, rfl, rfl,
    rfl, herr, rfl, rfl, rfl, rfl, rfl, rfl, rfl, rfl, rfl, ⟨rfl, rfl⟩, fun hturns i hd => ?_⟩
  · rw [busAccess_cmd_write hw, State.issue_accepted hbusy herr]
  · exact (stepRunsTheDecodedCommand { s.accept w with resp := .writeDone } i rfl hd).1 hturns

/-- Settles O7: the refused write is an overrun. -/
theorem refusedCommandWriteSetsOvr : Obligations.RefusedCommandWriteSetsOvr := by
  intro s r w hw h
  rw [busAccess_cmd_write hw, State.issue_refused h]
  rfl

/-- Settles O34: `NOP` is the one word of opcode 0, and its step is a commit with nothing pending. -/
theorem nopCompletes : Obligations.NopCompletes :=
  ⟨rfl, fun _ => decode_nop_opcode,
    fun s => ⟨s.commit, exec_nop s, State.completes_commit rfl, fun _ => rfl, rfl, ⟨rfl, rfl⟩, rfl⟩⟩

/-- Settles O26: no operand form and no command reads a latched register. -/
theorem runningCommandUsesLatchedCopiesOnly : Obligations.RunningCommandUsesLatchedCopiesOnly :=
  exec_hostRegisters

end Sys2Proof.Claims
end

section
/-! SUPPORT. One engine step of a command with draws (40_control.md R144, R145): the draw its procedure asks
for, or the completion. -/

namespace Sys2Proof.Machine

open Sys2Proof.Claims

/-! ### What the step leaves as it is -/

theorem State.drawsOnce_draw (s : State) (r : DrawReq) : DrawsOnce s (s.draw r) r :=
  ⟨rfl, rfl, rfl, fun _ => rfl, rfl, ⟨rfl, rfl⟩, rfl, rfl, rfl, rfl, rfl, rfl, rfl, rfl, rfl, rfl⟩

/-- The step that keeps a sample: nothing drawn yet for the next one, and its first draw (log 13). -/
def State.nextSample (s : State) (v : Word) : State :=
  State.draw { s with run := { s.run with drawn := [], pending := s.run.pending ++ [v] } } .bit

theorem State.keepsSample_nextSample (s : State) (v : Word) : KeepsSample s (s.nextSample v) v :=
  ⟨rfl, rfl, rfl, fun _ => rfl, rfl, ⟨rfl, rfl⟩, rfl, rfl, rfl, rfl, rfl, rfl, rfl, rfl, rfl, rfl⟩

theorem State.commitsResult0_commitResult (s : State) (v : Word) : CommitsResult0 s (s.commitResult v) :=
  ⟨State.completes_commit rfl, fun _ => rfl, rfl, rfl, rfl⟩

/-! ### The step of a procedure -/

section
variable {α : Type} {p : Sampler α} {s : State} {finish : α → State → State}

theorem runSampler_of_need {r : DrawReq} (h : p s.run.drawn = .need r) :
    runSampler p s finish = .next (s.draw r) := by
  simp only [runSampler, h]

theorem runSampler_of_done {v : α} {rest : List DWord} (h : p s.run.drawn = .done v rest) :
    runSampler p s finish = .next (finish v s) := by
  simp only [runSampler, h]

end

section
variable {s : State} {k : Kind} {d : Bank} (hk : kindOf s.run.kind = some k)
include hk

theorem exec_smpGauss_of_need {r : DrawReq} (h : gauss (Config.sampler k) s.run.drawn = .need r) :
    exec (.smpGauss d) s = .next (s.draw r) := by
  simp only [exec, execSmpGauss, withKind_some hk, h]

theorem exec_smpGauss_of_sample {z : Int} {rest : List DWord}
    (h : gauss (Config.sampler k) s.run.drawn = .done z rest)
    (hmore : s.run.pending.length + 1 < Config.N k) :
    exec (.smpGauss d) s = .next (s.nextSample (sampleWord z)) := by
  have hlen : (s.run.pending ++ [sampleWord z]).length < Config.N k := by simpa using hmore
  simp only [exec, execSmpGauss, withKind_some hk, h, if_pos hlen]
  rfl

theorem exec_smpGauss_of_last {z : Int} {rest : List DWord}
    (h : gauss (Config.sampler k) s.run.drawn = .done z rest)
    (hlast : ¬ s.run.pending.length + 1 < Config.N k) :
    exec (.smpGauss d) s = .next (s.commitBank d (s.run.pending ++ [sampleWord z]) false) := by
  have hlen : ¬ (s.run.pending ++ [sampleWord z]).length < Config.N k := by simpa using hlast
  simp only [exec, execSmpGauss, withKind_some hk, h, if_neg hlen]

end

/-! ### When one draw is asked for -/

theorem drawBit_need {ds : List DWord} {r : DrawReq} : drawBit ds = .need r ↔ ds = [] ∧ r = .bit := by
  cases ds <;> simp [drawBit, eq_comm]

theorem drawByte_need {ds : List DWord} {r : DrawReq} : drawByte ds = .need r ↔ ds = [] ∧ r = .byte := by
  cases ds <;> simp [drawByte, eq_comm]

theorem draw16_need {ds : List DWord} {r : DrawReq} : draw16 ds = .need r ↔ ds = [] ∧ r = .r16 := by
  cases ds <;> simp [draw16, eq_comm]

theorem draw64_need {ds : List DWord} {r : DrawReq} : draw64 ds = .need r ↔ ds = [] ∧ r = .r64 := by
  cases ds <;> simp [draw64, eq_comm]

theorem drawBits_need {k : Nat} {ds : List DWord} {r : DrawReq} :
    drawBits k ds = .need r ↔ ds = [] ∧ 1 ≤ k ∧ r = .bits k := by
  by_cases hk : k = 0
  · simp [drawBits, hk]
  · cases ds <;> simp [drawBits, hk, Nat.one_le_iff_ne_zero, eq_comm]

/-! ### The command -/

/-- R144 for one command: it makes the draw it requests, a real one, or it completes; `SMP.GAUSS` can keep a
sample instead. -/
def DrawsOrCompletes (i : Instr) (s : State) : Prop :=
  (∀ r, Requests s r i → (∀ n, r = .bits n → 1 ≤ n ∧ n ≤ 32) ∧
    ∃ t, exec i s = .next t ∧ DrawsOnce s t r) ∧
  ((∀ r, ¬ Requests s r i) → ∃ t, exec i s = .next t ∧
    ((t.ent = s.ent ∧ Completes s t) ∨
     (∃ d k v, i = .smpGauss d ∧ kindOf s.run.kind = some k ∧
        s.run.pending.length + 1 < Config.N k ∧ KeepsSample s t v)))

/-- `RandomBits` is asked for 1 to 32 bits (41_entropy.md R170). -/
theorem DrawReq.legal_bits {r : DrawReq} (h : r.legal) (n : Nat) (hr : r = .bits n) :
    1 ≤ n ∧ n ≤ 32 := by
  subst hr
  exact h

/-- A command that computes one value by a procedure. -/
theorem DrawsOrCompletes.ofSampler {α : Type} {i : Instr} {s : State} {p : Sampler α}
    {finish : α → State → State} (hexec : exec i s = runSampler p s finish) (hlegal : p.asksLegal)
    (hreq : ∀ r, Requests s r i ↔ p s.run.drawn = .need r)
    (hfinish : ∀ v, (finish v s).ent = s.ent ∧ Completes s (finish v s)) : DrawsOrCompletes i s := by
  refine ⟨fun r hr => ?_, fun hnone => ?_⟩ <;> rw [hexec]
  · have hneed := (hreq r).1 hr
    exact ⟨DrawReq.legal_bits (hlegal _ r hneed), _, runSampler_of_need hneed, s.drawsOnce_draw r⟩
  · cases hp : p s.run.drawn with
    | need r => exact absurd ((hreq r).2 hp) (hnone r)
    | done v rest => exact ⟨_, runSampler_of_done hp, .inl (hfinish v)⟩

theorem intoResult0_completes {α : Type} (f : α → Word) (s : State) (v : α) :
    (intoResult0 f v s).ent = s.ent ∧ Completes s (intoResult0 f v s) :=
  ⟨rfl, (s.commitsResult0_commitResult (f v)).completes⟩

/-- A valid latched kind is the kind a request speaks of. -/
theorem exists_kind_iff {s : State} {k : Kind} (hk : kindOf s.run.kind = some k) {P : Kind → Prop} :
    (∃ k, kindOf s.run.kind = some k ∧ P k) ↔ P k := by
  simp [hk]

theorem drawsOrCompletes_smpGauss {s : State} {k : Kind} (hk : kindOf s.run.kind = some k) (d : Bank) :
    DrawsOrCompletes (.smpGauss d) s := by
  refine ⟨fun r hr => ?_, fun hnone => ?_⟩
  · have hneed := (exists_kind_iff hk).1 hr
    exact ⟨DrawReq.legal_bits (asksLegal_gauss (sampler_bounds k) _ r hneed), _, exec_smpGauss_of_need hk hneed,
      s.drawsOnce_draw r⟩
  · cases hg : gauss (Config.sampler k) s.run.drawn with
    | need r => exact absurd ((exists_kind_iff hk).2 hg) (hnone r)
    | done z rest =>
      by_cases hmore : s.run.pending.length + 1 < Config.N k
      · exact ⟨_, exec_smpGauss_of_sample hk hg hmore,
          .inr ⟨d, k, _, rfl, hk, hmore, s.keepsSample_nextSample _⟩⟩
      · exact ⟨_, exec_smpGauss_of_last hk hg hmore, .inl ⟨rfl, State.completes_commit rfl⟩⟩

/-- R144 for every command with draws: a case for each. -/
theorem drawsOrCompletes {i : Instr} {s : State} (h : DrawsWhenLegal s i) : DrawsOrCompletes i s := by
  cases i with
  | smpGauss d =>
    obtain ⟨k, hk⟩ := Option.ne_none_iff_exists'.1 h
    exact drawsOrCompletes_smpGauss hk d
  | smpGauss1 =>
    obtain ⟨k, hk⟩ := Option.ne_none_iff_exists'.1 h
    exact .ofSampler (withKind_some hk _) (asksLegal_gauss (sampler_bounds k))
      (fun _ => exists_kind_iff hk) (intoResult0_completes _ s)
  | smpPosbin =>
    obtain ⟨k, hk⟩ := Option.ne_none_iff_exists'.1 h
    exact .ofSampler (withKind_some hk _) asksLegal_positiveBinary
      (fun _ => Iff.rfl) (intoResult0_completes _ s)
  | smpBer =>
    obtain ⟨k, hk, hrow⟩ := h
    exact .ofSampler ((withKind_some hk _).trans (withArg_legal (decide_eq_true hrow) _))
      (asksLegal_bernoulliFrom _ _ _ _) (fun _ => exists_kind_iff hk) (intoResult0_completes _ s)
  | smpBerexp =>
    obtain ⟨k, hk⟩ := Option.ne_none_iff_exists'.1 h
    exact .ofSampler (withKind_some hk _) (asksLegal_bernoulliExp _ _)
      (fun _ => exists_kind_iff hk) (intoResult0_completes _ s)
  | smpBercosh =>
    obtain ⟨k, hk⟩ := Option.ne_none_iff_exists'.1 h
    exact .ofSampler (withKind_some hk _) (asksLegal_bernoulliCosh _ _)
      (fun _ => exists_kind_iff hk) (intoResult0_completes _ s)
  | entBit => exact .ofSampler rfl asksLegal_drawBit (fun _ => drawBit_need.symm) (intoResult0_completes _ s)
  | entBits =>
    have hk : s.run.a0.toNat ≤ 32 := h
    exact .ofSampler (withArg_legal (decide_eq_true hk) _) (asksLegal_drawBits hk)
      (fun _ => drawBits_need.symm) (intoResult0_completes _ s)
  | entByte => exact .ofSampler rfl asksLegal_drawByte (fun _ => drawByte_need.symm) (intoResult0_completes _ s)
  | entR16 => exact .ofSampler rfl asksLegal_draw16 (fun _ => draw16_need.symm) (intoResult0_completes _ s)
  | entR64 =>
    exact .ofSampler (execEntR64.eq_1 s) asksLegal_draw64 (fun _ => draw64_need.symm)
      fun v => ⟨rfl, State.completes_commit rfl⟩
  | nop | nttFwd | nttInv | nttPmul | nttNeg | nttInvert | nttMul | nttModq | entSeed | hufEnc | hufDec =>
    exact False.elim h

end Sys2Proof.Machine
end

section
/-! CERTIFICATES. 40_control.md R144: the engine steps of a command with draws. -/

namespace Sys2Proof.Claims

open Sys2Proof.Machine

/-- Settles O28: each command with draws is a procedure's step, or `SMP.GAUSS`'s. -/
theorem drawingCommandsDrawOrComplete : Obligations.DrawingCommandsDrawOrComplete :=
  fun _ _ => drawsOrCompletes

end Sys2Proof.Claims
end

section
/-! SUPPORT. How long a procedure runs (40_control.md R148): `BernoulliExp` row by row and its bound, and a
round that `PositiveBinary` restarts after (43_sampler.md R252 to R255). -/

namespace Sys2Proof.Machine

open Sys2Proof.Claims

/-! ### A bound on the draws used -/

/-- On `n` draws or more the procedure is done, and uses at most `n` of them. -/
def Sampler.doneWithin {α : Type} (m : Sampler α) (n : Nat) : Prop :=
  ∀ ds, n ≤ ds.length → ∃ v rest, m ds = .done v rest ∧ ds.length ≤ rest.length + n

theorem Sampler.doneWithin_ret {α : Type} (v : α) (n : Nat) : (Sampler.ret v).doneWithin n :=
  fun _ _ => ⟨v, _, rfl, Nat.le_add_right _ _⟩

theorem Sampler.doneWithin_mono {α : Type} {m : Sampler α} {a b : Nat} (hm : m.doneWithin a)
    (hab : a ≤ b) : m.doneWithin b := fun ds hds => by
  obtain ⟨v, rest, hv, hrest⟩ := hm ds (by omega)
  exact ⟨v, rest, hv, by omega⟩

theorem Sampler.doneWithin_andThen {α β : Type} {m : Sampler α} {f : α → Sampler β} {a b : Nat}
    (hm : m.doneWithin a) (hf : ∀ v, (f v).doneWithin b) : (m.andThen f).doneWithin (a + b) := by
  intro ds hds
  obtain ⟨v, rest, hv, hrest⟩ := hm ds (by omega)
  obtain ⟨w, rest', hw, hrest'⟩ := hf v rest (by omega)
  exact ⟨w, rest', (Sampler.andThen_done hv).trans hw, by omega⟩

theorem doneWithin_drawByte : Sampler.doneWithin drawByte 1
  | [], h => absurd h (by decide)
  | _ :: rest, _ => ⟨_, rest, rfl, Nat.le_refl _⟩

/-- `Bernoulli` draws at most one byte for each column left (R252). -/
theorem doneWithin_bernoulliFrom (c : SamplerParams) (i left j : Nat) :
    (bernoulliFrom c i left j).doneWithin left := by
  induction left generalizing j with
  | zero => exact Sampler.doneWithin_ret true 0
  | succ left ih =>
    rw [bernoulliFrom, Nat.add_comm left 1]
    refine Sampler.doneWithin_andThen doneWithin_drawByte fun u => ?_
    split
    · exact Sampler.doneWithin_ret true left
    · split
      · exact Sampler.doneWithin_ret false left
      · exact ih (j + 1)

/-! ### BernoulliExp -/

section
variable {c : SamplerParams} {x y : Word} {i : Nat}

/-- A set bit below ELL consults its row (R253). -/
theorem bernoulliRows_consults (hi : i < c.ell) (hx : x.getLsbD i = true) :
    bernoulliRows c x (i + 1) =
      (bernoulli c i).andThen fun b => if b then bernoulliRows c x i else Sampler.ret false := by
  rw [bernoulliRows, if_pos (by simp [hi, hx])]

/-- Any other bit consults none. -/
theorem bernoulliRows_skips (h : i < c.ell → x.getLsbD i = false) :
    bernoulliRows c x (i + 1) = bernoulliRows c x i := by
  rw [bernoulliRows, if_neg fun hc => ?_]
  obtain ⟨hx, hi⟩ := Bool.and_eq_true_iff.1 hc
  cases hx.symm.trans (h (of_decide_eq_true hi))

/-- Only the bits below ELL matter. -/
theorem bernoulliRows_congr (n : Nat) (h : ∀ i, i < n → i < c.ell → x.getLsbD i = y.getLsbD i) :
    bernoulliRows c x n = bernoulliRows c y n := by
  induction n with
  | zero => rfl
  | succ n ih =>
    have hrest := ih fun i hi => h i (by omega)
    by_cases hn : n < c.ell ∧ x.getLsbD n = true
    · obtain ⟨hell, hx⟩ := hn
      have hy : y.getLsbD n = true := (h n n.lt_succ_self hell).symm.trans hx
      rw [bernoulliRows_consults hell hx, bernoulliRows_consults hell hy, hrest]
    · have hx : n < c.ell → x.getLsbD n = false := by simpa using hn
      have hy : n < c.ell → y.getLsbD n = false := fun hell => (h n n.lt_succ_self hell).symm.trans (hx hell)
      rw [bernoulliRows_skips hx, bernoulliRows_skips hy, hrest]

/-- With no set bit from `m` on, the first `m` rows are all. -/
theorem bernoulliRows_of_clear_above {m n : Nat} (hmn : m ≤ n)
    (h : ∀ j, m ≤ j → j < c.ell → x.getLsbD j = false) : bernoulliRows c x n = bernoulliRows c x m := by
  induction n, hmn using Nat.le_induction with
  | base => rfl
  | succ n hmn ih => rw [bernoulliRows_skips (h n hmn), ih]

theorem getLsbD_clearBit {j : Nat} (hj : j < 32) :
    (x &&& ~~~(1#32 <<< i)).getLsbD j = (x.getLsbD j && !decide (j = i)) := by
  have hbit : (1#32 <<< i).getLsbD j = decide (j = i) := by
    rw [BitVec.getLsbD_shiftLeft, BitVec.getLsbD_one]
    by_cases h : j = i
    · simp [h, h ▸ hj]
    · simp [hj, h]
      omega
  simp only [BitVec.getLsbD_and, BitVec.getLsbD_not, hbit, hj, decide_true, Bool.true_and]

/-- The highest set bit's row comes first, and then the rows of the other bits (R253). -/
theorem bernoulliExp_of_highest (hell : c.ell ≤ 32) (hi : i < c.ell) (hx : x.getLsbD i = true)
    (habove : ∀ j, i < j → j < c.ell → x.getLsbD j = false) :
    bernoulliExp c x = (bernoulli c i).andThen fun b =>
      if b then bernoulliExp c (x &&& ~~~(1#32 <<< i)) else Sampler.ret false := by
  have hi32 : i < 32 := by omega
  have hrest : bernoulliExp c (x &&& ~~~(1#32 <<< i)) = bernoulliRows c x i := by
    rw [bernoulliExp, bernoulliRows_of_clear_above (Nat.le_of_lt hi32) fun j hj hj' => ?_]
    · refine bernoulliRows_congr i fun j hj _ => ?_
      simp [getLsbD_clearBit (Nat.lt_trans hj hi32), Nat.ne_of_lt hj]
    · rw [getLsbD_clearBit (by omega)]
      obtain rfl | hj := Nat.eq_or_lt_of_le hj
      · simp
      · simp [habove j hj hj']
  rw [hrest, bernoulliExp, bernoulliRows_of_clear_above hi32 habove, bernoulliRows_consults hi hx]

theorem bernoulliExp_of_clear (h : ∀ i, i < c.ell → x.getLsbD i = false) :
    bernoulliExp c x = Sampler.ret true :=
  bernoulliRows_of_clear_above (Nat.zero_le 32) fun j _ => h j

theorem bernoulliExp_zero : bernoulliExp c 0 = Sampler.ret true :=
  bernoulliExp_of_clear fun _ _ => BitVec.getLsbD_zero

/-- At most COLS draws for each of the ELL rows (40_control.md R148). -/
theorem doneWithin_bernoulliExp (hell : c.ell ≤ 32) : (bernoulliExp c x).doneWithin (c.ell * c.cols) := by
  have hrows (n : Nat) : (bernoulliRows c x n).doneWithin (n * c.cols) := by
    induction n with
    | zero => exact Sampler.doneWithin_ret true _
    | succ n ih =>
      rw [bernoulliRows]
      split
      · rw [Nat.succ_mul, Nat.add_comm]
        refine Sampler.doneWithin_andThen (doneWithin_bernoulliFrom c n c.cols 0) fun b => ?_
        split
        · exact ih
        · exact Sampler.doneWithin_ret false _
      · exact Sampler.doneWithin_mono ih (Nat.mul_le_mul_right _ n.le_succ)
  rw [bernoulliExp, bernoulliRows_of_clear_above hell fun j hj hj' => by omega]
  exact hrows c.ell

end

/-- `BernoulliCosh` of an argument that doubles to 0 is true at once (R254). -/
theorem bernoulliCosh_of_coshArg_zero (c : SamplerParams) {x : Word} (hx : coshArg x = 0)
    (ds : List DWord) :
    bernoulliCosh c x ds = .done true ds := by
  have hexp : bernoulliExp c (coshArg x) ds = .done true ds := hx ▸ congrFun bernoulliExp_zero ds
  rw [bernoulliCosh, coshLoop, Sampler.andThen_done hexp]
  rfl

/-! ### The commands -/

section
variable {s : State} {k : Kind} (hk : kindOf s.run.kind = some k)
include hk

theorem exec_smpBerexp (b : Bool) {rest : List DWord}
    (h : bernoulliExp (Config.sampler k) s.run.a0 s.run.drawn = .done b rest) :
    exec .smpBerexp s = .next (s.commitResult (boolWord b)) :=
  (withKind_some hk _).trans (runSampler_of_done h)

theorem exec_smpBercosh (b : Bool) {rest : List DWord}
    (h : bernoulliCosh (Config.sampler k) s.run.a0 s.run.drawn = .done b rest) :
    exec .smpBercosh s = .next (s.commitResult (boolWord b)) :=
  (withKind_some hk _).trans (runSampler_of_done h)

theorem exec_smpPosbin_of_need {r : DrawReq} (h : positiveBinary s.run.drawn = .need r) :
    exec .smpPosbin s = .next (s.draw r) :=
  (withKind_some hk _).trans (runSampler_of_need h)

end

/-! ### PositiveBinary's rounds -/

/-- The draws 1, 1, 5 are one round: the first bit, the 1-bit group 1, and a 3-bit group that restarts (R255). -/
theorem positiveBinary_round (ds : List DWord) : positiveBinary (1 :: 1 :: 5 :: ds) = positiveBinary ds := by
  have hround : positiveBinary (1 :: 1 :: 5 :: ds) = posLoop (ds.length + 3) ds := rfl
  rw [hround]
  exact posLoop_bound _ _ ds (by omega) (by omega)

/-- The draw a round asks for after `n` draws. -/
def roundRequest (n : Nat) : DrawReq := if n % 3 = 0 then .bit else if n % 3 = 1 then .bits 1 else .bits 3

theorem roundRequest_add_three (n : Nat) : roundRequest (n + 3) = roundRequest n := by
  simp only [roundRequest, Nat.add_mod_right]

theorem positiveBinary_within_rounds (m : Nat) {ds : List DWord}
    (h : ds <+: (List.replicate m [(1 : DWord), 1, 5]).flatten) :
    positiveBinary ds = .need (roundRequest ds.length) := by
  induction m generalizing ds with
  | zero =>
    obtain rfl := List.prefix_nil.1 h
    rfl
  | succ m ih =>
    rw [List.replicate_succ, List.flatten_cons] at h
    obtain rfl | ⟨ds, rfl, h1⟩ := List.prefix_cons_iff.1 h
    · rfl
    · obtain rfl | ⟨ds, rfl, h2⟩ := List.prefix_cons_iff.1 h1
      · rfl
      · obtain rfl | ⟨ds, rfl, h3⟩ := List.prefix_cons_iff.1 h2
        · rfl
        · rw [positiveBinary_round, ih h3]
          exact congrArg _ (roundRequest_add_three ds.length).symm

end Sys2Proof.Machine
end

section
/-! CERTIFICATES. 40_control.md R148: which commands are bounded and which are not. -/

namespace Sys2Proof.Claims

open Sys2Proof.Machine

/-- What R253 says of the row of the highest set bit below ELL. -/
theorem bernoulliExp_highest_row {c : SamplerParams} {x : Word} (ds : List DWord) (hell : c.ell ≤ 32)
    {i : Nat} (hi : i < c.ell) (hx : x.getLsbD i = true)
    (habove : ∀ j, i < j → j < c.ell → x.getLsbD j = false) :
    (∀ r, Sys2Proof.Machine.bernoulli c i ds = .need r → bernoulliExp c x ds = .need r) ∧
    (∀ rest, Sys2Proof.Machine.bernoulli c i ds = .done false rest →
      bernoulliExp c x ds = .done false rest) ∧
    (∀ rest, Sys2Proof.Machine.bernoulli c i ds = .done true rest →
      bernoulliExp c x ds = bernoulliExp c (x &&& ~~~(1#32 <<< i)) rest) := by
  rw [bernoulliExp_of_highest hell hi hx habove]
  exact ⟨fun r h => Sampler.andThen_need h, fun rest h => Sampler.andThen_done h,
    fun rest h => Sampler.andThen_done h⟩

/-- Settles O51: row by row from the highest set bit, within COLS draws a row; and a BernoulliExp without rows
in either command. -/
theorem bernoulliExpIsBounded : Obligations.BernoulliExpIsBounded := by
  refine ⟨fun c x y ds hell => ⟨fun i hi hx habove => bernoulliExp_highest_row ds hell hi hx habove,
    fun h => congrFun (bernoulliExp_of_clear h) ds, doneWithin_bernoulliExp hell ds,
    fun h => bernoulliRows_congr 32 fun i _ => h i⟩, fun s k hk => ⟨fun hclear => ?_, fun hx => ?_⟩⟩
  · have hdone := congrFun (bernoulliExp_of_clear (c := Config.sampler k) hclear) s.run.drawn
    exact ⟨_, exec_smpBerexp hk true hdone, s.commitsResult0_commitResult _, rfl⟩
  · have harg : coshArg s.run.a0 = 0 := by
      obtain h | h := hx <;> rw [h] <;> decide
    exact ⟨_, exec_smpBercosh hk true (bernoulliCosh_of_coshArg_zero _ harg _),
      s.commitsResult0_commitResult _, rfl⟩

/-- Settles O57: every whole round starts the procedure anew, so draws that end inside a round ask for its next
draw. -/
theorem posbinCanRunForever : Obligations.PosbinCanRunForever := fun m s _ hk h =>
  ⟨_, exec_smpPosbin_of_need hk (positiveBinary_within_rounds m h), rfl, s.drawsOnce_draw _⟩

end Sys2Proof.Claims
end

section
/-! SUPPORT. What an engine step does to the entropy state (41_entropy.md R163; 42_ntt.md R200,
44_huffman.md R304, 40_control.md R147): one draw, `ENT.SEED`, or nothing. -/

namespace Sys2Proof.Machine

open Sys2Proof.Claims

/-! ### The seed over an engine step -/

theorem DrawReq.legal_of_bits {r : DrawReq} (h : ∀ n, r = .bits n → 1 ≤ n ∧ n ≤ 32) : r.legal := by
  cases r with
  | bits n => exact h n rfl
  | bit | byte | r16 | r64 => trivial

/-- A command with draws, its checks passed, moves the seed as one draw does. -/
theorem seedMoved_of_drawing {i : Instr} {s t : State} (hi : DrawsWhenLegal s i) (h : exec i s = .next t) :
    s.ent.seedMoved Config.pool t.ent := by
  obtain ⟨hdraw, hdone⟩ := drawingCommandsDrawOrComplete i s hi
  by_cases hr : ∃ r, Requests s r i
  · obtain ⟨r, hr⟩ := hr
    obtain ⟨hlegal, u, hu, hdraws⟩ := hdraw r hr
    obtain rfl : u = t := by simpa [hu] using h
    rw [hdraws.entropy]
    exact Entropy.seed_draw _ (DrawReq.legal_of_bits hlegal)
  · obtain ⟨u, hu, ⟨hent, _⟩ | ⟨d, k, v, _, _, _, hkeeps⟩⟩ := hdone fun r h => hr ⟨r, h⟩ <;>
      obtain rfl : u = t := by simpa [hu] using h
    · exact .inl (congrArg Entropy.S hent)
    · rw [hkeeps.entropy]
      exact Entropy.seed_draw _ trivial

/-- The step leaves the entropy state as it is. -/
def EntropyKept (s t : State) : Prop := t.ent = s.ent

theorem EntropyKept.fail (s : State) (e : ErrCode) : EntropyKept s (s.fail e) := rfl

theorem EntropyKept.ofBank {s t : State} {d : Bank} {ws : List Word} {tag : Bool}
    (h : Host.Outcome.next (s.commitBank d ws tag) = (.next t : Result)) : EntropyKept s t := by
  cases h
  rfl

theorem EntropyKept.ofInvalidKind {s t : State} {body : Kind → Result} (hk : ¬ kindOf s.run.kind ≠ none)
    (h : withKind s body = .next t) : EntropyKept s t := by
  rw [withKind_none (not_not.1 hk)] at h
  cases h
  rfl

/-- With no draw to make, a command other than `ENT.SEED` leaves the entropy state as it is: an NTT, HUF or
`NOP` command (42_ntt.md R200, 44_huffman.md R304, 40_control.md R147), or one that a check fails. -/
theorem entropyKept_of_not_drawing {i : Instr} {s t : State} (hseed : i ≠ .entSeed)
    (hi : ¬ DrawsWhenLegal s i) (h : exec i s = .next t) : EntropyKept s t := by
  have hfail := EntropyKept.fail s
  cases i with
  | nop => cases h; rfl
  | nttFwd d a | nttInv d a =>
    exact withKind_induction hfail h fun k h => withTag_induction hfail h fun h =>
      withCoeffs_induction hfail h fun v h => .ofBank h
  | nttPmul d a b | nttMul d a b =>
    exact withKind_induction hfail h fun k h => withTag_induction hfail h fun h =>
      withTag_induction hfail h fun h => withCoeffs_induction hfail h fun v h =>
      withCoeffs_induction hfail h fun w h => .ofBank h
  | nttNeg d a =>
    exact withKind_induction hfail h fun k h => withCoeffs_induction hfail h fun v h => .ofBank h
  | nttInvert d a =>
    refine withKind_induction hfail h fun k h => withTag_induction hfail h fun h =>
      withCoeffs_induction hfail h fun v h => ?_
    dsimp only at h
    split at h
    · cases h; rfl
    · exact .ofBank h
  | nttModq d a =>
    refine withKind_induction hfail h fun k h => ?_
    obtain ⟨ws, _, h⟩ := withWords_next h
    exact .ofBank h
  | smpGauss | smpGauss1 | smpPosbin | smpBerexp | smpBercosh => exact .ofInvalidKind hi h
  | smpBer =>
    obtain ⟨k, hk, h⟩ | ⟨_, rfl⟩ := withKind_next h
    · obtain ⟨harg, _⟩ | ⟨_, rfl⟩ := withArg_next h
      · exact absurd ⟨k, hk, of_decide_eq_true harg⟩ hi
      · rfl
    · rfl
  | entSeed => exact absurd rfl hseed
  | entBit | entByte | entR16 | entR64 => exact absurd trivial hi
  | entBits =>
    obtain ⟨harg, _⟩ | ⟨_, rfl⟩ := withArg_next h
    · exact absurd (of_decide_eq_true harg) hi
    · rfl
  | hufEnc =>
    refine withKind_induction hfail h fun k h => withArg_induction hfail h fun h => ?_
    split at h
    · cases h; rfl
    · cases h; rfl
    · cases h
  | hufDec =>
    refine withKind_induction hfail h fun k h => withArg_induction hfail h fun h => ?_
    split at h
    · cases h
    · split at h
      · cases h; rfl
      · cases h; rfl

end Sys2Proof.Machine
end

section
/-! SUPPORT. The ENT commands: the staged seed by its bytes (10_state.md R48), and a draw with the completion
after it (40_control.md R144). -/

namespace Sys2Proof.Machine

open Sys2Proof.Claims

/-! ### The staged seed

Mathlib's `finFunctionFinEquiv` reads a number's digits back. -/

theorem sum_words_eq_finFunction {w n : Nat} (f : Nat → BitVec w) :
    ((List.range n).map fun i => (f i).toNat * (2 ^ w) ^ i).sum =
      (finFunctionFinEquiv fun i : Fin n => (f i).toFin : Nat) :=
  Finset.sum_range fun i => (f i).toNat * (2 ^ w) ^ i

/-- Word j of the number whose digits to the base 2^w are the words f 0 to f (n-1) is f j. -/
theorem extractLsb'_ofNat_sum_words {w n : Nat} (f : Nat → BitVec w) {j : Nat} (hj : j < n) :
    (BitVec.ofNat (w * n) ((List.range n).map fun i => (f i).toNat * (2 ^ w) ^ i).sum).extractLsb' (w * j) w =
      f j := by
  rw [sum_words_eq_finFunction]
  have hlt := (finFunctionFinEquiv fun i : Fin n => (f i).toFin).isLt
  have hdigit := congrArg Fin.val
    (congrFun (finFunctionFinEquiv.symm_apply_apply fun i : Fin n => (f i).toFin) ⟨j, hj⟩)
  apply BitVec.eq_of_toNat_eq
  rw [BitVec.extractLsb'_toNat, Nat.shiftRight_eq_div_pow, BitVec.toNat_ofNat, Nat.pow_mul, Nat.pow_mul,
    Nat.mod_eq_of_lt hlt]
  exact hdigit

/-- A word is the number of its four bytes, little-endian. -/
theorem sum_bytes_of_word (x : Word) :
    ((List.range 4).map fun m => (x.extractLsb' (8 * m) 8).toNat * 256 ^ m).sum = x.toNat := by
  have := x.isLt
  simp only [BitVec.extractLsb'_toNat, Nat.shiftRight_eq_div_pow, List.sum_range_succ, List.range_zero,
    List.map_nil, List.sum_nil]
  omega

/-- The staged seed is the number of the staged words, little-endian (10_state.md R48). -/
theorem stagedSeed_eq (v : Vector Word 16) : stagedSeed v =
    BitVec.ofNat 512 ((List.range 16).map fun j => (v.toList.getD j 0).toNat * (2 ^ 32) ^ j).sum := by
  have hpow (j m : Nat) : 256 ^ (4 * j + m) = 256 ^ m * (2 ^ 32) ^ j := by
    rw [Nat.pow_add, Nat.pow_mul, Nat.mul_comm]
    norm_num
  simp only [stagedSeed, hpow, ← Nat.mul_assoc, List.sum_map_mul_right, sum_bytes_of_word]

/-- Word j of the staged seed is staged word j (R48). -/
theorem extractLsb'_stagedSeed_word (v : Vector Word 16) (j : Fin 16) :
    (stagedSeed v).extractLsb' (32 * j.val) 32 = v[j] := by
  have hword := extractLsb'_ofNat_sum_words (fun i => v.toList.getD i 0) j.isLt
  rw [stagedSeed_eq, hword]
  simp

/-- Byte 4j + m of the staged seed is byte m of staged word j (R180). -/
theorem extractLsb'_stagedSeed_byte (v : Vector Word 16) (j : Fin 16) {m : Nat} (hm : m < 4) :
    (stagedSeed v).extractLsb' (8 * (4 * j.val + m)) 8 = v[j].extractLsb' (8 * m) 8 := by
  rw [← extractLsb'_stagedSeed_word v j]
  ext i hi
  have : 8 * m + i < 32 := by omega
  simp [this, Nat.mul_add, ← Nat.mul_assoc, Nat.add_assoc]

/-! ### A draw, then the completion with its value -/

section
variable {α : Type} {p : Sampler α} {r : DrawReq} {value : DWord → α} {s : State}

/-- A procedure of one draw r, which is done with `value` of the draw made: its first engine step makes the
draw, its second one completes the command (40_control.md R144). -/
theorem runSampler_draws_then_finishes (finish : α → State → State) (hneed : p [] = .need r)
    (hdone : ∀ x, p [x] = .done (value x) []) (hs : s.run.drawn = []) :
    runSampler p s finish = .next (s.draw r) ∧ runSampler p (s.draw r) finish =
      .next (finish (value (s.ent.draw Config.pool s.run.slow r).1) (s.draw r)) := by
  have hdrawn : (s.draw r).run.drawn = [(s.ent.draw Config.pool s.run.slow r).1] := by simp [hs]
  exact ⟨runSampler_of_need (by rw [hs, hneed]), runSampler_of_done (by rw [hdrawn, hdone])⟩

/-- The two steps of a command whose result, n as a number, is one draw. -/
theorem draws_then_commitsResult0 {i : Instr} (f : α → Word) {n : Nat}
    (hexec : exec i s = runSampler p s (intoResult0 f))
    (hexec_drawn : exec i (s.draw r) = runSampler p (s.draw r) (intoResult0 f)) (hneed : p [] = .need r)
    (hdone : ∀ x, p [x] = .done (value x) []) (hs : s.run.drawn = [])
    (hvalue : (f (value (s.ent.draw Config.pool s.run.slow r).1)).toNat = n) :
    ∃ t u, exec i s = .next t ∧ exec i t = .next u ∧ DrawsOnce s t r ∧ CommitsResult0 t u ∧
      u.result0.toNat = n := by
  obtain ⟨hdraw, hcommit⟩ := runSampler_draws_then_finishes (intoResult0 f) hneed hdone hs
  exact ⟨_, _, hexec.trans hdraw, hexec_drawn.trans hcommit, s.drawsOnce_draw r,
    (s.draw r).commitsResult0_commitResult _, hvalue⟩

end

/-! A draw as it joins the draws made so far, and as the procedure reads it back. -/

theorem toNat_boolWord_drawn (b : Bool) : (boolWord (((flagBit b).setWidth 64).getLsbD 0)).toNat = b.toNat := by
  cases b <;> rfl

theorem toNat_drawn {n : Nat} (hn : n ≤ 32) (v : BitVec n) :
    (((v.setWidth 64).setWidth n).setWidth 32).toNat = v.toNat := by
  rw [BitVec.setWidth_setWidth_of_le v (by omega : n ≤ 64), BitVec.setWidth_eq, BitVec.toNat_setWidth_of_le hn]

/-- The two halves of a 64-bit result are the whole of it (R185). -/
theorem toNat_halves (v : DWord) : (v.extractLsb' 0 32).toNat + 2 ^ 32 * (v.extractLsb' 32 32).toNat = v.toNat := by
  have := v.isLt
  simp only [BitVec.extractLsb'_toNat, Nat.shiftRight_eq_div_pow]
  omega

/-! `ENT.BITS` with an argument in its range. -/

theorem exec_entBits_legal {s : State} (hk : s.run.a0.toNat ≤ 32) :
    exec .entBits s = runSampler (drawBits s.run.a0.toNat) s (intoResult0 id) :=
  withArg_legal (decide_eq_true hk) _

/-- `RandomBits(0)` is 0 without a draw, so the command completes at once (R170). -/
theorem exec_entBits_zero {s : State} (hk : s.run.a0 = 0) : exec .entBits s = .next (s.commitResult 0) := by
  have hdone : drawBits s.run.a0.toNat s.run.drawn = .done 0 s.run.drawn := by rw [hk]; rfl
  rw [exec_entBits_legal (by rw [hk]; decide), runSampler_of_done hdone]
  rfl

theorem drawBits_singleton {k : Nat} (hk : 1 ≤ k) (x : DWord) : drawBits k [x] = .done (x.setWidth 32) [] := by
  simp [drawBits, Nat.one_le_iff_ne_zero.1 hk]

end Sys2Proof.Machine
end

section
/-! SUPPORT. The bit pool and the pools of words: what each draw gives, and what a refill holds (41_entropy.md R162
to R169). -/

namespace Sys2Proof.Machine

open Sys2Proof.Claims

/-! ### Single bits, and the two modes of RandomBits -/

section
variable {p : PoolParams} {e : Entropy}

theorem Entropy.randomBit_of_avail (h : e.bitavail ≠ 0) : e.randomBit p =
    (e.bitbuf.getLsbD 0, { e with bitbuf := e.bitbuf >>> 1, bitavail := e.bitavail - 1 }) := by
  simp only [Entropy.randomBit, if_neg h]

theorem Entropy.randomBit_of_empty (h : e.bitavail = 0) : e.randomBit p = ((e.random64 p).1.getLsbD 0,
    { (e.random64 p).2 with bitbuf := (e.random64 p).1 >>> 1, bitavail := 63 }) := by
  simp only [Entropy.randomBit, if_pos h, Entropy.fillBits]

theorem Entropy.randomBits_fast {k : Nat} (hk : 1 ≤ k) : e.randomBits p false k = e.bitsFast p k := by
  simp [Entropy.randomBits, Nat.one_le_iff_ne_zero.1 hk]

theorem Entropy.randomBits_slow {k : Nat} (hk : 1 ≤ k) : e.randomBits p true k = e.bitsSlow p k 0 := by
  simp [Entropy.randomBits, Nat.one_le_iff_ne_zero.1 hk]

theorem Entropy.bitsFast_of_enough {k : Nat} (h : k ≤ e.bitavail) : e.bitsFast p k =
    (BitVec.ofNat 32 (e.bitbuf.toNat % 2 ^ k),
      { e with bitbuf := e.bitbuf >>> k, bitavail := e.bitavail - k }) := by
  simp only [Entropy.bitsFast, if_neg (Nat.not_lt.2 h)]

theorem Entropy.bitsFast_of_few {k : Nat} (h : e.bitavail < k) : e.bitsFast p k =
    (BitVec.ofNat 32 ((e.random64 p).1.toNat % 2 ^ k),
      { (e.random64 p).2 with bitbuf := (e.random64 p).1 >>> k, bitavail := 64 - k }) := by
  simp only [Entropy.bitsFast, if_pos h, Entropy.fillBits]

/-- The low k bits of a word of the bit pool fit a result word. -/
theorem toNat_lowBits {k : Nat} (hk : k ≤ 32) (x : Nat) : (BitVec.ofNat 32 (x % 2 ^ k)).toNat = x % 2 ^ k := by
  have hlt : x % 2 ^ k < 2 ^ k := Nat.mod_lt _ (Nat.two_pow_pos k)
  rw [BitVec.toNat_ofNat]
  exact Nat.mod_eq_of_lt (Nat.lt_of_lt_of_le hlt (Nat.pow_le_pow_right (by decide) hk))

/-- Slow mode leaves the unit as k single bits do (R169). -/
theorem Entropy.bitsSlow_unit (k : Nat) (v : Word) (e : Entropy) :
    (e.bitsSlow p k v).2 = (drawMany (Entropy.randomBit p) k e).2 := by
  induction k generalizing v e with
  | zero => rfl
  | succ k ih => exact ih _ _

/-- In slow mode bit i of the value is the bit drawn i places before the last, and what stood in the value
before moves up by the k bits drawn (R169). -/
theorem Entropy.getLsbD_bitsSlow {i : Nat} (hi : i < 32) (k : Nat) (v : Word) (e : Entropy) :
    (e.bitsSlow p k v).1.getLsbD i =
      if i < k then (drawMany (Entropy.randomBit p) k e).1.getD (k - 1 - i) false else v.getLsbD (i - k) := by
  induction k generalizing v e with
  | zero => rfl
  | succ k ih =>
    rw [Entropy.bitsSlow, ih, drawMany]
    obtain h | rfl | h := Nat.lt_trichotomy i k
    · have hlater : k + 1 - 1 - i = (k - 1 - i) + 1 := by omega
      rw [if_pos h, if_pos (by omega), hlater, List.getD_cons_succ]
    · simp [flagBit]
    · have hmoved : i - k = i - (k + 1) + 1 := by omega
      rw [if_neg (by omega), if_neg (by omega), hmoved]
      simp [flagBit]
      omega

/-- Slow mode from 0 gives a value of k bits (R169). -/
theorem Entropy.toNat_bitsSlow_lt (k : Nat) (e : Entropy) : (e.bitsSlow p k 0).1.toNat < 2 ^ k := by
  refine Nat.lt_pow_two_of_testBit _ fun i hi => ?_
  rw [BitVec.testBit_toNat]
  by_cases hi32 : i < 32
  · rw [Entropy.getLsbD_bitsSlow hi32, if_neg (Nat.not_lt.2 hi)]
    exact BitVec.getLsbD_zero
  · exact BitVec.getLsbD_of_ge _ _ (Nat.not_lt.1 hi32)

end

/-! ### Draws from a pool -/

section
variable {p : PoolParams} {e : Entropy}

theorem Entropy.fillBytes_of_left (h : e.bpos < 64 * p.blocks) : e.fillBytes p = e := if_neg (Nat.ne_of_lt h)
theorem Entropy.fillHalves_of_left (h : e.hpos < 32 * p.blocks) : e.fillHalves p = e := if_neg (Nat.ne_of_lt h)
theorem Entropy.fillDWords_of_left (h : e.wpos < 8 * p.blocks) : e.fillDWords p = e := if_neg (Nat.ne_of_lt h)

/-- A draw from a pool that is not empty (R164, R165, R166). -/
theorem Entropy.randomByte_of_left (h : e.bpos < 64 * p.blocks) :
    e.randomByte p = (e.BP.getD e.bpos 0, { e with bpos := e.bpos + 1 }) := by
  rw [Entropy.randomByte, Entropy.fillBytes_of_left h]

theorem Entropy.random16_of_left (h : e.hpos < 32 * p.blocks) :
    e.random16 p = (e.HP.getD e.hpos 0, { e with hpos := e.hpos + 1 }) := by
  rw [Entropy.random16, Entropy.fillHalves_of_left h]

theorem Entropy.random64_of_left (h : e.wpos < 8 * p.blocks) :
    e.random64 p = (e.WP.getD e.wpos 0, { e with wpos := e.wpos + 1 }) := by
  rw [Entropy.random64, Entropy.fillDWords_of_left h]

/-- Draws that go through the units `unit 0`, `unit 1` and so on, one for each word, give the words in order. -/
theorem drawMany_through {α : Type} {f : Entropy → α × Entropy} (d : α) (words : List α)
    (unit : Nat → Entropy) (hstep : ∀ i, i < words.length → f (unit i) = (words.getD i d, unit (i + 1))) :
    drawMany f words.length (unit 0) = (words, unit words.length) := by
  induction words generalizing unit with
  | nil => rfl
  | cons w ws ih =>
    have hlater := ih (fun i => unit (i + 1)) fun i hi => hstep (i + 1) (Nat.succ_lt_succ hi)
    rw [List.length_cons, drawMany, hstep 0 (Nat.succ_pos _), hlater]
    rfl

/-- A pool of n words that a first draw from e fills, as one from `unit 0` does, comes out whole and in order. -/
theorem drawMany_of_refill {α : Type} {f : Entropy → α × Entropy} {n : Nat} (hn : 1 ≤ n) (d : α)
    {words : List α} (hlen : words.length = n) (unit : Nat → Entropy) (hfirst : f e = f (unit 0))
    (hstep : ∀ i, i < n → f (unit i) = (words.getD i d, unit (i + 1))) :
    drawMany f n e = (words, unit n) := by
  subst hlen
  rw [← drawMany_through d words unit hstep]
  obtain ⟨m, hm⟩ := Nat.exists_eq_add_of_le' hn
  rw [hm, drawMany, drawMany, hfirst]

/-- From an empty pool, one refill comes out whole and in order, and leaves the pool empty (R164). -/
theorem drawMany_randomByte_of_empty (hb : 1 ≤ p.blocks) (h : e.bpos = 64 * p.blocks) :
    drawMany (Entropy.randomByte p) (64 * p.blocks) e = (refillBytes p e,
      { e with BP := refillBytes p e, S := refillSeed p e, bpos := 64 * p.blocks }) := by
  have hleft (i : Nat) (hi : i < 64 * p.blocks) := Entropy.randomByte_of_left (p := p)
    (e := { e with BP := refillBytes p e, S := refillSeed p e, bpos := i }) hi
  refine drawMany_of_refill (by omega) 0 (blockBytes_length _ _ _) _ ?_ hleft
  rw [hleft 0 (by omega), Entropy.randomByte, Entropy.fillBytes, if_pos h]

/-- The same for the 16-bit pool (R165). -/
theorem drawMany_random16_of_empty (hb : 1 ≤ p.blocks) (h : e.hpos = 32 * p.blocks) :
    drawMany (Entropy.random16 p) (32 * p.blocks) e = ((List.range (32 * p.blocks)).map (halfAt (refillBytes p e)),
      { e with HP := (List.range (32 * p.blocks)).map (halfAt (refillBytes p e)), S := refillSeed p e,
               hpos := 32 * p.blocks }) := by
  have hleft (i : Nat) (hi : i < 32 * p.blocks) := Entropy.random16_of_left (p := p)
    (e := { e with HP := (List.range (32 * p.blocks)).map (halfAt (refillBytes p e)), S := refillSeed p e,
                   hpos := i }) hi
  refine drawMany_of_refill (by omega) 0 (by simp) _ ?_ hleft
  rw [hleft 0 (by omega), Entropy.random16, Entropy.fillHalves, if_pos h]

/-- The same for the 64-bit pool (R166). -/
theorem drawMany_random64_of_empty (hb : 1 ≤ p.blocks) (h : e.wpos = 8 * p.blocks) :
    drawMany (Entropy.random64 p) (8 * p.blocks) e = ((List.range (8 * p.blocks)).map (dwordAt (refillBytes p e)),
      { e with WP := (List.range (8 * p.blocks)).map (dwordAt (refillBytes p e)), S := refillSeed p e,
               wpos := 8 * p.blocks }) := by
  have hleft (i : Nat) (hi : i < 8 * p.blocks) := Entropy.random64_of_left (p := p)
    (e := { e with WP := (List.range (8 * p.blocks)).map (dwordAt (refillBytes p e)), S := refillSeed p e,
                   wpos := i }) hi
  refine drawMany_of_refill (by omega) 0 (by simp) _ ?_ hleft
  rw [hleft 0 (by omega), Entropy.random64, Entropy.fillDWords, if_pos h]

/-! ### The words of a refill as numbers -/

/-- Byte i of a refill (R162, R163). -/
theorem toNat_refillBytes {i : Nat} (hi : i < 64 * p.blocks) :
    ((refillBytes p e).getD i 0).toNat = refillByte p e.S i := by
  rw [List.getD_eq_getElem?_getD, refillBytes, getElem?_blockBytes _ _ _ _ hi, refillByte,
    List.getD_eq_getElem?_getD]

/-- Word j of w bytes of a refill, little-endian. -/
theorem sum_refillBytes {w j : Nat} (h : w * j + w ≤ 64 * p.blocks) :
    ∑ m ∈ Finset.range w, ((refillBytes p e).getD (w * j + m) 0).toNat * 256 ^ m =
      ∑ m ∈ Finset.range w, refillByte p e.S (w * j + m) * 256 ^ m := by
  refine Finset.sum_congr rfl fun m hm => ?_
  have hm := Finset.mem_range.1 hm
  rw [toNat_refillBytes (by omega)]

/-- A word of the 16-bit pool is its two bytes, little-endian (R165). -/
theorem toNat_halfAt (r : List Byte) (j : Nat) :
    (halfAt r j).toNat = ∑ m ∈ Finset.range 2, (r.getD (2 * j + m) 0).toNat * 256 ^ m := by
  simp only [halfAt, toNat_append_add, Finset.sum_range_succ, Finset.sum_range_zero, Nat.add_zero]
  omega

/-- A word of the 64-bit pool is its eight bytes, little-endian (R166). -/
theorem toNat_dwordAt (r : List Byte) (j : Nat) :
    (dwordAt r j).toNat = ∑ m ∈ Finset.range 8, (r.getD (8 * j + m) 0).toNat * 256 ^ m := by
  simp only [dwordAt, toNat_append_add, Finset.sum_range_succ, Finset.sum_range_zero, Nat.add_zero]
  omega

end

end Sys2Proof.Machine
end

section
/-! CERTIFICATES. 41_entropy.md: the seed, the draws and the ENT commands. -/

namespace Sys2Proof.Claims

open Sys2Proof.Machine

/-- Settles O27: a command with draws moves the seed as its one draw does, and every other command but
`ENT.SEED` keeps the whole entropy state. -/
theorem seedMovesOnlyByRefill : Obligations.SeedMovesOnlyByRefill := by
  refine fun i s t h => ⟨?_, fun ⟨d, a, b, hi⟩ => ?_⟩
  · by_cases hseed : i = .entSeed
    · exact .inl hseed
    · by_cases hi : DrawsWhenLegal s i
      · exact .inr (seedMoved_of_drawing hi h)
      · exact .inr (.inl (congrArg Entropy.S (entropyKept_of_not_drawing hseed hi h)))
  · have hnone : i ≠ .entSeed ∧ ¬ DrawsWhenLegal s i := by
      simp only [List.mem_cons, List.not_mem_nil, or_false] at hi
      rcases hi with rfl | rfl | rfl | rfl | rfl | rfl | rfl | rfl | rfl | rfl <;> exact ⟨nofun, id⟩
    exact entropyKept_of_not_drawing hnone.1 hnone.2 h

/-- Settles O44: the staged seed is the number of the staged words, so it holds their bytes. -/
theorem entSeedLoadsTheStagedSeed : Obligations.EntSeedLoadsTheStagedSeed := fun s =>
  ⟨_, rfl, fun j _ hm => extractLsb'_stagedSeed_byte s.run.seedstage j hm, rfl, rfl, rfl, rfl,
    State.completes_commit rfl, fun _ => rfl, rfl, rfl, rfl⟩

/-- Settles O45: the two steps of a procedure of one draw, and the value it reads back. -/
theorem entDrawsThenCommits : Obligations.EntDrawsThenCommits := by
  refine fun s hs => ⟨?bit, ?byte, ?half, ?dword⟩
  case bit =>
    exact draws_then_commitsResult0 (p := drawBit) boolWord rfl rfl rfl (fun _ => rfl) hs (toNat_boolWord_drawn _)
  case byte =>
    exact draws_then_commitsResult0 (p := drawByte) (BitVec.setWidth 32) rfl rfl rfl (fun _ => rfl) hs
      (toNat_drawn (by decide) _)
  case half =>
    exact draws_then_commitsResult0 (p := draw16) (BitVec.setWidth 32) rfl rfl rfl (fun _ => rfl) hs
      (toNat_drawn (by decide) _)
  case dword =>
    obtain ⟨hdraw, hcommit⟩ := runSampler_draws_then_finishes (p := draw64)
      (fun v s => s.commitResults (v.extractLsb' 0 32) (v.extractLsb' 32 32)) rfl (fun _ => rfl) hs
    exact ⟨_, _, hdraw, hcommit, s.drawsOnce_draw _, toNat_halves _, State.completes_commit rfl, fun _ => rfl,
      rfl, rfl⟩

/-- Settles O46: with k = 0 the procedure is done at once, and else it is one of one draw. -/
theorem entBitsDrawsThenCommits : Obligations.EntBitsDrawsThenCommits := by
  refine fun s hs => ⟨fun hk => ?_, fun hk1 hk32 => ?_⟩
  · exact ⟨_, exec_entBits_zero hk, s.commitsResult0_commitResult 0, rfl⟩
  · obtain ⟨t, u, hdraw, hcommit, honce, hresult, hvalue⟩ := draws_then_commitsResult0 id
      (exec_entBits_legal hk32) (exec_entBits_legal hk32) (drawBits_need.2 ⟨rfl, hk1, rfl⟩)
      (drawBits_singleton hk1) hs (toNat_drawn (Nat.le_refl 32) _)
    exact ⟨t, u, hdraw, hcommit, honce, hresult, BitVec.eq_of_toNat_eq hvalue⟩

/-- Settles O47: each case of `bitavail`, and the bits of slow mode place by place. -/
theorem fastAndSlowBits : Obligations.FastAndSlowBits := by
  refine fun p e => ⟨Entropy.randomBit_of_avail, Entropy.randomBit_of_empty, fun k hk hk32 => ?_⟩
  rw [Entropy.randomBits_fast hk, Entropy.randomBits_slow hk]
  refine ⟨fun h => ?_, fun h => ?_, fun j hj => ?_, Entropy.toNat_bitsSlow_lt k e,
    Entropy.bitsSlow_unit k 0 e⟩
  · rw [Entropy.bitsFast_of_enough h]
    exact ⟨toNat_lowBits hk32 _, rfl⟩
  · rw [Entropy.bitsFast_of_few h]
    exact ⟨toNat_lowBits hk32 _, rfl⟩
  · rw [Entropy.getLsbD_bitsSlow (by omega), if_pos (by omega)]
    congr 1
    omega

/-- Settles O48: a refill comes out of each pool whole, as the words its bytes make. -/
theorem poolDrawsFollowTheHash : Obligations.PoolDrawsFollowTheHash := by
  refine fun p e hb => ⟨Entropy.randomByte_of_left, Entropy.random16_of_left, Entropy.random64_of_left,
    fun h => ?_, fun h => ?_, fun h => ?_⟩
  · rw [drawMany_randomByte_of_empty hb h]
    refine ⟨fun j hj => ⟨_, ?_, toNat_refillBytes hj⟩, _, rfl⟩
    have hlen : j < (refillBytes p e).length := hj.trans_eq (blockBytes_length _ _ _).symm
    rw [List.getD_eq_getElem _ _ hlen]
    exact List.getElem?_eq_getElem hlen
  · rw [drawMany_random16_of_empty hb h]
    exact ⟨fun j hj => ⟨_, by simp [hj], (toNat_halfAt _ j).trans (sum_refillBytes (by omega))⟩, _, rfl⟩
  · rw [drawMany_random64_of_empty hb h]
    exact ⟨fun j hj => ⟨_, by simp [hj], (toNat_dwordAt _ j).trans (sum_refillBytes (by omega))⟩, _, rfl⟩

end Sys2Proof.Claims
end

section
/-! SUPPORT. Banks as lists of numbers: what committing one leaves and holds, and the operand checks of an NTT
command that fail (10_state.md R37, 42_ntt.md R200, R206, R207). -/

namespace Sys2Proof.Machine

open Sys2Proof.Claims

/-! ### Tags -/

theorem tagOf_setTag_same (dom : BitVec 8) (b : Bank) (t : Bool) : tagOf (setTag dom b t) b = t := by
  have hb := b.isLt
  cases t <;> simp [tagOf, setTag, hb]

theorem tagOf_setTag_other (dom : BitVec 8) {b d : Bank} (h : b ≠ d) (t : Bool) :
    tagOf (setTag dom d t) b = tagOf dom b := by
  have hbit : (1#8 <<< d.toNat).getLsbD b.toNat = false := by
    revert b d
    decide
  have hb := b.isLt
  cases t <;> simp only [tagOf, setTag, if_true, Bool.false_eq_true, if_false, BitVec.getLsbD_or,
    BitVec.getLsbD_and, BitVec.getLsbD_not, hbit]
  · simp; omega
  · simp

/-! ### Committing a bank -/

/-- A committed bank is the only thing a command writes (R200). -/
theorem State.commitsBank_commitBank (s : State) (d : Bank) {ws : List Word} {n : Nat}
    (hn : ws.length = n) (tag : Bool) : CommitsBank s (s.commitBank d ws tag) d n tag where
  completes := State.completes_commit rfl
  memory := fun _ hx => State.byte?_writeBank (hn ▸ hx)
  tagD := tagOf_setTag_same _ d tag
  tagOthers := fun _ hb => tagOf_setTag_other _ hb tag
  results := ⟨rfl, rfl⟩
  entropy := rfl

/-- Coefficients 0 to n-1 of a polynomial of kind k, as the engine reads them from a bank. -/
def coeffs (k : Kind) (v : Nat → Nat) : List Nat := (List.range (Config.N k)).map v

@[simp] theorem coeffs_length (k : Kind) (v : Nat → Nat) : (coeffs k v).length = Config.N k := by
  simp [coeffs]

theorem coeffs_getD {k : Kind} {i : Nat} (hi : i < Config.N k) (v : Nat → Nat) :
    (coeffs k v).getD i 0 = v i := by
  simp [coeffs, hi]

/-- A list of n numbers is the list of its entries. -/
theorem eq_coeffs {k : Kind} {l : List Nat} {v : Nat → Nat} (hl : l.length = Config.N k)
    (h : ∀ i, i < Config.N k → l.getD i 0 = v i) : l = coeffs k v := by
  refine List.ext_getElem (by simp [hl]) fun i hi _ => ?_
  rw [hl] at hi
  rw [← List.getD_eq_getElem l 0, h i hi]
  simp [coeffs]

theorem coeffs_congr {k : Kind} {v w : Nat → Nat} (h : ∀ i, i < Config.N k → v i = w i) :
    coeffs k v = coeffs k w :=
  List.map_congr_left fun i hi => h i (List.mem_range.1 hi)

theorem BankHolds.congr {s : State} {b : Bank} {n : Nat} {v w : Nat → Nat} (h : BankHolds s b n v)
    (hvw : ∀ i, i < n → v i = w i) : BankHolds s b n w := fun i hi => hvw i hi ▸ h i hi

/-- A source bank that holds a polynomial is read as its coefficients. -/
theorem withCoeffs_coeffs {s : State} {b : Bank} {k : Kind} {v : Nat → Nat}
    (h : BankHolds s b (Config.N k) v) (hv : InField k v) (body : List Nat → Result) :
    withCoeffs s b (Config.ring k) body = body (coeffs k v) := withCoeffs_of_bankHolds h hv body

/-- The completion that writes the polynomial v to bank d. -/
def State.commitCoeffs (s : State) (d : Bank) (k : Kind) (v : Nat → Nat) (tag : Bool) : State :=
  s.commitBank d ((coeffs k v).map coeffWord) tag

theorem State.commitsBank_commitCoeffs (s : State) (d : Bank) (k : Kind) (v : Nat → Nat) (tag : Bool) :
    CommitsBank s (s.commitCoeffs d k v tag) d (Config.N k) tag :=
  s.commitsBank_commitBank d (by simp) tag

theorem State.bankHolds_commitCoeffs (s : State) (d : Bank) (k : Kind) (v : Nat → Nat) (tag : Bool) :
    BankHolds (s.commitCoeffs d k v tag) d (Config.N k) v := by
  intro i hi
  have h := State.bankWord?_writeBank (s := s) (b := d) (ws := (coeffs k v).map coeffWord) (i := i)
    (by simpa using hi)
  refine h.trans ?_
  simp [coeffs, coeffWord]

/-! ### Checks -/

theorem withTag_wrong {s : State} {b : Bank} {tag : Bool} (h : tagOf s.run.dom b ≠ tag) (body : Result) :
    withTag s b tag body = .next (s.fail .domain) := if_neg h

theorem exists_readBank {s : State} {b : Bank} {n : Nat} (h : ∀ j, j < n → s.bankWord? b j ≠ none) :
    ∃ ws, s.readBank b n = some ws :=
  Option.ne_none_iff_exists'.1 fun hnone =>
    let ⟨j, hj, hw⟩ := State.readBank_eq_none.1 hnone
    h j hj hw

/-- A written source that holds a word outside [0, q) fails its range check (R206). -/
theorem withCoeffs_out_of_range {s : State} {b : Bank} {k : Kind} {i : Nat} {w : Word}
    (hwritten : ∀ j, j < Config.N k → s.bankWord? b j ≠ none) (hi : i < Config.N k)
    (hw : s.bankWord? b i = some w) (hrange : w.toInt < 0 ∨ (Config.Q k : Int) ≤ w.toInt)
    (body : List Nat → Result) : withCoeffs s b (Config.ring k) body = .next (s.fail .range) := by
  obtain ⟨ws, hread⟩ := exists_readBank hwritten
  have hmem : w ∈ ws := by
    rw [(State.readBank_eq_some.1 hread).2 i hi] at hw
    exact List.mem_of_getElem? hw
  have hout : inRange (Config.Q k) w = false := by
    simp only [inRange, Bool.and_eq_false_iff, decide_eq_false_iff_not]
    omega
  have hfail : ¬ ws.all (inRange (Config.ring k).q) = true := fun h => by
    rw [ring_q] at h
    exact absurd (List.all_eq_true.1 h w hmem) (by simp [hout])
  exact (withWords_some hread _).trans (if_neg hfail)

end Sys2Proof.Machine
end

section
/-! CERTIFICATES. 42_ntt.md R206, R207: the tag and range checks of the NTT commands' sources. -/

namespace Sys2Proof.Claims

open Sys2Proof.Machine

/-- Settles O32: the tag check comes right after the kind's, so the banks do not matter. -/
theorem domainErrors : Obligations.DomainErrors := by
  intro d a b s k hk
  have hfail := s.failsWith_fail .domain
  refine ⟨fun ta => ?_, fun ta => ?_, fun tb => ?_⟩
  · have hA := fun body => withTag_wrong (s := s) (b := a) (tag := false) (by simp [ta]) body
    refine ⟨⟨_, ?_, hfail⟩, ⟨_, ?_, hfail⟩, ⟨_, ?_, hfail⟩⟩
    · rw [exec, execNttFwd, withKind_some hk, hA]
    · rw [exec, execNttInvert, withKind_some hk, hA]
    · rw [exec, execNttMul, withKind_some hk, hA]
  · have hA := fun body => withTag_wrong (s := s) (b := a) (tag := true) (by simp [ta]) body
    refine ⟨⟨_, ?_, hfail⟩, ⟨_, ?_, hfail⟩⟩
    · rw [exec, execNttInv, withKind_some hk, hA]
    · rw [exec, execNttPmul, withKind_some hk, hA]
  · have hB := fun body => withTag_wrong (s := s) (b := b) (tag := true) (by simp [tb]) body
    refine ⟨⟨_, ?_, hfail⟩, ⟨_, ?_, hfail⟩⟩
    · rw [exec, execNttPmul, withKind_some hk, hB, withTag]
      exact ite_self _
    · rw [exec, execNttMul, withKind_some hk, hB, withTag]
      exact ite_self _

/-- Settles O33: a source is judged after the tags, A before B. -/
theorem rangeErrors : Obligations.RangeErrors := by
  intro d a b s k x i w hk hwritten hi hw hrange
  have hfail := s.failsWith_fail .range
  have hX := withCoeffs_out_of_range hwritten hi hw hrange
  refine ⟨?_, ?_⟩
  · rintro rfl
    refine ⟨⟨_, ?_, hfail⟩, fun ta => ⟨⟨_, ?_, hfail⟩, ⟨_, ?_, hfail⟩⟩, fun ta => ⟨_, ?_, hfail⟩,
      fun ta tb => ⟨_, ?_, hfail⟩, fun ta tb => ⟨_, ?_, hfail⟩⟩
    · rw [exec, execNttNeg, withKind_some hk, hX]
    · rw [exec, execNttFwd, withKind_some hk, withTag_right ta, hX]
    · rw [exec, execNttInvert, withKind_some hk, withTag_right ta, hX]
    · rw [exec, execNttInv, withKind_some hk, withTag_right ta, hX]
    · rw [exec, execNttPmul, withKind_some hk, withTag_right ta, withTag_right tb, hX]
    · rw [exec, execNttMul, withKind_some hk, withTag_right ta, withTag_right tb, hX]
  · rintro rfl v hA hv
    refine ⟨fun ta tb => ⟨_, ?_, hfail⟩, fun ta tb => ⟨_, ?_, hfail⟩⟩
    · rw [exec, execNttPmul, withKind_some hk, withTag_right ta, withTag_right tb,
        withCoeffs_of_bankHolds hA hv, hX]
    · rw [exec, execNttMul, withKind_some hk, withTag_right ta, withTag_right tb,
        withCoeffs_of_bankHolds hA hv, hX]

end Sys2Proof.Claims
end

section
/-! SUPPORT. The negacyclic transform over a field (42_ntt.md R202, R204, R209): for a root ψ with ψ^n = -1, the
values at the odd powers of ψ determine the n coefficients, and multiply as the polynomials do mod x^n + 1. -/

namespace Sys2Proof.Machine

/-- The value of the polynomial `v` at the odd power ψ^(2j+1) (R204). -/
def oddEval {R : Type} [CommRing R] (ψ : R) (n : Nat) (v : Nat → R) (j : Nat) : R :=
  ∑ i ∈ Finset.range n, v i * ψ ^ (i * (2 * j + 1))

/-- Coefficient i of the polynomial with the values `w` at the odd powers of ψ (R205). -/
def oddInterp {F : Type} [Field F] (ψ : F) (n : Nat) (w : Nat → F) (i : Nat) : F :=
  (n : F)⁻¹ * ∑ j ∈ Finset.range n, w j / ψ ^ (i * (2 * j + 1))

/-- Coefficient m of the product mod x^n + 1 (R209). -/
def negacyclicSum {R : Type} [CommRing R] (n : Nat) (a b : Nat → R) (m : Nat) : R :=
  ∑ i ∈ Finset.range n, ∑ j ∈ Finset.range n,
    if i + j = m then a i * b j else if i + j = m + n then -(a i * b j) else 0

section
variable {F : Type} [Field F] {ψ : F} {n : Nat}

theorem oddEval_congr {v w : Nat → F} (h : ∀ i, i < n → v i = w i) (j : Nat) :
    oddEval ψ n v j = oddEval ψ n w j :=
  Finset.sum_congr rfl fun i hi => by rw [h i (Finset.mem_range.1 hi)]

theorem oddInterp_congr {v w : Nat → F} (h : ∀ j, j < n → v j = w j) (i : Nat) :
    oddInterp ψ n v i = oddInterp ψ n w i := by
  unfold oddInterp
  congr 1
  exact Finset.sum_congr rfl fun j hj => by rw [h j (Finset.mem_range.1 hj)]

/-- The powers of a quotient of two n-th roots of unity cancel, unless the roots are the same. -/
theorem sum_pow_div {ω : F} (hω : IsPrimitiveRoot ω n) {a b : Nat} (ha : a < n) (hb : b < n) :
    ∑ i ∈ Finset.range n, (ω ^ a / ω ^ b) ^ i = if a = b then (n : F) else 0 := by
  have hunit : ω ^ b ≠ 0 := pow_ne_zero _ (hω.ne_zero (by omega))
  split
  next h => simp [h, div_self hunit]
  next h =>
    have hne : ω ^ a / ω ^ b ≠ 1 := fun h1 => h (hω.pow_inj ha hb ((div_eq_one_iff_eq hunit).1 h1))
    have hone : (ω ^ a / ω ^ b) ^ n = 1 := by
      rw [div_pow, ← pow_mul, ← pow_mul, mul_comm a, mul_comm b, pow_mul, pow_mul, hω.pow_eq_one]
      simp
    rw [geom_sum_eq hne, hone, sub_self, zero_div]

/-- The odd powers of ψ are ψ times its square's powers, so the quotients are those of the squares. -/
theorem sum_oddPow_div (hω : IsPrimitiveRoot (ψ ^ 2) n) (hψ0 : ψ ≠ 0) {a b : Nat} (ha : a < n) (hb : b < n) :
    ∑ j ∈ Finset.range n, ψ ^ (a * (2 * j + 1)) / ψ ^ (b * (2 * j + 1)) = if a = b then (n : F) else 0 := by
  have hterm (j : Nat) : ψ ^ (a * (2 * j + 1)) / ψ ^ (b * (2 * j + 1)) =
      ψ ^ a / ψ ^ b * ((ψ ^ 2) ^ a / (ψ ^ 2) ^ b) ^ j := by
    rw [div_pow, div_mul_div_comm]
    ring
  simp only [hterm, ← Finset.mul_sum, sum_pow_div hω ha hb]
  split
  next h => rw [h, div_self (pow_ne_zero b hψ0), one_mul]
  next => rw [mul_zero]

theorem oddPow_sum_div (hω : IsPrimitiveRoot (ψ ^ 2) n) (hψ0 : ψ ≠ 0) {a b : Nat} (ha : a < n) (hb : b < n) :
    ∑ i ∈ Finset.range n, ψ ^ (i * (2 * a + 1)) / ψ ^ (i * (2 * b + 1)) = if a = b then (n : F) else 0 := by
  rw [← sum_pow_div hω ha hb]
  refine Finset.sum_congr rfl fun i _ => ?_
  rw [pow_mul', pow_mul', ← div_pow, pow_succ, pow_succ, mul_div_mul_right _ _ hψ0, pow_mul, pow_mul]

section
variable (hω : IsPrimitiveRoot (ψ ^ 2) n) (hψ0 : ψ ≠ 0) (hn : (n : F) ≠ 0)
include hω hψ0 hn

/-- The coefficients of a polynomial are those its values determine. -/
theorem oddInterp_oddEval (v : Nat → F) {m : Nat} (hm : m < n) :
    oddInterp ψ n (oddEval ψ n v) m = v m := by
  have hswap : ∑ j ∈ Finset.range n, oddEval ψ n v j / ψ ^ (m * (2 * j + 1)) =
      ∑ i ∈ Finset.range n, v i * if i = m then (n : F) else 0 := by
    simp only [oddEval, Finset.sum_div, mul_div_assoc]
    rw [Finset.sum_comm]
    refine Finset.sum_congr rfl fun i hi => ?_
    rw [← Finset.mul_sum, sum_oddPow_div hω hψ0 (Finset.mem_range.1 hi) hm]
  rw [oddInterp, hswap]
  simp [hm, hn, mul_comm]

/-- The polynomial that values determine has these values. -/
theorem oddEval_oddInterp (w : Nat → F) {j : Nat} (hj : j < n) :
    oddEval ψ n (oddInterp ψ n w) j = w j := by
  have hswap : ∑ i ∈ Finset.range n,
      (∑ l ∈ Finset.range n, w l / ψ ^ (i * (2 * l + 1))) * ψ ^ (i * (2 * j + 1)) =
      ∑ l ∈ Finset.range n, w l * if j = l then (n : F) else 0 := by
    simp only [Finset.sum_mul, div_mul_eq_mul_div, mul_div_assoc]
    rw [Finset.sum_comm]
    refine Finset.sum_congr rfl fun l hl => ?_
    rw [← Finset.mul_sum, oddPow_sum_div hω hψ0 hj (Finset.mem_range.1 hl)]
  simp only [oddEval, oddInterp, mul_assoc, ← Finset.mul_sum]
  rw [hswap]
  simp [hj, hn, mul_comm]

end

/-! ### The negacyclic product -/

theorem oddEval_eq_sum_pow (v : Nat → F) (j : Nat) :
    oddEval ψ n v j = ∑ i ∈ Finset.range n, v i * (ψ ^ (2 * j + 1)) ^ i :=
  Finset.sum_congr rfl fun i _ => by rw [pow_mul']

/-- Where x^n = -1, each product of two coefficients lands at its power of x, wrapped with a change of sign. -/
theorem sum_wrapped_mul_pow {x : F} (hx : x ^ n = -1) {i j : Nat} (hi : i < n) (hj : j < n) (c : F) :
    ∑ m ∈ Finset.range n, (if i + j = m then c else if i + j = m + n then -c else 0) * x ^ m =
      c * x ^ (i + j) := by
  by_cases h : i + j < n
  · rw [Finset.sum_eq_single_of_mem (i + j) (Finset.mem_range.2 h)]
    · simp
    · intro m hm hne
      rw [Finset.mem_range] at hm
      rw [if_neg (Ne.symm hne), if_neg (by omega), zero_mul]
  · have hsum : i + j = (i + j - n) + n := by omega
    rw [Finset.sum_eq_single_of_mem (i + j - n) (Finset.mem_range.2 (by omega))]
    · rw [if_neg (by omega), if_pos hsum]
      conv_rhs => rw [hsum, pow_add, hx]
      ring
    · intro m hm hne
      rw [Finset.mem_range] at hm
      rw [if_neg (by omega), if_neg (by omega), zero_mul]

/-- The values of the product mod x^n + 1 are the products of the values (R209). -/
theorem oddEval_negacyclicSum (hψ : ψ ^ n = -1) (a b : Nat → F) (j : Nat) :
    oddEval ψ n (negacyclicSum n a b) j = oddEval ψ n a j * oddEval ψ n b j := by
  have hx : (ψ ^ (2 * j + 1)) ^ n = -1 := by
    rw [← pow_mul, mul_comm, pow_mul, hψ, Odd.neg_one_pow ⟨j, rfl⟩]
  simp only [oddEval_eq_sum_pow, negacyclicSum, Finset.sum_mul]
  rw [Finset.sum_comm]
  refine Finset.sum_congr rfl fun i hi => ?_
  rw [Finset.sum_comm, Finset.mul_sum]
  refine Finset.sum_congr rfl fun l hl => ?_
  rw [sum_wrapped_mul_pow hx (Finset.mem_range.1 hi) (Finset.mem_range.1 hl), pow_add]
  ring

end

end Sys2Proof.Machine
end

section
/-! SUPPORT. The engine's numbers as elements of the field of q elements (00_scope.md R16, 42_ntt.md R201, R202):
each operation mod q computes the least residue of the field's. -/

namespace Sys2Proof.Machine

open Sys2Proof.Claims

section
variable (q a b : Nat)

theorem addq_eq_val : addq q a b = ((a : ZMod q) + b).val := by
  rw [← Nat.cast_add, ZMod.val_natCast, addq]

theorem mulq_eq_val : mulq q a b = ((a : ZMod q) * b).val := by
  rw [← Nat.cast_mul, ZMod.val_natCast, mulq]

theorem powq_eq_val : powq q a b = ((a : ZMod q) ^ b).val := by
  rw [← Nat.cast_pow, ZMod.val_natCast, powq]

theorem toNat_emod_eq_val [NeZero q] (x : Int) : (x % (q : Int)).toNat = (x : ZMod q).val := by
  rw [← ZMod.val_intCast, Int.toNat_natCast]

theorem subq_eq_val [NeZero q] : subq q a b = ((a : ZMod q) - b).val := by
  rw [subq, toNat_emod_eq_val]
  push_cast
  rfl

/-- The complement to q is the negative (R16). -/
theorem sub_mod_eq_val {a : Nat} (ha : a ≤ q) : (q - a) % q = (-(a : ZMod q)).val := by
  rw [← ZMod.val_natCast, Nat.cast_sub ha, ZMod.natCast_self, zero_sub]

end

/-- The numbers v as field elements. -/
def residues (k : Kind) (v : Nat → Nat) (i : Nat) : ZMod (Config.Q k) := v i

/-- The root ψ in the field (R201). -/
def root (k : Kind) : ZMod (Config.Q k) := Config.PSI k

theorem val_residues {k : Kind} {v : Nat → Nat} (hv : InField k v) {i : Nat} (hi : i < Config.N k) :
    (residues k v i).val = v i :=
  ZMod.val_cast_of_lt (hv i hi)

section
variable {k : Kind} [Fact (Config.Q k).Prime]

@[simp] theorem residues_val (f : Nat → ZMod (Config.Q k)) : residues k (fun i => (f i).val) = f :=
  funext fun i => ZMod.natCast_zmod_val (f i)

theorem inField_val (f : Nat → ZMod (Config.Q k)) : InField k fun i => (f i).val :=
  fun i _ => ZMod.val_lt (f i)

/-! ### The root -/

/-- `ψ^n = -1` (R201). -/
theorem root_pow_N : root k ^ Config.N k = -1 := by
  have h := congrArg (Nat.cast (R := ZMod (Config.Q k))) (psi_pow k)
  rwa [ZMod.natCast_mod, Nat.cast_pow, Nat.cast_sub (Nat.le_of_lt (Q_pos k)), ZMod.natCast_self,
    Nat.cast_one, zero_sub] at h

theorem root_ne_zero : root k ≠ 0 := fun h => by
  have := root_pow_N (k := k)
  rw [h, zero_pow (N_pos k).ne'] at this
  exact neg_ne_zero.2 one_ne_zero this.symm

/-- ω = ψ^2 is a primitive n-th root of unity, because n is a power of two (R201). -/
theorem root_sq_primitive : IsPrimitiveRoot (root k ^ 2) (Config.N k) := by
  have : Fact (2 < Config.Q k) := ⟨Nat.lt_of_lt_of_le (by omega) (Q_ge k)⟩
  have horder : orderOf (root k) = 2 ^ (Config.NBITS k + 1) := by
    refine orderOf_eq_prime_pow ?_ ?_
    · rw [NBITS_eq, root_pow_N]
      exact ZMod.neg_one_ne_one
    · rw [pow_succ, pow_mul, NBITS_eq, root_pow_N, neg_one_sq]
  rw [pow_succ', NBITS_eq] at horder
  exact (IsPrimitiveRoot.orderOf (root k)).pow (by rw [horder]; have := N_pos k; omega) horder

theorem N_ne_zero_in_field : (Config.N k : ZMod (Config.Q k)) ≠ 0 := fun h => by
  have := Nat.le_of_dvd (N_pos k) ((ZMod.natCast_eq_zero_iff _ _).1 h)
  have := N_le k
  have := Q_ge k
  omega

/-! ### Powers and tables -/

/-- The q-2 power is the inverse, by Fermat (R16). -/
theorem pow_Q_sub_two {x : ZMod (Config.Q k)} (hx : x ≠ 0) : x ^ (Config.Q k - 2) = x⁻¹ := by
  refine eq_inv_of_mul_eq_one_left ?_
  have hq : Config.Q k - 1 = Config.Q k - 2 + 1 := by have := Q_pos k; omega
  rw [← pow_succ, ← hq, ZMod.pow_card_sub_one_eq_one hx]

/-- The q-2 power of a number in (0, q) inverts it (R214). -/
theorem powq_Q_sub_two_mul {c : Nat} (hc : c < Config.Q k) (h0 : c ≠ 0) :
    powq (Config.Q k) c (Config.Q k - 2) * c % Config.Q k = 1 := by
  have hne : (c : ZMod (Config.Q k)) ≠ 0 := fun h =>
    h0 (Nat.eq_zero_of_dvd_of_lt ((ZMod.natCast_eq_zero_iff _ _).1 h) hc)
  have : Fact (1 < Config.Q k) := ⟨Q_pos k⟩
  rw [powq_eq_val, pow_Q_sub_two hne, ← ZMod.val_natCast, Nat.cast_mul, ZMod.natCast_zmod_val,
    inv_mul_cancel₀ hne, ZMod.val_one]

theorem twiddleW_eq_val (i : Nat) : twiddleW (Config.ring k) i = (root k ^ i).val :=
  powq_eq_val (Config.Q k) _ _

theorem twiddleR_eq_val (i : Nat) :
    twiddleR (Config.ring k) i = (-(root k ^ i * (Config.N k : ZMod (Config.Q k))⁻¹)).val := by
  have hinv : invq (Config.Q k) (Config.N k) = ((Config.N k : ZMod (Config.Q k))⁻¹).val := by
    rw [invq, powq_eq_val, pow_Q_sub_two N_ne_zero_in_field]
  have hle (a b : Nat) : mulq (Config.Q k) a b ≤ Config.Q k :=
    Nat.le_of_lt (mulq_lt (Nat.lt_of_succ_lt (Q_pos k)) a b)
  rw [twiddleR, twiddleW_eq_val, ring_q, ring_n, hinv, sub_mod_eq_val _ (hle _ _), mulq_eq_val]
  simp

end

end Sys2Proof.Machine
end

section
/-! SUPPORT. What the transforms compute (42_ntt.md R203 to R205, R209): `forward` the values at the odd powers of ψ,
`inverse` the polynomial with given values, and the product of values the negacyclic product. -/

namespace Sys2Proof.Machine

open Sys2Proof.Claims

/-! ### Lists of coefficients -/

section
variable (k : Kind) (v w : Nat → Nat)

theorem mapIdx_coeffs (f : Nat → Nat → Nat) : (coeffs k v).mapIdx f = coeffs k fun i => f i (v i) :=
  List.ext_getElem (by simp) fun i _ _ => by simp [coeffs]

theorem sum_coeffs : (coeffs k v).sum = ∑ i ∈ Finset.range (Config.N k), v i :=
  (Multiset.sum_coe _).symm

theorem xmu_coeffs (q : Nat) (t : Nat → Nat) :
    xmu q (coeffs k v) t = coeffs k fun i => mulq q (v i) (t i) :=
  mapIdx_coeffs k v _

theorem pointwise_coeffs (q : Nat) :
    pointwise q (coeffs k v) (coeffs k w) = coeffs k fun i => v i * w i % q :=
  List.ext_getElem (by simp) fun i _ _ => by simp [pointwise, coeffs, mulq]

theorem flip_coeffs : flip (Config.ring k) (coeffs k v) = coeffs k fun i =>
    if i = 0 then (Config.Q k - v 0) % Config.Q k else v (Config.N k - i) := by
  refine coeffs_congr fun i hi => ?_
  rw [ring_n, ring_q, coeffs_getD (N_pos k)]
  split
  next => rfl
  next h => rw [coeffs_getD (by omega)]

end

section
variable {k : Kind} [Fact (Config.Q k).Prime]

/-! ### The transform core -/

/-- The closed form of R203: the DFT at ω = ψ^2. -/
def dft (k : Kind) (x : Nat → ZMod (Config.Q k)) (m : Nat) : ZMod (Config.Q k) :=
  ∑ i ∈ Finset.range (Config.N k), x i * (root k ^ 2) ^ (i * m)

theorem fft_coeffs (v : Nat → Nat) :
    fft (Config.ring k) (coeffs k v) = coeffs k fun m => (dft k (residues k v) m).val := by
  refine coeffs_congr fun m _ => ?_
  rw [fftCoeff, mapIdx_coeffs, sum_coeffs, ring_q, ring_psi, ← ZMod.val_natCast]
  simp only [mulq_eq_val, powq_eq_val, Nat.cast_sum, ZMod.natCast_zmod_val, dft, residues, root, ← pow_mul]
  refine congrArg ZMod.val (Finset.sum_congr rfl fun i _ => ?_)
  ring

/-! ### The forward transform -/

theorem evalOdd_eq_val (v : Nat → Nat) (j : Nat) :
    evalOdd k v j = (oddEval (root k) (Config.N k) (residues k v) j).val := by
  rw [evalOdd, ← ZMod.val_natCast]
  simp [oddEval, residues, root]

theorem inField_evalOdd (v : Nat → Nat) : InField k (evalOdd k v) := fun j _ => by
  rw [evalOdd_eq_val]
  exact ZMod.val_lt _

/-- `Forward` is the evaluation at the odd powers of ψ (R204). -/
theorem forward_coeffs (v : Nat → Nat) :
    forward (Config.ring k) (coeffs k v) = coeffs k (evalOdd k v) := by
  rw [forward, xmu_coeffs, fft_coeffs]
  refine coeffs_congr fun m _ => ?_
  simp only [evalOdd_eq_val, ring_q, twiddleW_eq_val, mulq_eq_val, ZMod.natCast_zmod_val, residues_val]
  refine congrArg ZMod.val (Finset.sum_congr rfl fun i _ => ?_)
  simp only [residues]
  ring

/-! ### The inverse transform -/

/-- The polynomial in [0, q) that has the values w at the odd powers of ψ. -/
def interpOdd (k : Kind) [Fact (Config.Q k).Prime] (w : Nat → Nat) (i : Nat) : Nat :=
  (oddInterp (root k) (Config.N k) (residues k w) i).val

theorem inField_interpOdd (w : Nat → Nat) : InField k (interpOdd k w) := inField_val _

/-- An odd power of ψ is a root of x^n + 1: its powers m and n - m multiply to -1. -/
theorem root_oddPow_mul {i m : Nat} (h : m + i = Config.N k) (j : Nat) :
    root k ^ (m * (2 * j + 1)) * root k ^ (i * (2 * j + 1)) = -1 := by
  rw [← pow_add, ← add_mul, h, pow_mul, root_pow_N, Odd.neg_one_pow ⟨j, rfl⟩]

/-- The DFT at n - i gives coefficient i, up to the factor and the sign that R202's table and `Flip` mend. -/
theorem dft_mul_root_pow (x : Nat → ZMod (Config.Q k)) {i m : Nat} (h : m + i = Config.N k) :
    dft k x m * root k ^ m = -∑ j ∈ Finset.range (Config.N k), x j / root k ^ (i * (2 * j + 1)) := by
  rw [dft, Finset.sum_mul, ← Finset.sum_neg_distrib]
  refine Finset.sum_congr rfl fun j _ => ?_
  rw [← neg_div, eq_div_iff (pow_ne_zero _ root_ne_zero)]
  linear_combination x j * root_oddPow_mul h j

/-- `Inverse` is the interpolation at the odd powers of ψ (R205). -/
theorem inverse_coeffs (w : Nat → Nat) :
    inverse (Config.ring k) (coeffs k w) = coeffs k (interpOdd k w) := by
  rw [inverse, fft_coeffs, xmu_coeffs, flip_coeffs]
  refine coeffs_congr fun i hi => ?_
  simp only [ring_q, twiddleR_eq_val, mulq_eq_val, ZMod.natCast_zmod_val, interpOdd, oddInterp]
  split
  next h =>
    subst h
    rw [sub_mod_eq_val _ (Nat.le_of_lt (ZMod.val_lt _)), ZMod.natCast_zmod_val]
    simp [dft, mul_comm]
  next h =>
    refine congrArg ZMod.val ?_
    rw [mul_neg, ← mul_assoc, dft_mul_root_pow _ (Nat.sub_add_cancel (Nat.le_of_lt hi)), neg_mul, neg_neg,
      mul_comm]

/-! ### The NTT identity and the product law -/

theorem interpOdd_congr {v w : Nat → Nat} (h : ∀ j, j < Config.N k → v j = w j) (i : Nat) :
    interpOdd k v i = interpOdd k w i :=
  congrArg ZMod.val (oddInterp_congr (fun j hj => congrArg Nat.cast (h j hj)) i)

/-- `Inverse(Forward(p)) = p` (R202). -/
theorem interpOdd_evalOdd {v : Nat → Nat} (hv : InField k v) {i : Nat} (hi : i < Config.N k) :
    interpOdd k (evalOdd k v) i = v i := by
  have hfield : residues k (evalOdd k v) = oddEval (root k) (Config.N k) (residues k v) := by
    rw [funext (evalOdd_eq_val v), residues_val]
  rw [interpOdd, hfield, oddInterp_oddEval root_sq_primitive root_ne_zero N_ne_zero_in_field _ hi,
    val_residues hv hi]

theorem evalOdd_interpOdd {w : Nat → Nat} (hw : InField k w) {j : Nat} (hj : j < Config.N k) :
    evalOdd k (interpOdd k w) j = w j := by
  have hfield : residues k (interpOdd k w) = oddInterp (root k) (Config.N k) (residues k w) :=
    residues_val _
  rw [evalOdd_eq_val, hfield, oddEval_oddInterp root_sq_primitive root_ne_zero N_ne_zero_in_field _ hj,
    val_residues hw hj]

theorem negacyclic_eq_val (v w : Nat → Nat) (m : Nat) :
    negacyclic k v w m = (negacyclicSum (Config.N k) (residues k v) (residues k w) m).val := by
  rw [negacyclic, toNat_emod_eq_val]
  simp [negacyclicSum, residues, apply_ite (Int.cast (R := ZMod (Config.Q k)))]

theorem inField_negacyclic (v w : Nat → Nat) : InField k (negacyclic k v w) := fun m _ => by
  rw [negacyclic_eq_val]
  exact ZMod.val_lt _

/-- The values of the negacyclic product are the products of the values (R209). -/
theorem evalOdd_negacyclic (v w : Nat → Nat) (j : Nat) :
    evalOdd k (negacyclic k v w) j = evalOdd k v j * evalOdd k w j % Config.Q k := by
  have hfield : residues k (negacyclic k v w) = negacyclicSum (Config.N k) (residues k v) (residues k w) := by
    rw [funext (negacyclic_eq_val v w), residues_val]
  rw [evalOdd_eq_val, hfield, oddEval_negacyclicSum root_pow_N, ZMod.val_mul, ← evalOdd_eq_val,
    ← evalOdd_eq_val]

end

end Sys2Proof.Machine
end

section
/-! SUPPORT. R203's loop (42_ntt.md): a pass makes every butterfly once, on a pair no other butterfly of the pass
touches; and after the passes up to h, each block of h values is the DFT of the values it came from. -/

namespace Sys2Proof.Machine

open Sys2Proof.Claims

/-! ### One pass -/

/-- The value at the lower position of a butterfly, from the vector before it. -/
def lowValue (r : RingParams) (h : Nat) (u : List Nat) (s j : Nat) : Nat :=
  addq r.q (u.getD (s + j) 0) (mulq r.q (u.getD (s + j + h) 0) (twiddleW r (j * (r.n / h))))

/-- The value at the upper position. -/
def highValue (r : RingParams) (h : Nat) (u : List Nat) (s j : Nat) : Nat :=
  subq r.q (u.getD (s + j) 0) (mulq r.q (u.getD (s + j + h) 0) (twiddleW r (j * (r.n / h))))

section
variable (r : RingParams) {h : Nat}

theorem getD_set (u : List Nat) {i : Nat} (hi : i < u.length) (c x : Nat) :
    (u.set i c).getD x 0 = if x = i then c else u.getD x 0 := by
  simp only [List.getD_eq_getElem?_getD, List.getElem?_set, hi, if_true, eq_comm (a := x)]
  split <;> simp

theorem getD_butterfly {s j : Nat} {u : List Nat} (hh : 0 < h) (hu : s + j + h < u.length) (x : Nat) :
    (butterfly r h s j u).getD x 0 =
      if x = s + j then lowValue r h u s j else if x = s + j + h then highValue r h u s j else u.getD x 0 := by
  rw [butterfly, getD_set _ (by simpa using hu), getD_set _ (by omega)]
  by_cases hx : x = s + j
  · rw [if_neg (by omega), if_pos hx, if_pos hx]; rfl
  · rw [if_neg hx, if_neg hx]; rfl

/-- The butterflies of one block, for j below m. -/
def blockPass (r : RingParams) (h s m : Nat) (u : List Nat) : List Nat :=
  (List.range m).foldl (fun u j => butterfly r h s j u) u

theorem blockPass_succ (h s m : Nat) (u : List Nat) :
    blockPass r h s (m + 1) u = butterfly r h s m (blockPass r h s m u) := by
  simp [blockPass, List.range_succ]

@[simp] theorem blockPass_length (h s m : Nat) (u : List Nat) : (blockPass r h s m u).length = u.length := by
  induction m with
  | zero => rfl
  | succ m ih => rw [blockPass_succ, butterfly, List.length_set, List.length_set, ih]

/-- The first m butterflies of a block change their own pairs, and nothing else. -/
theorem getD_blockPass {s m : Nat} {u : List Nat} (hm : m ≤ h) (hu : s + 2 * h ≤ u.length) (x : Nat) :
    (blockPass r h s m u).getD x 0 =
      if s ≤ x ∧ x < s + m then lowValue r h u s (x - s)
      else if s + h ≤ x ∧ x < s + h + m then highValue r h u s (x - h - s) else u.getD x 0 := by
  induction m generalizing x with
  | zero => rw [if_neg (by omega), if_neg (by omega)]; rfl
  | succ m ih =>
    have huntouched {y : Nat} (hy : y = s + m ∨ y = s + m + h) :
        (blockPass r h s m u).getD y 0 = u.getD y 0 := by
      rw [ih (by omega), if_neg (by omega), if_neg (by omega)]
    have hlow : lowValue r h (blockPass r h s m u) s m = lowValue r h u s m := by
      rw [lowValue, huntouched (.inl rfl), huntouched (.inr rfl), lowValue]
    have hhigh : highValue r h (blockPass r h s m u) s m = highValue r h u s m := by
      rw [highValue, huntouched (.inl rfl), huntouched (.inr rfl), highValue]
    rw [blockPass_succ, getD_butterfly r (by omega) (by rw [blockPass_length]; omega), hlow, hhigh, ih (by omega)]
    by_cases hx : x = s + m
    · rw [if_pos hx, if_pos (by omega), hx, Nat.add_sub_cancel_left]
    · by_cases hx' : x = s + m + h
      · rw [if_neg hx, if_pos hx', if_neg (by omega), if_pos (by omega)]
        congr 1
        omega
      · have hl : s ≤ x ∧ x < s + (m + 1) ↔ s ≤ x ∧ x < s + m := by omega
        have hr : s + h ≤ x ∧ x < s + h + (m + 1) ↔ s + h ≤ x ∧ x < s + h + m := by omega
        simp only [hx, hx', hl, hr, if_false]

theorem getD_blockPass_low {s j : Nat} {u : List Nat} (hj : j < h) (hu : s + 2 * h ≤ u.length) :
    (blockPass r h s h u).getD (s + j) 0 = lowValue r h u s j := by
  rw [getD_blockPass r (Nat.le_refl h) hu, if_pos (by omega), Nat.add_sub_cancel_left]

theorem getD_blockPass_high {s j : Nat} {u : List Nat} (hj : j < h) (hu : s + 2 * h ≤ u.length) :
    (blockPass r h s h u).getD (s + j + h) 0 = highValue r h u s j := by
  rw [getD_blockPass r (Nat.le_refl h) hu, if_neg (by omega), if_pos (by omega), Nat.add_sub_cancel,
    Nat.add_sub_cancel_left]

theorem getD_blockPass_outside {s x : Nat} {u : List Nat} (hu : s + 2 * h ≤ u.length)
    (hx : x < s ∨ s + 2 * h ≤ x) : (blockPass r h s h u).getD x 0 = u.getD x 0 := by
  rw [getD_blockPass r (Nat.le_refl h) hu, if_neg (by omega), if_neg (by omega)]

/-- The first c blocks of a pass. -/
def blocksPass (r : RingParams) (h c : Nat) (u : List Nat) : List Nat :=
  (List.range c).foldl (fun u b => blockPass r h (2 * h * b) h u) u

theorem blocksPass_succ (h c : Nat) (u : List Nat) :
    blocksPass r h (c + 1) u = blockPass r h (2 * h * c) h (blocksPass r h c u) := by
  simp [blocksPass, List.range_succ]

theorem fftPass_eq_blocksPass (h : Nat) (u : List Nat) :
    fftPass r h u = blocksPass r h (r.n / (2 * h)) u := rfl

@[simp] theorem blocksPass_length (h c : Nat) (u : List Nat) : (blocksPass r h c u).length = u.length := by
  induction c with
  | zero => rfl
  | succ c ih => rw [blocksPass_succ, blockPass_length, ih]

theorem getD_blocksPass_above {c x : Nat} {u : List Nat} (hu : 2 * h * c ≤ u.length) (hx : 2 * h * c ≤ x) :
    (blocksPass r h c u).getD x 0 = u.getD x 0 := by
  induction c with
  | zero => rfl
  | succ c ih =>
    rw [Nat.mul_succ] at hu hx
    rw [blocksPass_succ, getD_blockPass_outside r (by simpa using hu) (.inr hx), ih (by omega) (by omega)]

/-- The pass gives both positions of each pair the butterfly's values of the vector before the pass. -/
theorem getD_blocksPass {c b j : Nat} {u : List Nat} (hu : 2 * h * c ≤ u.length) (hb : b < c) (hj : j < h) :
    (blocksPass r h c u).getD (2 * h * b + j) 0 = lowValue r h u (2 * h * b) j ∧
    (blocksPass r h c u).getD (2 * h * b + j + h) 0 = highValue r h u (2 * h * b) j := by
  induction c with
  | zero => omega
  | succ c ih =>
    rw [Nat.mul_succ] at hu
    have hlen : 2 * h * c + 2 * h ≤ (blocksPass r h c u).length := by simpa using hu
    rw [blocksPass_succ]
    obtain rfl | hlt : b = c ∨ b < c := by omega
    · have hsame (i : Nat) : (blocksPass r h b u).getD (2 * h * b + i) 0 = u.getD (2 * h * b + i) 0 :=
        getD_blocksPass_above r (by omega) (by omega)
      rw [getD_blockPass_low r hj hlen, getD_blockPass_high r hj hlen]
      simp only [lowValue, highValue, Nat.add_assoc, hsame, and_self]
    · have hbelow : 2 * h * b + 2 * h ≤ 2 * h * c := Nat.mul_le_mul_left (2 * h) hlt
      rw [getD_blockPass_outside r hlen (by omega), getD_blockPass_outside r hlen (by omega)]
      exact ih (by omega) hlt

end

/-! ### The passes -/

theorem revBits_two_mul (l b : Nat) : revBits (l + 1) (2 * b) = revBits l b := by
  simp [revBits]

theorem revBits_two_mul_add_one (l b : Nat) : revBits (l + 1) (2 * b + 1) = 2 ^ l + revBits l b := by
  have hbit : (2 * b + 1) % 2 = 1 := by omega
  have hrest : (2 * b + 1) / 2 = b := by omega
  rw [revBits, hbit, hrest, Nat.one_mul]

theorem revBits_lt (l b : Nat) : revBits l b < 2 ^ l := by
  induction l generalizing b with
  | zero => exact Nat.one_pos
  | succ l ih =>
    obtain ⟨c, rfl | rfl⟩ := Nat.even_or_odd' b
    · rw [revBits_two_mul]
      exact (ih c).trans (Nat.pow_lt_pow_succ Nat.one_lt_two)
    · rw [revBits_two_mul_add_one, pow_succ, Nat.mul_two]
      exact Nat.add_lt_add_left (ih c) _

theorem sum_range_two_mul {M : Type} [AddCommMonoid M] (f : Nat → M) (h : Nat) :
    ∑ i ∈ Finset.range (2 * h), f i =
      ∑ i ∈ Finset.range h, f (2 * i) + ∑ i ∈ Finset.range h, f (2 * i + 1) := by
  induction h with
  | zero => simp
  | succ h ih =>
    rw [Nat.mul_succ, Finset.sum_range_succ, Finset.sum_range_succ, ih, Finset.sum_range_succ,
      Finset.sum_range_succ]
    abel

/-- The DFT of the h values of x at the places ρ, ρ + g, ρ + 2g, ... -/
def strideDft (k : Kind) (x : Nat → ZMod (Config.Q k)) (g ρ h j : Nat) : ZMod (Config.Q k) :=
  ∑ i ∈ Finset.range h, x (i * g + ρ) * (root k ^ 2) ^ (g * i * j)

section
variable {k : Kind} (x : Nat → ZMod (Config.Q k)) {g h : Nat} (ρ j : Nat)

/-- A DFT of 2h values from those of the h values at the even and at the odd places. -/
theorem strideDft_two_mul : strideDft k x g ρ (2 * h) j =
    strideDft k x (2 * g) ρ h j + strideDft k x (2 * g) (g + ρ) h j * root k ^ (j * (2 * g)) := by
  rw [strideDft, sum_range_two_mul, strideDft, strideDft, Finset.sum_mul]
  congr 1 <;> exact Finset.sum_congr rfl fun i _ => by ring_nf

variable [Fact (Config.Q k).Prime] (hn : 2 * g * h = Config.N k)
include hn

/-- The half of the DFT at j + h differs from that at j by the sign of the odd places, as ω^(gh) = -1. -/
theorem strideDft_two_mul_add : strideDft k x g ρ (2 * h) (j + h) =
    strideDft k x (2 * g) ρ h j - strideDft k x (2 * g) (g + ρ) h j * root k ^ (j * (2 * g)) := by
  have hperiod (ρ : Nat) : strideDft k x (2 * g) ρ h (j + h) = strideDft k x (2 * g) ρ h j := by
    refine Finset.sum_congr rfl fun i _ => ?_
    rw [Nat.mul_add, pow_add, Nat.mul_right_comm _ i h, hn, pow_mul _ (Config.N k), root_sq_primitive.pow_eq_one,
      one_pow, mul_one]
  have hsign : root k ^ ((j + h) * (2 * g)) = -root k ^ (j * (2 * g)) := by
    rw [Nat.add_mul, pow_add, Nat.mul_comm h, hn, root_pow_N, mul_neg_one]
  rw [strideDft_two_mul, hperiod, hperiod, hsign, mul_neg, sub_eq_add_neg]

end

/-- The vector u after the passes up to h = 2^p: block b holds the DFT of the values of x whose places have
the l low bits of b, reversed (R203). -/
structure HoldsBlockDfts (k : Kind) (x : Nat → ZMod (Config.Q k)) (p l : Nat) (u : List Nat) : Prop where
  length : u.length = Config.N k
  value : ∀ b j, b < 2 ^ l → j < 2 ^ p →
    u.getD (2 ^ p * b + j) 0 = (strideDft k x (2 ^ l) (revBits l b) (2 ^ p) j).val

section
variable {k : Kind} [Fact (Config.Q k).Prime] {x : Nat → ZMod (Config.Q k)} {p l : Nat} {u : List Nat}

/-- One pass joins the blocks in pairs. -/
theorem HoldsBlockDfts.pass (hu : HoldsBlockDfts k x p (l + 1) u) (hpl : p + (l + 1) = Config.NBITS k) :
    HoldsBlockDfts k x (p + 1) l (fftPass (Config.ring k) (2 ^ p) u) := by
  have hn : 2 * 2 ^ l * 2 ^ p = Config.N k := by rw [← NBITS_eq, ← hpl]; ring
  have hblocks : Config.N k / (2 * 2 ^ p) = 2 ^ l :=
    Nat.div_eq_of_eq_mul_left (by positivity) (by rw [← hn]; ring)
  have hstride : Config.N k / 2 ^ p = 2 * 2 ^ l := Nat.div_eq_of_eq_mul_left (by positivity) hn.symm
  rw [fftPass_eq_blocksPass, ring_n, hblocks]
  refine ⟨by rw [blocksPass_length, hu.length], fun b j hb hj => ?_⟩
  have hfit : 2 * 2 ^ p * 2 ^ l ≤ u.length := by rw [hu.length, ← hn]; exact Nat.le_of_eq (by ring)
  have hpair (j : Nat) (hj : j < 2 ^ p) := getD_blocksPass (Config.ring k) hfit hb hj
  have heven (j : Nat) (hj : j < 2 ^ p) : u.getD (2 * 2 ^ p * b + j) 0 =
      (strideDft k x (2 * 2 ^ l) (revBits l b) (2 ^ p) j).val := by
    have h := hu.value (2 * b) j (by omega) hj
    rwa [revBits_two_mul, pow_succ', ← Nat.mul_assoc, Nat.mul_comm _ 2] at h
  have hodd (j : Nat) (hj : j < 2 ^ p) : u.getD (2 * 2 ^ p * b + j + 2 ^ p) 0 =
      (strideDft k x (2 * 2 ^ l) (2 ^ l + revBits l b) (2 ^ p) j).val := by
    have h := hu.value (2 * b + 1) j (by omega) hj
    rwa [revBits_two_mul_add_one, pow_succ', Nat.mul_succ, ← Nat.mul_assoc, Nat.mul_comm _ 2,
      Nat.add_right_comm] at h
  rw [pow_succ']
  obtain hlow | ⟨i, rfl⟩ : j < 2 ^ p ∨ ∃ i, j = i + 2 ^ p := by
    obtain h | h := Nat.lt_or_ge j (2 ^ p)
    · exact .inl h
    · exact .inr ⟨j - 2 ^ p, by omega⟩
  · rw [(hpair j hlow).1, lowValue, heven j hlow, hodd j hlow, ring_n, hstride, ring_q, addq_eq_val, mulq_eq_val,
      twiddleW_eq_val, strideDft_two_mul]
    simp only [ZMod.natCast_zmod_val]
  · have hi : i < 2 ^ p := by omega
    rw [← Nat.add_assoc, (hpair i hi).2, highValue, heven i hi, hodd i hi, ring_n, hstride, ring_q, subq_eq_val,
      mulq_eq_val, twiddleW_eq_val, strideDft_two_mul_add x _ _ hn]
    simp only [ZMod.natCast_zmod_val]

theorem HoldsBlockDfts.passes (hu : HoldsBlockDfts k x p l u) (hpl : p + l = Config.NBITS k) :
    HoldsBlockDfts k x (Config.NBITS k) 0 (fftPasses (Config.ring k) l (2 ^ p) u) := by
  induction l generalizing p u with
  | zero => exact hpl ▸ hu
  | succ l ih =>
    rw [fftPasses, ← pow_succ']
    exact ih (hu.pass hpl) (by omega)

/-- Before the first pass, a block is one value, at its place with the bits reversed. -/
theorem holdsBlockDfts_bitReversed {v : Nat → Nat} (hv : InField k v) :
    HoldsBlockDfts k (residues k v) 0 (Config.NBITS k)
      ((List.range (Config.N k)).map fun i => (coeffs k v).getD (revBits (Config.NBITS k) i) 0) := by
  refine ⟨by simp, fun b j hb hj => ?_⟩
  have hrev : revBits (Config.NBITS k) b < Config.N k := by
    rw [← NBITS_eq]
    exact revBits_lt _ _
  obtain rfl : j = 0 := by omega
  rw [NBITS_eq] at hb
  simp [strideDft, hb, coeffs, hrev, val_residues hv hrev]

/-- R203's loop computes the DFT. -/
theorem fftLoop_coeffs {v : Nat → Nat} (hv : InField k v) :
    fftLoop (Config.ring k) (coeffs k v) = coeffs k fun m => (dft k (residues k v) m).val := by
  have h : HoldsBlockDfts k (residues k v) (Config.NBITS k) 0 (fftLoop (Config.ring k) (coeffs k v)) :=
    (holdsBlockDfts_bitReversed hv).passes (Nat.zero_add _)
  refine eq_coeffs h.length fun m hm => ?_
  have hvalue := h.value 0 m (by omega) (by rwa [NBITS_eq])
  simpa [strideDft, dft, revBits, NBITS_eq] using hvalue

end

end Sys2Proof.Machine
end

section
/-! SUPPORT. The completion of each NTT command whose sources hold polynomials of the right tags
(42_ntt.md R210 to R216). -/

namespace Sys2Proof.Machine

open Sys2Proof.Claims

section
variable {s : State} {k : Kind} [Fact (Config.Q k).Prime] {a b : Bank} {v w : Nat → Nat} (d : Bank)
  (hk : kindOf s.run.kind = some k) (hA : BankHolds s a (Config.N k) v) (hv : InField k v)
include hk hA hv

theorem exec_nttFwd (ta : tagOf s.run.dom a = false) :
    exec (.nttFwd d a) s = .next (s.commitCoeffs d k (evalOdd k v) true) := by
  rw [exec, execNttFwd, withKind_some hk, withTag_right ta, withCoeffs_coeffs hA hv, forward_coeffs]
  rfl

theorem exec_nttInv (ta : tagOf s.run.dom a = true) :
    exec (.nttInv d a) s = .next (s.commitCoeffs d k (interpOdd k v) false) := by
  rw [exec, execNttInv, withKind_some hk, withTag_right ta, withCoeffs_coeffs hA hv, inverse_coeffs]
  rfl

theorem exec_nttMul (ta : tagOf s.run.dom a = false) (tb : tagOf s.run.dom b = true)
    (hB : BankHolds s b (Config.N k) w) (hw : InField k w) :
    exec (.nttMul d a b) s = .next (s.commitCoeffs d k
      (interpOdd k fun i => evalOdd k v i * w i % Config.Q k) false) := by
  rw [exec, execNttMul, withKind_some hk, withTag_right ta, withTag_right tb, withCoeffs_coeffs hA hv,
    withCoeffs_coeffs hB hw, forward_coeffs, pointwise_coeffs, inverse_coeffs]
  rfl

theorem exec_nttNeg : exec (.nttNeg d a) s =
    .next (s.commitCoeffs d k (fun i => (Config.Q k - v i) % Config.Q k) (tagOf s.run.dom a)) := by
  have hneg : (coeffs k v).map (fun c => mulq (Config.Q k) c (Config.Q k - 1)) =
      coeffs k fun i => (Config.Q k - v i) % Config.Q k := by
    rw [coeffs, List.map_map]
    refine coeffs_congr fun i hi => ?_
    rw [sub_mod_eq_val _ (Nat.le_of_lt (hv i hi)), Function.comp_apply, mulq_eq_val]
    simp [Nat.cast_sub (Nat.le_of_lt (Q_pos k))]
  rw [exec, execNttNeg, withKind_some hk, withCoeffs_coeffs hA hv, hneg]
  rfl

/-- The test for a zero is on the transform (R214). -/
theorem exec_nttInvert (ta : tagOf s.run.dom a = false) : exec (.nttInvert d a) s =
    if 0 ∈ coeffs k (evalOdd k v) then .next (s.fail .notinv)
    else .next (s.commitCoeffs d k (fun i => powq (Config.Q k) (evalOdd k v i) (Config.Q k - 2)) true) := by
  have hpow : (coeffs k (evalOdd k v)).map (fun c => powq (Config.Q k) c (Config.Q k - 2)) =
      coeffs k fun i => powq (Config.Q k) (evalOdd k v i) (Config.Q k - 2) := List.map_map
  rw [exec, execNttInvert, withKind_some hk, withTag_right ta, withCoeffs_coeffs hA hv, forward_coeffs]
  dsimp only
  rw [hpow]
  rfl

end

theorem exec_nttPmul {s : State} {k : Kind} {a b : Bank} {v w : Nat → Nat} (d : Bank)
    (hk : kindOf s.run.kind = some k) (ta : tagOf s.run.dom a = true) (tb : tagOf s.run.dom b = true)
    (hA : BankHolds s a (Config.N k) v) (hv : InField k v)
    (hB : BankHolds s b (Config.N k) w) (hw : InField k w) :
    exec (.nttPmul d a b) s = .next (s.commitCoeffs d k (fun i => v i * w i % Config.Q k) true) := by
  rw [exec, execNttPmul, withKind_some hk, withTag_right ta, withTag_right tb, withCoeffs_coeffs hA hv,
    withCoeffs_coeffs hB hw, pointwise_coeffs]
  rfl

/-- `NTT.MODQ` takes any written words (R216). -/
theorem exec_nttModq {s : State} {k : Kind} {a : Bank} (d : Bank) (hk : kindOf s.run.kind = some k)
    {x : Nat → Word} (hA : ∀ i, i < Config.N k → s.bankWord? a i = some (x i)) :
    exec (.nttModq d a) s = .next (s.commitCoeffs d k
      (fun i => ((x i).toInt % (Config.Q k : Int)).toNat) (tagOf s.run.dom a)) := by
  have hread : s.readBank a (Config.N k) = some ((List.range (Config.N k)).map x) :=
    State.readBank_eq_some.2 ⟨by simp, fun i hi => by simp [hA i hi, hi]⟩
  rw [exec, execNttModq, withKind_some hk, withWords_some hread, State.commitCoeffs, coeffs]
  simp [Function.comp_def]

end Sys2Proof.Machine
end

section
/-! CERTIFICATES. 42_ntt.md R202, R203, R209 to R216: the transform core and the results of the NTT commands. -/

namespace Sys2Proof.Claims

open Sys2Proof.Machine

/-- Settles O37: the values of A at the odd powers of ψ determine A, whatever state reads them. -/
theorem nttInvAfterFwdRestores : Obligations.NttInvAfterFwdRestores := by
  intro d a x s u k v hk ta hA hv
  have := Fact.mk (Q_prime k)
  refine ⟨_, exec_nttFwd d hk hA hv ta, fun hsame hku td => ?_⟩
  have hD : BankHolds u d (Config.N k) (evalOdd k v) := fun i hi =>
    (hsame i hi).trans (s.bankHolds_commitCoeffs d k (evalOdd k v) true i hi)
  exact ⟨_, exec_nttInv x hku hD (inField_evalOdd v) td,
    (u.bankHolds_commitCoeffs x k _ false).congr fun _ => interpOdd_evalOdd hv⟩

/-- Settles O42: the negacyclic product has the values that NTT.MUL interpolates. -/
theorem nttMulIsTheNegacyclicProduct : Obligations.NttMulIsTheNegacyclicProduct := by
  intro d a b s k v w hk ta tb hA hv _ hB
  have := Fact.mk (Q_prime k)
  refine ⟨_, exec_nttMul d hk hA hv ta tb hB (inField_evalOdd w),
    (s.bankHolds_commitCoeffs d k _ false).congr fun i hi => ?_⟩
  rw [interpOdd_congr fun j _ => (evalOdd_negacyclic v w j).symm]
  exact interpOdd_evalOdd (inField_negacyclic v w) hi

/-- Settles O43: both are the DFT in the field, and so is the closed form. -/
theorem fftLoopComputesTheClosedForm : Obligations.FftLoopComputesTheClosedForm := by
  intro k l hlen hrange
  have := Fact.mk (Q_prime k)
  have hv : InField k (l.getD · 0) := fun i hi => by
    show l.getD i 0 < Config.Q k
    rw [List.getD_eq_getElem _ _ (hlen ▸ hi)]
    exact hrange _ (List.getElem_mem _)
  have hl : l = coeffs k (l.getD · 0) := eq_coeffs hlen fun _ _ => rfl
  have hloop := fftLoop_coeffs hv
  have hfft := fft_coeffs (k := k) (l.getD · 0)
  rw [← hl] at hloop hfft
  have hclosed (m : Nat) : (dft k (residues k (l.getD · 0)) m).val =
      (∑ i ∈ Finset.range (Config.N k), l.getD i 0 * (Config.PSI k ^ 2) ^ (i * m)) % Config.Q k := by
    rw [← ZMod.val_natCast]
    simp [dft, residues, root]
  rw [hloop, hfft]
  refine ⟨coeffs_length _ _, coeffs_length _ _, fun m hm => ?_⟩
  rw [coeffs_getD hm, hclosed]
  exact ⟨rfl, rfl⟩

/-- Settles O35: FFT after the multiplication by the powers of ψ is the evaluation. -/
theorem nttFwdEvaluatesAtOddPowers : Obligations.NttFwdEvaluatesAtOddPowers := by
  intro d a s k v hk ta hA hv
  have := Fact.mk (Q_prime k)
  exact ⟨_, exec_nttFwd d hk hA hv ta, s.bankHolds_commitCoeffs d k _ true,
    s.commitsBank_commitCoeffs d k _ true⟩

/-- Settles O36: the interpolated polynomial has the values of A. -/
theorem nttInvInterpolates : Obligations.NttInvInterpolates := by
  intro d a s k v hk ta hA hv
  have := Fact.mk (Q_prime k)
  exact ⟨_, _, exec_nttInv d hk hA hv ta, s.bankHolds_commitCoeffs d k _ false, inField_interpOdd v,
    fun _ => evalOdd_interpOdd hv, s.commitsBank_commitCoeffs d k _ false⟩

/-- Settles O38: the engine's product of two lists is the products of their entries. -/
theorem nttPmulMultipliesPointwise : Obligations.NttPmulMultipliesPointwise := by
  intro d a b s k v w hk ta tb hA hv hB hw
  exact ⟨_, exec_nttPmul d hk ta tb hA hv hB hw, s.bankHolds_commitCoeffs d k _ true,
    s.commitsBank_commitCoeffs d k _ true⟩

/-- Settles O39: multiplying by q - 1 is negation in the field, and a remainder fits any word of A. -/
theorem nttNegAndModqReduce : Obligations.NttNegAndModqReduce := by
  refine fun d a s k hk => ⟨fun v hA hv => ?_, fun x hA => ?_⟩
  · have := Fact.mk (Q_prime k)
    exact ⟨_, exec_nttNeg d hk hA hv, s.bankHolds_commitCoeffs d k _ _, s.commitsBank_commitCoeffs d k _ _⟩
  · exact ⟨_, exec_nttModq d hk hA, s.bankHolds_commitCoeffs d k _ _, s.commitsBank_commitCoeffs d k _ _⟩

/-- Settles O40: Fermat's inverse of a value that is not 0. -/
theorem nttInvertInvertsTheTransform : Obligations.NttInvertInvertsTheTransform := by
  intro d a s k v hk ta hA hv
  have := Fact.mk (Q_prime k)
  have hexec := exec_nttInvert d hk hA hv ta
  have hzero : 0 ∈ coeffs k (evalOdd k v) ↔ ∃ j, j < Config.N k ∧ evalOdd k v j = 0 := by simp [coeffs]
  refine ⟨fun hnz => ?_, fun j hj hz => ?_⟩
  · rw [if_neg fun h => let ⟨j, hj, hz⟩ := hzero.1 h; hnz j hj hz] at hexec
    exact ⟨_, _, hexec, s.bankHolds_commitCoeffs d k _ true,
      fun _ _ => powq_lt (Nat.lt_of_succ_lt (Q_pos k)) _ _,
      fun j hj => powq_Q_sub_two_mul (inField_evalOdd v j hj) (hnz j hj), s.commitsBank_commitCoeffs d k _ true⟩
  · rw [if_pos (hzero.2 ⟨j, hj, hz⟩)] at hexec
    exact ⟨_, hexec, s.failsWith_fail .notinv⟩

/-- Settles O41: what NTT.MUL interpolates are the products of the values. -/
theorem nttMulMultipliesTransforms : Obligations.NttMulMultipliesTransforms := by
  intro d a b s k v w hk ta tb hA hv hB hw
  have := Fact.mk (Q_prime k)
  have hprod : InField k fun i => evalOdd k v i * w i % Config.Q k := fun _ _ =>
    Nat.mod_lt _ (Nat.lt_of_succ_lt (Q_pos k))
  exact ⟨_, _, exec_nttMul d hk hA hv ta tb hB hw, s.bankHolds_commitCoeffs d k _ false, inField_interpOdd _,
    fun _ => evalOdd_interpOdd hprod, s.commitsBank_commitCoeffs d k _ false⟩

end Sys2Proof.Claims
end

section
/-! SUPPORT. The sampler's procedures on given draws (43_sampler.md R252, R254 to R256): how a byte or a group
decides, where a loop begins again, and between which bounds the values lie. -/

namespace Sys2Proof.Machine

open Sys2Proof.Claims

/-! ### Bernoulli -/

theorem bigEndian_lt (us : List Byte) : bigEndian us < 256 ^ us.length := by
  induction us with
  | nil => decide
  | cons u us ih =>
    have hu : (u.toNat + 1) * 256 ^ us.length ≤ 256 * 256 ^ us.length := Nat.mul_le_mul_right _ u.isLt
    rw [Nat.succ_mul] at hu
    rw [bigEndian, List.length_cons, Nat.pow_succ']
    omega

/-- Big-endian numbers of one length compare by their first bytes, and by the rest where these are equal. -/
theorem bigEndian_cons_le_cons {u v : Byte} {us vs : List Byte} (hlen : us.length = vs.length) :
    bigEndian (u :: us) ≤ bigEndian (v :: vs) ↔
      u.toNat < v.toNat ∨ u.toNat = v.toNat ∧ bigEndian us ≤ bigEndian vs := by
  have hus := hlen ▸ bigEndian_lt us
  have hvs := bigEndian_lt vs
  have hscale {a b : Nat} (h : a < b) : a * 256 ^ vs.length + 256 ^ vs.length ≤ b * 256 ^ vs.length :=
    Nat.succ_mul a _ ▸ Nat.mul_le_mul_right _ h
  simp only [bigEndian, hlen]
  obtain h | h | h := Nat.lt_trichotomy u.toNat v.toNat
  · have := hscale h
    omega
  · rw [h]
    omega
  · have := hscale h
    omega

section
variable {c : SamplerParams} {i : Nat}

/-- One byte against the row's (R252). -/
theorem bernoulliFrom_byte (left j : Nat) (u : Byte) (ds : List DWord) :
    bernoulliFrom c i (left + 1) j (u.setWidth 64 :: ds) =
      if u.toNat < (c.cdt i j).toNat then .done true ds
      else if (c.cdt i j).toNat < u.toNat then .done false ds
      else bernoulliFrom c i left (j + 1) ds := by
  have hdraw : drawByte (u.setWidth 64 :: ds) = .done u ds := by simp [drawByte]
  rw [bernoulliFrom, Sampler.andThen_done hdraw]
  split
  · rfl
  · split <;> rfl

/-- Bytes that equal the row's decide nothing. -/
theorem bernoulliFrom_of_equal (us : List Byte) (left j : Nat) (ds : List DWord)
    (heq : ∀ m, m < us.length → us.getD m 0 = c.cdt i (j + m)) :
    bernoulliFrom c i (us.length + left) j (byteDraws us ++ ds) =
      bernoulliFrom c i left (j + us.length) ds := by
  induction us generalizing j with
  | nil => simp [byteDraws]
  | cons u us ih =>
    have hu : u = c.cdt i j := heq 0 (Nat.succ_pos _)
    have hrest := ih (j + 1) fun m hm => by
      rw [Nat.add_assoc, Nat.add_comm 1]
      exact heq (m + 1) (Nat.succ_lt_succ hm)
    have hstep := bernoulliFrom_byte (c := c) (i := i) (us.length + left) j u (byteDraws us ++ ds)
    rw [hu, if_neg (Nat.lt_irrefl _), if_neg (Nat.lt_irrefl _), ← hu, hrest] at hstep
    rw [List.length_cons, Nat.add_right_comm, ← Nat.add_assoc j, Nat.add_right_comm j]
    exact hstep

/-- As many bytes as the row has left compare as numbers, and one of them is used. -/
theorem bernoulliFrom_of_full (us : List Byte) (j : Nat) : ∃ rest,
    bernoulliFrom c i us.length j (byteDraws us) =
      .done (decide (bigEndian us ≤ bigEndian ((List.range' j us.length).map (c.cdt i)))) rest ∧
    rest.length ≤ us.length - 1 := by
  induction us generalizing j with
  | nil => exact ⟨[], rfl, Nat.le_refl 0⟩
  | cons u us ih =>
    have hle := bigEndian_cons_le_cons (u := u) (v := c.cdt i j) (us := us)
      (vs := (List.range' (j + 1) us.length).map (c.cdt i)) (by simp)
    have hstep := bernoulliFrom_byte (c := c) (i := i) us.length j u (byteDraws us)
    have hlen : (byteDraws us).length = us.length := List.length_map _
    rw [List.length_cons, List.range'_succ, List.map_cons, byteDraws, List.map_cons]
    obtain h | h | h := Nat.lt_trichotomy u.toNat (c.cdt i j).toNat
    · rw [if_pos h] at hstep
      exact ⟨_, hstep.trans (by rw [decide_eq_true (hle.2 (.inl h))]), by omega⟩
    · rw [if_neg (by omega), if_neg (by omega)] at hstep
      obtain ⟨rest, hrest, hlt⟩ := ih (j + 1)
      have hle' := hle.trans ((or_iff_right (by omega)).trans (and_iff_right h))
      exact ⟨rest, hstep.trans (by rw [hrest, decide_eq_decide.2 hle']), by omega⟩
    · rw [if_neg (by omega), if_pos h] at hstep
      exact ⟨_, hstep.trans (by rw [decide_eq_false (hle.not.2 (by omega))]), by omega⟩

section
variable {us : List Byte} (hlt : us.length < c.cols) (heq : ∀ j, j < us.length → us.getD j 0 = c.cdt i j)
include hlt heq

/-- After bytes that equal the row's, the compare stands at the next one. -/
theorem bernoulli_of_equal (ds : List DWord) : bernoulli c i (byteDraws us ++ ds) =
    bernoulliFrom c i (c.cols - us.length - 1 + 1) us.length ds := by
  have hcols : c.cols = us.length + (c.cols - us.length - 1 + 1) := by omega
  rw [bernoulli]
  conv_lhs => rw [hcols]
  rw [bernoulliFrom_of_equal us _ 0 ds (by simpa using heq), Nat.zero_add]

theorem bernoulli_of_undecided : bernoulli c i (byteDraws us) = .need .byte := by
  rw [← List.append_nil (byteDraws us), bernoulli_of_equal hlt heq]
  rfl

/-- The last byte of the row decides, and so does one that differs from the row's. -/
theorem bernoulli_of_decided {u : Byte} (hu : us.length + 1 = c.cols ∨ u ≠ c.cdt i us.length) :
    bernoulli c i (byteDraws (us ++ [u])) = .done (decide (u.toNat ≤ (c.cdt i us.length).toNat)) [] := by
  have hdraws : byteDraws (us ++ [u]) = byteDraws us ++ [u.setWidth 64] := List.map_append
  rw [hdraws, bernoulli_of_equal hlt heq, bernoulliFrom_byte]
  obtain h | h | h := Nat.lt_trichotomy u.toNat (c.cdt i us.length).toNat
  · rw [if_pos h, decide_eq_true (Nat.le_of_lt h)]
  · have hlast := hu.resolve_right (not_not.2 (BitVec.eq_of_toNat_eq h))
    rw [if_neg (by omega), if_neg (by omega), decide_eq_true (Nat.le_of_eq h), ← hlast, Nat.add_sub_cancel_left]
    rfl
  · rw [if_neg (by omega), if_pos h, decide_eq_false (by omega)]

end

end

/-! ### BernoulliCosh -/

theorem natAbs_toInt_neg (x : Word) : (-x).toInt.natAbs = x.toInt.natAbs := by
  simp only [BitVec.toInt_eq_toNat_cond, BitVec.toNat_neg]
  omega

theorem coshArg_neg (x : Word) : coshArg (-x) = coshArg x := by
  rw [coshArg, natAbs_toInt_neg, coshArg]

theorem bernoulliCosh_neg (c : SamplerParams) (x : Word) : bernoulliCosh c (-x) = bernoulliCosh c x := by
  unfold bernoulliCosh
  rw [coshArg_neg]

theorem eq_coshArg {x xx : Word} (h : xx.toNat = 2 * x.toInt.natAbs % 2 ^ 32) : xx = coshArg x :=
  BitVec.eq_of_toNat_eq (h.trans (BitVec.toNat_ofNat _ _).symm)

section
variable {c : SamplerParams} {x : Word} {ds rest : List DWord}

theorem bernoulliCosh_of_need {r : DrawReq} (h : bernoulliExp c (coshArg x) ds = .need r) :
    bernoulliCosh c x ds = .need r := Sampler.andThen_need h

theorem bernoulliCosh_of_true (h : bernoulliExp c (coshArg x) ds = .done true rest) :
    bernoulliCosh c x ds = .done true rest := Sampler.andThen_done h

theorem bernoulliCosh_of_no_coin (h : bernoulliExp c (coshArg x) ds = .done false []) :
    bernoulliCosh c x ds = .need .bit := Sampler.andThen_done h

/-- The loop with fewer draws left than turns is the procedure. -/
theorem coshLoop_eq_bernoulliCosh {f : Nat} (h : rest.length < f) :
    coshLoop c (coshArg x) f rest = bernoulliCosh c x rest :=
  coshLoop_bound c _ _ _ rest h (Nat.lt_succ_self _)

section
variable {u : DWord} (h : bernoulliExp c (coshArg x) ds = .done false (u :: rest))
include h

/-- The coin after a false compare (R254). -/
theorem bernoulliCosh_of_coin : bernoulliCosh c x ds =
    (if u.getLsbD 0 then coshLoop c (coshArg x) ds.length
      else (bernoulliExp c (coshArg x)).andThen fun p =>
        if p then coshLoop c (coshArg x) ds.length else Sampler.ret false) rest :=
  Sampler.andThen_done h

theorem bernoulliCosh_of_heads (hu : u.getLsbD 0 = true) : bernoulliCosh c x ds = bernoulliCosh c x rest := by
  have hlen : rest.length < ds.length := shrinks_bernoulliExp _ _ _ _ _ h
  rw [bernoulliCosh_of_coin h, if_pos hu, coshLoop_eq_bernoulliCosh hlen]

/-- Tails lead to a second compare, and to the loop again where it is true. -/
theorem bernoulliCosh_of_tails (hu : u.getLsbD 0 = false) : bernoulliCosh c x ds =
    (bernoulliExp c (coshArg x)).andThen (fun p => if p then bernoulliCosh c x else Sampler.ret false) rest := by
  have hlen : rest.length < ds.length := shrinks_bernoulliExp _ _ _ _ _ h
  rw [bernoulliCosh_of_coin h, if_neg (Bool.eq_false_iff.1 hu)]
  refine Sampler.andThen_congr fun p rest' hp => ?_
  cases p with
  | false => rfl
  | true => exact coshLoop_eq_bernoulliCosh (Nat.lt_of_le_of_lt (shrinks_bernoulliExp _ _ _ _ _ hp) hlen)

end

end

/-! ### PositiveBinary -/

theorem drawBits_cons {k : Nat} (hk : 1 ≤ k) (u : DWord) (ds : List DWord) :
    drawBits k (u :: ds) = .done (u.setWidth 32) ds := by
  rw [drawBits, if_neg (by omega)]

section
variable {i : Nat} (hi : 1 ≤ i)
include hi

theorem posGroups_nil (left : Nat) : posGroups (left + 1) i [] = .need (.bits (2 * i - 1)) :=
  Sampler.andThen_need (drawBits_need.2 ⟨rfl, by omega, rfl⟩)

/-- One group (R255): 0 gives i, 1 goes on, any other value restarts. -/
theorem posGroups_cons (left : Nat) (u : DWord) (ds : List DWord) : posGroups (left + 1) i (u :: ds) =
    if u.setWidth 32 = (0 : Word) then .done (some i) ds
    else if u.setWidth 32 = (1 : Word) then posGroups left (i + 1) ds
    else .done none ds := by
  rw [posGroups, Sampler.andThen_done (drawBits_cons (by omega) u ds)]
  split
  · rfl
  · split <;> rfl

end

theorem posGroups_ones {i : Nat} (hi : 1 ≤ i) (n left : Nat) (ds : List DWord) :
    posGroups (n + left) i (List.replicate n 1 ++ ds) = posGroups left (i + n) ds := by
  induction n generalizing i with
  | zero => simp
  | succ n ih =>
    rw [Nat.succ_add, List.replicate_succ, List.cons_append, posGroups_cons hi, if_neg (by decide),
      if_pos (by decide), ih (by omega), Nat.add_right_comm, Nat.add_assoc]

/-- Group i comes after i - 1 groups of value 1. -/
theorem posGroups_reach {i : Nat} (h1 : 1 ≤ i) (h16 : i ≤ 16) (ds : List DWord) :
    posGroups Config.POSBIN_CEIL 1 (List.replicate (i - 1) 1 ++ ds) = posGroups (16 - i + 1) i ds := by
  have hceil : Config.POSBIN_CEIL = i - 1 + (16 - i + 1) := by
    show 16 = _
    omega
  rw [hceil, posGroups_ones (Nat.le_refl 1), Nat.add_sub_cancel' h1]

section
variable {ds rest : List DWord}

theorem positiveBinary_of_need {r : DrawReq} (h : posGroups Config.POSBIN_CEIL 1 ds = .need r) :
    positiveBinary (1 :: ds) = .need r := by
  have hbit : drawBit (1 :: ds) = .done true ds := rfl
  rw [positiveBinary, posLoop, Sampler.andThen_done hbit, if_pos rfl, Sampler.andThen_need h]

theorem positiveBinary_of_value {v : Nat} (h : posGroups Config.POSBIN_CEIL 1 ds = .done (some v) rest) :
    positiveBinary (1 :: ds) = .done v rest :=
  (Sampler.andThen_done rfl).trans (Sampler.andThen_done h)

theorem positiveBinary_of_restart (h : posGroups Config.POSBIN_CEIL 1 ds = .done none rest) :
    positiveBinary (1 :: ds) = positiveBinary rest := by
  have hlen := shrinks_posGroups _ _ _ _ _ h
  have hturn : positiveBinary (1 :: ds) = posLoop (ds.length + 1) rest :=
    (Sampler.andThen_done rfl).trans (Sampler.andThen_done h)
  exact hturn.trans (posLoop_bound _ _ rest (by omega) (Nat.lt_succ_self _))

end

/-! ### What values a procedure gives -/

/-- Every value the procedure gives has the property. -/
def Sampler.yields {α : Type} (m : Sampler α) (P : α → Prop) : Prop := ∀ ds v rest, m ds = .done v rest → P v

theorem Sampler.yields_ret {α : Type} {P : α → Prop} {v : α} (h : P v) : (Sampler.ret v).yields P := by
  intro ds w rest hw
  cases hw
  exact h

theorem Sampler.yields_andThen {α β : Type} {m : Sampler α} {f : α → Sampler β} {Q : α → Prop}
    {P : β → Prop} (hm : m.yields Q) (hf : ∀ v, Q v → (f v).yields P) : (m.andThen f).yields P := by
  intro ds w rest h
  rcases Sampler.andThen_cases m f ds with ⟨r, _, h2⟩ | ⟨v, rest', h1, h2⟩
  · cases h2.symm.trans h
  · exact hf v (hm _ _ _ h1) _ _ _ (h2.symm.trans h)

/-- Of most draws nothing need be known. -/
theorem Sampler.yields_true {α : Type} (m : Sampler α) : m.yields fun _ => True := fun _ _ _ _ => trivial

theorem yields_posGroups (left i : Nat) (h : left + i ≤ 17) :
    (posGroups left i).yields fun o => ∀ v ∈ o, v ≤ 16 := by
  induction left generalizing i with
  | zero => exact Sampler.yields_ret (by simp)
  | succ left ih =>
    refine Sampler.yields_andThen (Sampler.yields_true _) fun u _ => ?_
    split
    · exact Sampler.yields_ret (by simp; omega)
    · split
      · exact ih (i + 1) (by omega)
      · exact Sampler.yields_ret (by simp)

theorem yields_positiveBinary : Sampler.yields positiveBinary fun v => v ≤ 16 := by
  have hloop (f : Nat) : (posLoop f).yields fun v => v ≤ 16 := by
    induction f with
    | zero => intro ds v rest h; cases h
    | succ f ih =>
      refine Sampler.yields_andThen (Sampler.yields_true _) fun b _ => ?_
      split
      · refine Sampler.yields_andThen (yields_posGroups _ 1 (by decide)) fun o ho => ?_
        cases o with
        | some v => exact Sampler.yields_ret (ho v rfl)
        | none => exact ih
      · exact Sampler.yields_ret (Nat.zero_le 16)
  exact fun ds => hloop (ds.length + 1) ds

theorem yields_residue (c : SamplerParams) : (residue c).yields fun y => y < c.ksigma := by
  have hloop (f : Nat) : (residueLoop c f).yields fun y => y < c.ksigma := by
    induction f with
    | zero => intro ds v rest h; cases h
    | succ f ih =>
      refine Sampler.yields_andThen (Sampler.yields_true _) fun y _ => ?_
      split
      next hy => exact Sampler.yields_ret hy
      next => exact ih
  exact fun ds => hloop (ds.length + 1) ds

/-- A sample's magnitude KSIGMA·x + y has x at most 16 and y below KSIGMA (R256). -/
theorem yields_gauss (c : SamplerParams) : (gauss c).yields fun z => z.natAbs < 17 * c.ksigma := by
  have hloop (f : Nat) : (gaussLoop c f).yields fun z => z.natAbs < 17 * c.ksigma := by
    induction f with
    | zero => intro ds v rest h; cases h
    | succ f ih =>
      refine Sampler.yields_andThen yields_positiveBinary fun x hx => ?_
      refine Sampler.yields_andThen (yields_residue c) fun y hy => ?_
      refine Sampler.yields_andThen (Sampler.yields_true _) fun ok _ => ?_
      have hz : c.ksigma * x + y < 17 * c.ksigma := by
        have := Nat.mul_le_mul_left c.ksigma hx
        omega
      split
      · refine Sampler.yields_andThen (Sampler.yields_true _) fun u _ => ?_
        dsimp only
        split
        · exact ih
        · refine Sampler.yields_ret ?_
          cases u
          · exact (Int.natAbs_neg _).trans_lt hz
          · exact hz
      · exact ih
  exact fun ds => hloop (ds.length + 1) ds

/-! ### Gauss -/

section
variable {c : SamplerParams}

/-- Draws that are not below KSIGMA are passed over. -/
theorem residueLoop_rejects (hb : c.ksigmaBits ≠ 0) (rs : List DWord)
    (hrs : ∀ r ∈ rs, c.ksigma ≤ (r.setWidth 32).toNat) (f : Nat) (ds : List DWord) :
    residueLoop c (rs.length + f) (rs ++ ds) = residueLoop c f ds := by
  induction rs with
  | nil => rw [List.length_nil, Nat.zero_add, List.nil_append]
  | cons r rs ih =>
    rw [List.forall_mem_cons] at hrs
    obtain ⟨hr, hrs⟩ := hrs
    rw [List.length_cons, Nat.succ_add, List.cons_append, residueLoop,
      Sampler.andThen_done (drawBits_cons (Nat.one_le_iff_ne_zero.2 hb) r _), if_neg (Nat.not_lt.2 hr), ih hrs]

theorem residue_of_rejects (hb : c.ksigmaBits ≠ 0) {rs : List DWord}
    (hrs : ∀ r ∈ rs, c.ksigma ≤ (r.setWidth 32).toNat) : residue c rs = .need (.bits c.ksigmaBits) := by
  have h := residueLoop_rejects hb rs hrs 1 []
  rw [List.append_nil] at h
  exact h.trans (Sampler.andThen_need (drawBits_need.2 ⟨rfl, Nat.one_le_iff_ne_zero.2 hb, rfl⟩))

/-- `ResidueIs` says what R256's loop gives. -/
theorem residue_of_residueIs (hks : 1 ≤ c.ksigma) {ws rest : List DWord} {y : Nat}
    (h : ResidueIs c ws y rest) : residue c ws = .done y rest := by
  obtain ⟨hb, rfl, rfl⟩ | ⟨hb, rs, u, rfl, hrs, rfl, hy⟩ := h
  · have hdraw : drawBits c.ksigmaBits rest = .done 0 rest := if_pos hb
    exact (Sampler.andThen_done hdraw).trans (congrFun (if_pos hks) rest)
  · have hlen : (rs ++ u :: rest).length + 1 = rs.length + (rest.length + 1 + 1) := by simp; omega
    rw [residue, hlen, residueLoop_rejects hb rs hrs, residueLoop,
      Sampler.andThen_done (drawBits_cons (Nat.one_le_iff_ne_zero.2 hb) u _), if_pos hy, Sampler.ret_apply]

/-- The procedure leaves fewer draws than it is given. -/
def Sampler.consumes {α : Type} (m : Sampler α) : Prop :=
  ∀ ds v rest, m ds = .done v rest → rest.length < ds.length

theorem Sampler.consumes_andThen {α β : Type} {m : Sampler α} {f : α → Sampler β}
    (hm : m.consumes) (hf : ∀ v, (f v).shrinks) : (m.andThen f).consumes := by
  intro ds w rest h
  rcases Sampler.andThen_cases m f ds with ⟨r, _, h2⟩ | ⟨v, rest', h1, h2⟩
  · cases h2.symm.trans h
  · exact Nat.lt_of_le_of_lt (hf v _ _ _ (h2.symm.trans h)) (hm _ _ _ h1)

theorem Sampler.consumes.shrinks {α : Type} {m : Sampler α} (h : m.consumes) : m.shrinks :=
  fun ds v rest hv => Nat.le_of_lt (h ds v rest hv)

theorem consumes_drawBit : Sampler.consumes drawBit := fun ds v rest h => by
  have := drawBit_done h
  omega

theorem consumes_positiveBinary : Sampler.consumes positiveBinary := by
  have hloop (f : Nat) : (posLoop f).consumes := by
    induction f with
    | zero => intro ds v rest h; cases h
    | succ f ih =>
      refine Sampler.consumes_andThen consumes_drawBit fun b => ?_
      split
      · refine Sampler.shrinks_andThen (shrinks_posGroups _ 1) fun o => ?_
        cases o with
        | some v => exact Sampler.shrinks_ret v
        | none => exact ih.shrinks
      · exact Sampler.shrinks_ret 0
  exact fun ds => hloop (ds.length + 1) ds

theorem shrinks_residue : (residue c).shrinks := by
  have hloop (f : Nat) : (residueLoop c f).shrinks := by
    induction f with
    | zero => intro ds v rest h; cases h
    | succ f ih =>
      refine Sampler.shrinks_andThen (shrinks_drawBits _) fun y => ?_
      split
      · exact Sampler.shrinks_ret _
      · exact ih
  exact fun ds => hloop (ds.length + 1) ds

/-- A turn of `Gauss`'s loop uses draws, up to its acceptance. -/
theorem length_lt_of_gauss_turn {ds ws ds' rest : List DWord} {x y : Nat} {w : Word} {ok : Bool}
    (hx : positiveBinary ds = .done x ws) (hy : residue c ws = .done y ds')
    (hok : bernoulliExp c w ds' = .done ok rest) : rest.length < ds.length :=
  calc rest.length ≤ ds'.length := shrinks_bernoulliExp _ _ _ _ _ hok
    _ ≤ ws.length := shrinks_residue _ _ _ hy
    _ < ds.length := consumes_positiveBinary _ _ _ hx

/-- `Gauss`'s loop with any bound above the number of draws is the procedure. -/
theorem gaussLoop_bound (f f' : Nat) (ds : List DWord) (h : ds.length < f) (h' : ds.length < f') :
    gaussLoop c f ds = gaussLoop c f' ds := by
  induction f generalizing f' ds with
  | zero => omega
  | succ f ih =>
    obtain ⟨f', rfl⟩ : ∃ n, f' = n + 1 := ⟨f' - 1, by omega⟩
    refine Sampler.andThen_congr fun x ws hx => Sampler.andThen_congr fun y ds' hy =>
      Sampler.andThen_congr fun ok rest hok => ?_
    have hlen := length_lt_of_gauss_turn hx hy hok
    cases ok with
    | false => exact ih f' rest (by omega) (by omega)
    | true =>
      simp only [if_true]
      refine Sampler.andThen_congr fun u rest' hu => ?_
      have := drawBit_done hu
      split
      · exact ih f' rest' (by omega) (by omega)
      · rfl

theorem gauss_of_positiveBinary_need {ds : List DWord} {r : DrawReq} (h : positiveBinary ds = .need r) :
    gauss c ds = .need r := Sampler.andThen_need h

section
variable {ds ws : List DWord} {x : Nat} (hx : positiveBinary ds = .done x ws)
include hx

theorem gauss_of_residue_need {r : DrawReq} (h : residue c ws = .need r) : gauss c ds = .need r :=
  (Sampler.andThen_done hx).trans (Sampler.andThen_need h)

section
variable {ds' rest : List DWord} {y : Nat} (hy : residue c ws = .done y ds')
include hy

theorem gauss_of_accept_need {r : DrawReq} (h : bernoulliExp c (acceptValue c x y) ds' = .need r) :
    gauss c ds = .need r :=
  (Sampler.andThen_done hx).trans ((Sampler.andThen_done hy).trans (Sampler.andThen_need h))

theorem gauss_of_rejected (h : bernoulliExp c (acceptValue c x y) ds' = .done false rest) :
    gauss c ds = gauss c rest := by
  have hturn : gauss c ds = gaussLoop c ds.length rest :=
    (Sampler.andThen_done hx).trans ((Sampler.andThen_done hy).trans (Sampler.andThen_done h))
  exact hturn.trans
    (gaussLoop_bound _ _ rest (length_lt_of_gauss_turn hx hy h) (Nat.lt_succ_self _))

theorem gauss_of_no_sign (h : bernoulliExp c (acceptValue c x y) ds' = .done true []) :
    gauss c ds = .need .bit :=
  (Sampler.andThen_done hx).trans ((Sampler.andThen_done hy).trans (Sampler.andThen_done h))

/-- The last bit is the sign, and half the zeros are drawn again (R256). -/
theorem gauss_of_sign {u : DWord} (h : bernoulliExp c (acceptValue c x y) ds' = .done true (u :: rest)) :
    gauss c ds = if c.ksigma * x + y = 0 ∧ u.getLsbD 0 = false then gauss c rest
      else .done (if u.getLsbD 0 then ((c.ksigma * x + y : Nat) : Int)
        else -((c.ksigma * x + y : Nat) : Int)) rest := by
  have hlen : rest.length < ds.length := Nat.lt_of_succ_lt (length_lt_of_gauss_turn hx hy h)
  have hturn : gauss c ds = (if c.ksigma * x + y = 0 ∧ u.getLsbD 0 = false then gaussLoop c ds.length
      else Sampler.ret (if u.getLsbD 0 then ((c.ksigma * x + y : Nat) : Int)
        else -((c.ksigma * x + y : Nat) : Int))) rest :=
    (Sampler.andThen_done hx).trans ((Sampler.andThen_done hy).trans (Sampler.andThen_done h))
  rw [hturn]
  split
  · exact gaussLoop_bound _ _ rest hlen (Nat.lt_succ_self _)
  · rfl

end

end

end

/-! ### The commands -/

section
variable {α : Type} {i : Instr} {s : State} {p : Sampler α} {f : α → Word}
  (hexec : exec i s = runSampler p s (intoResult0 f))
include hexec

/-- A command whose procedure is done completes with the value (40_control.md R145). -/
theorem commitsResult0_of_done {v : α} {rest : List DWord} (h : p s.run.drawn = .done v rest) :
    ∃ t, exec i s = .next t ∧ CommitsResult0 s t ∧ t.result0 = f v :=
  ⟨_, hexec.trans (runSampler_of_done h), s.commitsResult0_commitResult (f v), rfl⟩

/-- A command whose procedure needs a draw makes it (R144). -/
theorem drawsOnce_of_need {r : DrawReq} (h : p s.run.drawn = .need r) :
    ∃ t, exec i s = .next t ∧ DrawsOnce s t r :=
  ⟨_, hexec.trans (runSampler_of_need h), s.drawsOnce_draw r⟩

end

theorem toNat_boolWord (b : Bool) : (boolWord b).toNat = b.toNat := by cases b <;> rfl

theorem boolWord_decide (p : Prop) [Decidable p] : boolWord (decide p) = if p then 1 else 0 := by
  simp [boolWord]

theorem exec_smpBer_legal {s : State} {k : Kind} (hk : kindOf s.run.kind = some k)
    (hrow : s.run.a0.toNat < Config.ELL k) : exec .smpBer s =
      runSampler (bernoulli (Config.sampler k) s.run.a0.toNat) s (intoResult0 boolWord) :=
  (withKind_some hk _).trans (withArg_legal (decide_eq_true hrow) _)

end Sys2Proof.Machine
end

section
/-! CERTIFICATES. 43_sampler.md: the procedures of the sampler, and the SMP commands. -/

namespace Sys2Proof.Claims

open Sys2Proof.Machine

/-- Settles O49: COLS bytes compare with the row's as numbers, and equal ones ask for the next. -/
theorem bernoulliComparesWithTheRow : Obligations.BernoulliComparesWithTheRow := by
  refine fun c i us hcols => ⟨fun hlen => ?_, bernoulli_of_undecided⟩
  obtain ⟨rest, hdone, hrest⟩ := bernoulliFrom_of_full (c := c) (i := i) us 0
  rw [hlen, ← List.range_eq_range'] at hdone
  exact ⟨rest, hdone, by omega⟩

/-- Settles O50: all bytes but the last equal the row's, so the last decides or none does. -/
theorem smpBerComparesByteByByte : Obligations.SmpBerComparesByteByByte := by
  intro s k us hk hrow hdrawn hlen hprefix
  have hexec := exec_smpBer_legal hk hrow
  obtain rfl | ⟨us, u, rfl⟩ := List.eq_nil_or_concat' us
  · refine ⟨fun hne => absurd rfl hne, fun hlt _ => drawsOnce_of_need hexec ?_⟩
    rw [hdrawn]
    exact bernoulli_of_undecided hlt (by simp)
  · have hlength : (us ++ [u]).length = us.length + 1 := List.length_append
    have heq : ∀ j, j < us.length → us.getD j 0 = Config.CDT k s.run.a0.toNat j := fun j hj => by
      rw [← hprefix j (by omega), List.getD_append _ _ _ _ hj]
    have hlast : (us ++ [u]).getD us.length 0 = u := by simp
    rw [hlength] at hlen
    rw [hlength, Nat.add_sub_cancel, hlast]
    refine ⟨fun _ hdecides => ?_, fun hlt hequal => drawsOnce_of_need hexec ?_⟩
    · have hdone := bernoulli_of_decided (c := Config.sampler k) hlen heq hdecides
      rw [← hdrawn] at hdone
      obtain ⟨t, ht, hcommits, hv⟩ := commitsResult0_of_done hexec hdone
      exact ⟨t, ht, hcommits, hv.trans (boolWord_decide _)⟩
    · rw [hdrawn]
      refine bernoulli_of_undecided (hlength ▸ hlt) fun j hj => ?_
      rw [hlength, Nat.lt_succ_iff_lt_or_eq] at hj
      obtain hj | rfl := hj
      · exact hprefix j (by omega)
      · exact hlast.trans (hequal.resolve_left (by simp))

/-- Settles O52: a turn of R254's loop by the outcomes of its compares and its coin. -/
theorem bernoulliCoshLoop : Obligations.BernoulliCoshLoop := by
  intro c x xx ds hxx
  obtain rfl := eq_coshArg hxx
  refine ⟨bernoulliCosh_neg c x, fun _ => bernoulliCosh_of_need, fun _ => bernoulliCosh_of_true,
    bernoulliCosh_of_no_coin, fun _ _ => bernoulliCosh_of_heads, fun u rest rest' h hu => ?_⟩
  rw [bernoulliCosh_of_tails h hu]
  exact ⟨fun _ => Sampler.andThen_need, Sampler.andThen_done, Sampler.andThen_done⟩

/-- Settles O53: group i is reached by ones, and decides by its value. -/
theorem positiveBinaryPatterns : Obligations.PositiveBinaryPatterns := by
  refine ⟨rfl, fun ds u i => ⟨rfl, fun h1 h16 => ⟨?_, ?_, fun h0 hone => ?_⟩, ?_,
    yields_positiveBinary ds⟩⟩
  · refine positiveBinary_of_need ?_
    rw [← List.append_nil (List.replicate _ _), posGroups_reach h1 h16, posGroups_nil h1]
  · refine positiveBinary_of_value ?_
    rw [posGroups_reach h1 h16, posGroups_cons h1, if_pos (by decide)]
  · refine positiveBinary_of_restart ?_
    rw [posGroups_reach h1 h16, posGroups_cons h1, if_neg h0, if_neg hone]
  · exact positiveBinary_of_value (posGroups_ones (Nat.le_refl 1) 16 0 ds)

/-- Settles O54: a turn of R256's loop by the outcomes of the procedures it calls. -/
theorem gaussCombinesItsDraws : Obligations.GaussCombinesItsDraws := by
  refine ⟨fun c ds rest z => yields_gauss c ds z rest,
    fun c ds => ⟨fun r => gauss_of_positiveBinary_need, fun x ws hx hb hrs =>
      gauss_of_residue_need hx (residue_of_rejects hb hrs)⟩,
    fun c x y u ds ws ds' rest hks hx hres => ?_⟩
  have hy := residue_of_residueIs hks hres
  refine ⟨fun r => gauss_of_accept_need hx hy, gauss_of_rejected hx hy, gauss_of_no_sign hx hy, fun h => ?_⟩
  rw [gauss_of_sign hx hy h]
  refine ⟨fun hz hu => if_pos ⟨hz, hu⟩, fun hu => ?_, fun hz hu => ?_⟩
  · rw [if_neg fun h0 => absurd (hu.symm.trans h0.2) (by decide), if_pos hu]
  · rw [if_neg fun h0 => hz h0.1, if_neg (Bool.eq_false_iff.1 hu)]

/-- Settles O55: each command is the step of its procedure. -/
theorem samplerCommandsCommitTheirProcedure : Obligations.SamplerCommandsCommitTheirProcedure := by
  intro s k hk
  have hgauss : exec .smpGauss1 s = runSampler (gauss (Config.sampler k)) s (intoResult0 sampleWord) :=
    withKind_some hk _
  have hposbin : exec .smpPosbin s = runSampler positiveBinary s (intoResult0 (BitVec.ofNat 32)) :=
    withKind_some hk _
  have hberexp : exec .smpBerexp s =
      runSampler (bernoulliExp (Config.sampler k) s.run.a0) s (intoResult0 boolWord) := withKind_some hk _
  have hbercosh : exec .smpBercosh s =
      runSampler (bernoulliCosh (Config.sampler k) s.run.a0) s (intoResult0 boolWord) := withKind_some hk _
  refine ⟨fun z rest => commitsResult0_of_done hgauss, fun v rest h => ?_, fun b rest h => ?_,
    fun b rest h => ?_, fun r => drawsOnce_of_need hgauss, fun r => drawsOnce_of_need hposbin,
    fun r => drawsOnce_of_need hberexp, fun r => drawsOnce_of_need hbercosh⟩
  · obtain ⟨t, ht, hcommits, hv⟩ := commitsResult0_of_done hposbin h
    have hle := yields_positiveBinary _ _ _ h
    exact ⟨t, ht, hcommits, by rw [hv, BitVec.toNat_ofNat]; omega⟩
  · obtain ⟨t, ht, hcommits, hb⟩ := commitsResult0_of_done hberexp h
    exact ⟨t, ht, hcommits, by rw [hb, toNat_boolWord]⟩
  · obtain ⟨t, ht, hcommits, hb⟩ := commitsResult0_of_done hbercosh h
    exact ⟨t, ht, hcommits, by rw [hb, toNat_boolWord]⟩

/-- Settles O56: the n-th sample completes the bank, an earlier one is kept. -/
theorem smpGaussFillsTheBank : Obligations.SmpGaussFillsTheBank := by
  refine fun d s k hk => ⟨fun r hneed => ⟨_, exec_smpGauss_of_need hk hneed, s.drawsOnce_draw r⟩,
    fun z rest hdone => ⟨fun hlast => ?_, fun hmore => ?_⟩⟩
  · have hlen : (s.run.pending ++ [sampleWord z]).length = Config.N k := by simpa using hlast
    refine ⟨_, exec_smpGauss_of_last hk hdone (by omega), fun i hi => ?_, s.commitsBank_commitBank d hlen false⟩
    rw [← hlen] at hi
    exact (State.bankWord?_writeBank hi).trans (List.getElem?_eq_getElem hi).symm
  · exact ⟨_, exec_smpGauss_of_sample hk hdone hmore, s.keepsSample_nextSample _⟩

end Sys2Proof.Claims
end

section
/-! SUPPORT. The stream as a number and as bits (44_huffman.md R303, R311): its codewords from the first on, the
bytes of CODEBUF that hold it, and the bits the decoder reads from them. -/

namespace Sys2Proof.Machine

open Sys2Proof.Claims

/-! ### The stream number -/

theorem codeLength_shift (es : Nat → CodeEntry) (lo hi : Nat) :
    codeLength es (lo + 1) (hi + 1) = codeLength (fun j => es (j + 1)) lo hi :=
  (Finset.sum_Ico_add' (fun i => (es i).len) lo hi 1).symm

theorem codeLength_succ_first (es : Nat → CodeEntry) (c : Nat) :
    codeLength es 0 (c + 1) = (es 0).len + codeLength (fun j => es (j + 1)) 0 c := by
  rw [← codeLength_shift, codeLength, Finset.sum_eq_sum_Ico_succ_bot (Nat.succ_pos c)]
  rfl

/-- The first codeword stands above the stream of the others (R303). -/
theorem streamNumber_succ_first (es : Nat → CodeEntry) (c : Nat) :
    streamNumber es (c + 1) = (es 0).value * 2 ^ codeLength (fun j => es (j + 1)) 0 c +
      streamNumber (fun j => es (j + 1)) c := by
  rw [streamNumber, Finset.sum_range_succ', add_comm]
  simp only [codeLength_shift, streamNumber]

theorem streamNumber_lt {es : Nat → CodeEntry} {c : Nat} (h : ∀ j, j < c → (es j).value < 2 ^ (es j).len) :
    streamNumber es c < 2 ^ codeLength es 0 c := by
  induction c with
  | zero => simp [streamNumber, codeLength]
  | succ c ih =>
    have hlast := h c (Nat.lt_succ_self c)
    have hinit := ih fun j hj => h j (Nat.lt_succ_of_lt hj)
    rw [streamNumber_succ, codeLength_succ es (Nat.zero_le c), Nat.pow_add]
    calc streamNumber es c * 2 ^ (es c).len + (es c).value
        < (streamNumber es c + 1) * 2 ^ (es c).len := by rw [Nat.succ_mul]; omega
      _ ≤ 2 ^ codeLength es 0 c * 2 ^ (es c).len := Nat.mul_le_mul_right _ hinit

/-- The stream's bytes spell the stream (R303): as many base-256 digits as its length needs. -/
theorem codeNumber_streamBytes {x len : Nat} (h : x < 2 ^ len) :
    codeNumber (fun j => BitVec.ofNat 8 (x / 2 ^ (8 * j) % 256)) len = x := by
  have hdigits (n : Nat) : (∑ j ∈ Finset.range n,
      (BitVec.ofNat 8 (x / 2 ^ (8 * j) % 256)).toNat * 256 ^ j) = x % 256 ^ n := by
    induction n with
    | zero => simp [Nat.mod_one]
    | succ n ih =>
      rw [Finset.sum_range_succ, ih, Nat.mod_pow_succ, BitVec.toNat_ofNat, Nat.mod_mod, Nat.pow_mul,
        Nat.mul_comm (256 ^ n)]
  rw [codeNumber, hdigits]
  refine Nat.mod_eq_of_lt (Nat.lt_of_lt_of_le h ?_)
  rw [show 256 = 2 ^ 8 from rfl, ← Nat.pow_mul]
  exact Nat.pow_le_pow_right (by omega) (by omega)

/-! ### Bits, most significant first -/

/-- A bit sequence read most significant bit first. -/
def bitsNumber : List Bool → Nat
  | [] => 0
  | b :: bits => b.toNat * 2 ^ bits.length + bitsNumber bits

theorem bitsNumber_lt (bits : List Bool) : bitsNumber bits < 2 ^ bits.length := by
  induction bits with
  | nil => decide
  | cons b bits ih =>
    rw [bitsNumber, List.length_cons, Nat.pow_succ]
    cases b <;> simp <;> omega

theorem bitsNumber_append (xs ys : List Bool) :
    bitsNumber (xs ++ ys) = bitsNumber xs * 2 ^ ys.length + bitsNumber ys := by
  induction xs with
  | nil => simp [bitsNumber]
  | cons b xs ih =>
    rw [List.cons_append, bitsNumber, ih, bitsNumber, List.length_append, Nat.pow_add]
    ring

theorem bitsNumber_drop (bits : List Bool) (n : Nat) :
    bitsNumber (bits.drop n) = bitsNumber bits % 2 ^ (bits.length - n) := by
  have hsplit := bitsNumber_append (bits.take n) (bits.drop n)
  have hlt := bitsNumber_lt (bits.drop n)
  rw [List.take_append_drop, List.length_drop] at hsplit
  rw [List.length_drop] at hlt
  rw [hsplit, Nat.mul_comm, Nat.mul_add_mod, Nat.mod_eq_of_lt hlt]

@[simp] theorem byteBits_length (b : Byte) : (byteBits b).length = 8 := rfl

theorem bitsNumber_byteBits (b : Byte) : bitsNumber (byteBits b) = b.toNat := by
  revert b
  decide

/-- The bytes of CODEBUF from the last to the first, as the decoder reads them: their bits and the number they
spell (R311). -/
theorem bits_of_code (code : Nat → Byte) (n : Nat) :
    ((((List.range n).map code).reverse.flatMap byteBits).length = 8 * n) ∧
      bitsNumber (((List.range n).map code).reverse.flatMap byteBits) =
        ∑ j ∈ Finset.range n, (code j).toNat * 256 ^ j := by
  induction n with
  | zero => exact ⟨rfl, rfl⟩
  | succ n ih =>
    obtain ⟨hlen, hnum⟩ := ih
    rw [List.range_succ, List.map_append, List.reverse_append]
    simp only [List.map_cons, List.map_nil, List.reverse_singleton, List.singleton_append, List.flatMap_cons]
    rw [List.length_append, bitsNumber_append, hlen, hnum, byteBits_length, bitsNumber_byteBits,
      Finset.sum_range_succ, Nat.pow_mul]
    exact ⟨by omega, Nat.add_comm _ _⟩

/-- The L bits after the pad of a stream in the bytes `code` (R311). -/
def bitsAfterPad (code : Nat → Byte) (len : Nat) : List Bool :=
  streamBits ((List.range (streamBytes len)).map code) len

/-- They are L bits and spell CODEBUF's number below 2^L (R303, R311). -/
theorem bitsAfterPad_spec (code : Nat → Byte) (len : Nat) : (bitsAfterPad code len).length = len ∧
    bitsNumber (bitsAfterPad code len) = codeNumber code len % 2 ^ len := by
  obtain ⟨hlen, hnum⟩ := bits_of_code code (streamBytes len)
  have hpad : 8 * streamBytes len - (8 * streamBytes len - len) = len := by
    unfold streamBytes
    omega
  rw [bitsAfterPad, streamBits, List.length_map, List.length_range, List.length_drop, bitsNumber_drop, hlen,
    hnum, hpad]
  exact ⟨rfl, rfl⟩

end Sys2Proof.Machine
end

section
/-! SUPPORT. The codebook's search and the decoder's walk (44_huffman.md R301, R311): what the walk accepts and
what it gives. -/

namespace Sys2Proof.Machine

open Sys2Proof.Claims

/-! ### The codebook -/

theorem CodeEntry.begins_iff {e f : CodeEntry} :
    e.begins f = true ↔ e.len ≤ f.len ∧ f.value / 2 ^ (f.len - e.len) = e.value := by
  simp [CodeEntry.begins]

/-- No codeword of a valid codebook begins another one (R301). -/
theorem eq_of_begins {book : List CodeEntry} (hbook : codebookValid book = true) {e f : CodeEntry}
    (he : e ∈ book) (hf : f ∈ book) (h : e.begins f = true) : e = f := by
  induction book with
  | nil => cases he
  | cons g rest ih =>
    simp only [codebookValid, Bool.and_eq_true, List.all_eq_true, CodeEntry.compatible,
      Bool.not_eq_true'] at hbook
    obtain ⟨⟨_, hcompat⟩, hrest⟩ := hbook
    rcases List.mem_cons.1 he with rfl | he'
    · rcases List.mem_cons.1 hf with rfl | hf'
      · rfl
      · obtain ⟨⟨_, hno⟩, _⟩ := hcompat f hf'
        exact absurd h (by simp [hno])
    · rcases List.mem_cons.1 hf with rfl | hf'
      · obtain ⟨_, hno⟩ := hcompat e he'
        exact absurd h (by simp [hno])
      · exact ih hrest he' hf'

theorem entryOfCode_some {book : List CodeEntry} {v l : Nat} {e : CodeEntry}
    (h : entryOfCode book v l = some e) : e ∈ book ∧ e.value = v ∧ e.len = l := by
  have hcode := List.find?_some h
  simp only [Bool.and_eq_true, decide_eq_true_eq] at hcode
  exact ⟨List.mem_of_find?_eq_some h, hcode⟩

section
variable {book : List CodeEntry} (hbook : codebookValid book = true) {e : CodeEntry} (he : e ∈ book)
include hbook he

/-- A whole codeword finds its entry (R311). -/
theorem entryOfCode_of_mem : entryOfCode book e.value e.len = some e := by
  obtain ⟨f, hf⟩ : ∃ f, entryOfCode book e.value e.len = some f :=
    Option.isSome_iff_exists.1 (List.find?_isSome.2 ⟨e, he, by simp⟩)
  obtain ⟨hmem, hv, hl⟩ := entryOfCode_some hf
  rw [hf, eq_of_begins hbook hmem he (CodeEntry.begins_iff.2 (by simp [hv, hl]))]

/-- A proper beginning of a codeword is no codeword (R301, R311). -/
theorem entryOfCode_of_beginning {l : Nat} (hl : l < e.len) :
    entryOfCode book (e.value / 2 ^ (e.len - l)) l = none := by
  refine Option.eq_none_iff_forall_ne_some.2 fun f hf => ?_
  obtain ⟨hmem, hv, hl'⟩ := entryOfCode_some hf
  subst hl'
  rw [eq_of_begins hbook hmem he (CodeEntry.begins_iff.2 ⟨Nat.le_of_lt hl, hv.symm⟩)] at hl
  exact absurd hl (Nat.lt_irrefl _)

end

theorem codeContinues_of_beginning {book : List CodeEntry} {e : CodeEntry} (he : e ∈ book) {l : Nat}
    (hl : l < e.len) : codeContinues book (e.value / 2 ^ (e.len - l)) l = true :=
  List.any_eq_true.2 ⟨e, he, by simp [hl]⟩

/-! ### What is left to read -/

/-- The part (v, l) of a codeword read so far, followed by `bits`, is the codewords of `es 0` to
`es (left - 1)`, each an entry with a byte: what R311's walk accepts from there. -/
structure Reads (book : List CodeEntry) (es : Nat → CodeEntry) (left v l : Nat) (bits : List Bool) : Prop where
  entry : ∀ j, j < left → es j ∈ book ∧ pairHasByte (es j).hi (es j).z2 = true
  length : l + bits.length = codeLength es 0 left
  number : v * 2 ^ bits.length + bitsNumber bits = streamNumber es left

theorem reads_bit {book : List CodeEntry} {es : Nat → CodeEntry} {left v l : Nat} {b : Bool}
    {bits : List Bool} :
    Reads book es left v l (b :: bits) ↔ Reads book es left (2 * v + b.toNat) (l + 1) bits := by
  have hlen : l + (b :: bits).length = l + 1 + bits.length := by rw [List.length_cons]; omega
  have hnum : v * 2 ^ (b :: bits).length + bitsNumber (b :: bits) =
      (2 * v + b.toNat) * 2 ^ bits.length + bitsNumber bits := by
    rw [bitsNumber, List.length_cons, Nat.pow_succ]
    ring
  constructor
  · rintro ⟨hentry, hl, hv⟩
    exact ⟨hentry, hlen ▸ hl, hnum ▸ hv⟩
  · rintro ⟨hentry, hl, hv⟩
    exact ⟨hentry, hlen ▸ hl, hnum ▸ hv⟩

/-- With the first codeword read whole, what is left are the others. -/
theorem reads_codeword {book : List CodeEntry} {es : Nat → CodeEntry} {left : Nat} {bits : List Bool} :
    Reads book es (left + 1) (es 0).value (es 0).len bits ↔
      (es 0 ∈ book ∧ pairHasByte (es 0).hi (es 0).z2 = true) ∧
        Reads book (fun j => es (j + 1)) left 0 0 bits := by
  constructor
  · rintro ⟨hentry, hlen, hnum⟩
    rw [codeLength_succ_first] at hlen
    have hrest : bits.length = codeLength (fun j => es (j + 1)) 0 left := Nat.add_left_cancel hlen
    rw [streamNumber_succ_first, ← hrest] at hnum
    exact ⟨hentry 0 (Nat.succ_pos _), fun j hj => hentry (j + 1) (Nat.succ_lt_succ hj),
      by rw [Nat.zero_add, hrest], by rw [Nat.zero_mul, Nat.zero_add, Nat.add_left_cancel hnum]⟩
  · rintro ⟨hfirst, hentry, hlen, hnum⟩
    rw [Nat.zero_add] at hlen
    rw [Nat.zero_mul, Nat.zero_add] at hnum
    refine ⟨fun j hj => ?_, by rw [codeLength_succ_first, hlen],
      by rw [streamNumber_succ_first, hlen, hnum]⟩
    cases j with
    | zero => exact hfirst
    | succ j => exact hentry j (Nat.lt_of_succ_lt_succ hj)

/-- What is read of a codeword is its beginning. -/
theorem Reads.beginning {book : List CodeEntry} (hbook : codebookValid book = true) {es : Nat → CodeEntry}
    {left v l : Nat} {bits : List Bool} (h : Reads book es (left + 1) v l bits) (hl : l ≤ (es 0).len) :
    v = (es 0).value / 2 ^ ((es 0).len - l) := by
  obtain ⟨hentry, hlen, hnum⟩ := h
  have hrest : streamNumber (fun j => es (j + 1)) left < 2 ^ codeLength (fun j => es (j + 1)) 0 left :=
    streamNumber_lt fun j hj => (codebookValid_entry hbook (hentry (j + 1) (Nat.succ_lt_succ hj)).1).2.2
  rw [codeLength_succ_first] at hlen
  rw [streamNumber_succ_first] at hnum
  generalize codeLength (fun j => es (j + 1)) 0 left = R at *
  have hbits : bits.length = R + ((es 0).len - l) := by omega
  calc v = (v * 2 ^ bits.length + bitsNumber bits) / 2 ^ bits.length := by
        rw [Nat.mul_comm, Nat.mul_add_div (by positivity), Nat.div_eq_of_lt (bitsNumber_lt bits), Nat.add_zero]
    _ = _ := by
        rw [hnum, hbits, Nat.pow_add, ← Nat.div_div_eq_div_mul, Nat.mul_comm (es 0).value,
          Nat.mul_add_div (by positivity), Nat.div_eq_of_lt hrest, Nat.add_zero]

/-! ### The walk -/

/-- The canonical bytes of the first n entries (R300, R311). -/
def canonBytes (es : Nat → CodeEntry) (n : Nat) : List Byte :=
  (List.range n).map fun j => canonByte (es j).hi (es j).z2

theorem canonBytes_succ (es : Nat → CodeEntry) (n : Nat) :
    canonBytes es (n + 1) = canonByte (es 0).hi (es 0).z2 :: canonBytes (fun j => es (j + 1)) n := by
  simp [canonBytes, List.range_succ_eq_map, Function.comp_def]

section
variable {book : List CodeEntry} {left v l : Nat} {b : Bool} {bits : List Bool} {out : List Byte}

/-! One bit of the walk (R311): it completes a codeword, whose pair has a byte, or it begins one. -/

theorem decodeBits_codeword {e : CodeEntry} (h : entryOfCode book (2 * v + b.toNat) (l + 1) = some e)
    (hb : pairHasByte e.hi e.z2 = true) : decodeBits book (b :: bits) (left + 1) v l out =
      decodeBits book bits left 0 0 (out ++ [canonByte e.hi e.z2]) := by
  simp only [decodeBits, h, hb, if_true]

theorem decodeBits_beginning (h : entryOfCode book (2 * v + b.toNat) (l + 1) = none)
    (hc : codeContinues book (2 * v + b.toNat) (l + 1) = true) :
    decodeBits book (b :: bits) (left + 1) v l out =
      decodeBits book bits (left + 1) (2 * v + b.toNat) (l + 1) out := by
  simp only [decodeBits, h, hc, if_true]

theorem decodeBits_bit_some {res : List Byte} (h : decodeBits book (b :: bits) (left + 1) v l out = some res) :
    (∃ e, entryOfCode book (2 * v + b.toNat) (l + 1) = some e ∧ pairHasByte e.hi e.z2 = true ∧
      decodeBits book bits left 0 0 (out ++ [canonByte e.hi e.z2]) = some res) ∨
    decodeBits book bits (left + 1) (2 * v + b.toNat) (l + 1) out = some res := by
  simp only [decodeBits] at h
  split at h
  next e he =>
    split at h
    next hb => exact .inl ⟨e, he, hb, h⟩
    next => cases h
  next =>
    split at h
    next => exact .inr h
    next => cases h

end

/-- The walk reads codewords that are there, whatever part of the first it has read (R311). -/
theorem decodeBits_of_reads {book : List CodeEntry} (hbook : codebookValid book = true) {bits : List Bool}
    {es : Nat → CodeEntry} {left v l : Nat} (h : Reads book es left v l bits)
    (hl : 0 < left → l < (es 0).len) (out : List Byte) :
    decodeBits book bits left v l out = some (out ++ canonBytes es left) := by
  induction bits generalizing es left v l out with
  | nil =>
    cases left with
    | zero => simp [decodeBits, canonBytes]
    | succ left =>
      have hlen := h.length
      rw [codeLength_succ_first, List.length_nil] at hlen
      exact absurd (hl (Nat.succ_pos _)) (by omega)
  | cons b bits ih =>
    cases left with
    | zero => exact absurd h.length (by simp [codeLength])
    | succ left =>
      obtain ⟨hmem, hbyte⟩ := h.entry 0 (Nat.succ_pos _)
      have hl := hl (Nat.succ_pos _)
      rw [reads_bit] at h
      have hv := h.beginning hbook hl
      obtain hlt | hwhole := Nat.lt_or_eq_of_le (Nat.succ_le_of_lt hl)
      · rw [decodeBits_beginning (by rw [hv]; exact entryOfCode_of_beginning hbook hmem hlt)
          (by rw [hv]; exact codeContinues_of_beginning hmem hlt)]
        exact ih h (fun _ => hlt) out
      · replace hwhole : l + 1 = (es 0).len := hwhole
        rw [hwhole, Nat.sub_self, Nat.pow_zero, Nat.div_one] at hv
        rw [hv, hwhole, reads_codeword] at h
        obtain ⟨_, hrest⟩ := h
        rw [decodeBits_codeword (by rw [hv, hwhole]; exact entryOfCode_of_mem hbook hmem) hbyte,
          ih hrest (fun hpos => (codebookValid_entry hbook (hrest.entry 0 hpos).1).1), canonBytes_succ,
          List.append_assoc, List.singleton_append]

/-- The entry e before the entries es. -/
def entriesCons (e : CodeEntry) (es : Nat → CodeEntry) : Nat → CodeEntry
  | 0 => e
  | j + 1 => es j

/-- What the walk accepts is codewords of entries with a byte (R311). -/
theorem reads_of_decodeBits {book : List CodeEntry} {bits : List Bool} {left v l : Nat} {out res : List Byte}
    (h : decodeBits book bits left v l out = some res) (hstart : left = 0 → v = 0 ∧ l = 0) :
    ∃ es, Reads book es left v l bits := by
  induction bits generalizing left v l out with
  | nil =>
    rw [decodeBits] at h
    split at h
    next h0 =>
      obtain ⟨rfl, rfl⟩ := hstart h0
      subst h0
      exact ⟨fun _ => ⟨0, 0, 0, 0⟩, nofun, rfl, rfl⟩
    next => cases h
  | cons b bits ih =>
    cases left with
    | zero => cases h
    | succ left =>
      obtain ⟨e, he, hbyte, h⟩ | h := decodeBits_bit_some h
      · obtain ⟨hmem, hv, hl⟩ := entryOfCode_some he
        obtain ⟨es, hrest⟩ := ih h fun _ => ⟨rfl, rfl⟩
        refine ⟨entriesCons e es, reads_bit.2 ?_⟩
        rw [← hv, ← hl]
        exact reads_codeword.2 ⟨⟨hmem, hbyte⟩, hrest⟩
      · obtain ⟨es, hrest⟩ := ih h nofun
        exact ⟨es, reads_bit.2 hrest⟩

end Sys2Proof.Machine
end

section
/-! SUPPORT. The HUF commands as completions (44_huffman.md R310, R311): what the encoder and the decoder do on
written symbols and on a written stream. -/

namespace Sys2Proof.Machine

open Sys2Proof.Claims

/-! ### The commands on their kind's codec -/

theorem admitted_codec (k : Kind) : Admitted (Config.codec k) := ⟨HUFF_valid k, N_le k, LMAX_le k⟩

section
variable {s : State} {k : Kind} (hk : kindOf s.run.kind = some k)
include hk

theorem exec_hufEnc : exec .hufEnc s = hufEnc (Config.codec k) s := withKind_some hk _

theorem exec_hufDec : exec .hufDec s = hufDec (Config.codec k) s := withKind_some hk _

end

/-! ### Symbols -/

theorem pairHasByte_iff {hi z2 : Int} :
    pairHasByte hi z2 = true ↔ 0 ≤ hi ∧ hi ≤ 15 ∧ -7 ≤ z2 ∧ z2 ≤ 7 := by
  simp [pairHasByte, and_assoc]

/-- The canonical byte of a pair, as R300 writes it on numbers. -/
theorem toNat_canonByte {hi z2 : Int} (h : pairHasByte hi z2 = true) :
    ((canonByte hi z2).toNat : Int) = canonNumber hi z2 := by
  rw [pairHasByte_iff] at h
  simp only [canonByte, canonNumber, BitVec.toNat_ofInt, ge_iff_le]
  split <;> omega

/-- The pair of a byte has a byte (R300). -/
theorem pairHasByte_of_encodes {book : List CodeEntry} {b : Byte} {e : CodeEntry} (h : Encodes book b e) :
    pairHasByte e.hi e.z2 = true := by
  obtain ⟨_, hpair⟩ := h
  rw [pairOf, Prod.mk.injEq] at hpair
  obtain ⟨hhi, hz2⟩ := hpair
  have := b.isLt
  rw [pairHasByte_iff, hhi, hz2]
  split <;> omega

theorem entryOfByte_of_unencodable {book : List CodeEntry} {b : Byte} (h : Unencodable book b) :
    entryOfByte book b = none := by
  refine List.find?_eq_none.2 fun e he hsym => h e ⟨he, ?_⟩
  simp only [Bool.and_eq_true, decide_eq_true_eq] at hsym
  rw [← symbol_eq_pairOf, hsym.1, hsym.2]

/-! ### The encoder -/

/-- The completion that writes the stream number x of `len` bits. -/
def State.commitStream (s : State) (x len : Nat) : State := s.commitCode (streamOf x len) (BitVec.ofNat 32 len)

theorem State.commitStream_code (s : State) (x : Nat) {len j : Nat} (hj : j < (len + 7) / 8) :
    (s.commitStream x len).code? j = some (BitVec.ofNat 8 (x / 2 ^ (8 * j) % 256)) := by
  have hj' : j < (streamOf x len).length := by rwa [streamOf_length]
  refine (Memory.byte?_write_inside hj').trans (congrArg some ?_)
  simp [streamOf, Nat.shiftRight_eq_div_pow, ← BitVec.toNat_inj]

theorem State.commitStream_memory (s : State) (x len : Nat) :
    MemoryKeptOutside s (s.commitStream x len) 0x0C00 ((len + 7) / 8) := fun a ha =>
  Memory.byte?_write_outside (by rw [streamOf_length]; exact ha)

section
variable {c : CodecParams} {s : State} {b : Nat → Byte} {es : Nat → CodeEntry} (hc : Admitted c)
  (hn : s.run.a0.toNat ≤ c.n)
include hc hn

theorem hufEnc_of_stream (h1 : 1 ≤ s.run.a0.toNat)
    (hsym : ∀ j, j < s.run.a0.toNat → s.sym? j = some (b j) ∧ Encodes c.book (b j) (es j))
    (hfit : codeLength es 0 s.run.a0.toNat ≤ c.lmax) : hufEnc c s =
      .next (s.commitStream (streamNumber es s.run.a0.toNat) (codeLength es 0 s.run.a0.toNat)) := by
  obtain ⟨hbook, _⟩ := hc
  rw [hufEnc, withArg_legal (by simp [h1, hn]), encodeFrom_after_symbols hbook le_rfl hsym hfit, Nat.sub_self]
  rfl

section
variable {m : Nat} (hm : m < s.run.a0.toNat)
  (hsym : ∀ j, j < m → s.sym? j = some (b j) ∧ Encodes c.book (b j) (es j))
  (hfit : codeLength es 0 m ≤ c.lmax) (hb : s.sym? m = some (b m))
include hm hsym hfit

/-- On symbols that have an entry and fit, the encoder is decided by what it does at the next one (R310). -/
theorem hufEnc_of_failed {e : ErrCode}
    (hfail : encodeFrom c.book c.lmax s.sym? (s.run.a0.toNat - (m + 1) + 1) m (streamNumber es m)
      (codeLength es 0 m) = .failed e) : hufEnc c s = .next (s.fail e) := by
  obtain ⟨hbook, _⟩ := hc
  have h1 : 1 ≤ s.run.a0.toNat := by omega
  rw [hufEnc, withArg_legal (by simp [h1, hn]), encodeFrom_after_symbols hbook (Nat.le_of_lt hm) hsym hfit,
    show s.run.a0.toNat - m = s.run.a0.toNat - (m + 1) + 1 by omega, hfail]

include hb

theorem hufEnc_of_unencodable (hno : Unencodable c.book (b m)) : hufEnc c s = .next (s.fail .symbol) := by
  refine hufEnc_of_failed hc hn hm hsym hfit ?_
  rw [encodeFrom, hb]
  simp only [entryOfByte_of_unencodable hno]

theorem hufEnc_of_overflow (henc : Encodes c.book (b m) (es m)) (hlong : c.lmax < codeLength es 0 (m + 1)) :
    hufEnc c s = .next (s.fail .overflow) := by
  rw [codeLength_succ es (Nat.zero_le m)] at hlong
  refine hufEnc_of_failed hc hn hm hsym hfit ?_
  rw [encodeFrom, hb]
  simp only [entryOfByte_of_encodes hc.1 henc]
  exact if_pos hlong

end

end

/-- A count outside its range ends the encoder in an error (R310). -/
theorem hufEnc_of_illegal {c : CodecParams} {s : State} (h : ¬ (1 ≤ s.run.a0.toNat ∧ s.run.a0.toNat ≤ c.n)) :
    hufEnc c s = .next (s.fail .arg) := by
  rw [hufEnc, withArg, if_neg (by simpa using h)]

/-! ### The decoder -/

/-- R311's stream is what the walk reads from its start. -/
theorem isStream_iff_reads {book : List CodeEntry} {code : Nat → Byte} {len count : Nat}
    {es : Nat → CodeEntry} : IsStream book code len count es ↔
      Reads book es count 0 0 (bitsAfterPad code len) := by
  obtain ⟨hlen, hnum⟩ := bitsAfterPad_spec code len
  constructor
  · rintro ⟨hentry, hl, hx⟩
    exact ⟨fun j hj => ⟨(hentry j hj).1, pairHasByte_iff.2 (hentry j hj).2⟩, by omega,
      by rw [hnum, hx, Nat.zero_mul, Nat.zero_add]⟩
  · rintro ⟨hentry, hl, hx⟩
    rw [hnum, Nat.zero_mul, Nat.zero_add] at hx
    exact ⟨fun j hj => ⟨(hentry j hj).1, pairHasByte_iff.1 (hentry j hj).2⟩, by omega, hx⟩

/-- The completion that writes the canonical bytes of the first n entries. -/
def State.commitSymbols (s : State) (es : Nat → CodeEntry) (n : Nat) : State := s.commitSym (canonBytes es n)

@[simp] theorem canonBytes_length (es : Nat → CodeEntry) (n : Nat) : (canonBytes es n).length = n := by
  simp [canonBytes]

theorem State.commitSymbols_sym (s : State) (es : Nat → CodeEntry) {n j : Nat} (hj : j < n) :
    (s.commitSymbols es n).sym? j = some (canonByte (es j).hi (es j).z2) := by
  have hj' : j < (canonBytes es n).length := by rwa [canonBytes_length]
  refine (Memory.byte?_write_inside hj').trans (congrArg some ?_)
  simp [canonBytes]

theorem State.commitSymbols_memory (s : State) (es : Nat → CodeEntry) (n : Nat) :
    MemoryKeptOutside s (s.commitSymbols es n) 0x0800 n := fun a ha =>
  Memory.byte?_write_outside (by rw [canonBytes_length]; exact ha)

theorem State.readCode_of_written {s : State} {code : Nat → Byte} {len : Nat}
    (h : ∀ j, j < (len + 7) / 8 → s.code? j = some (code j)) :
    s.readCode (streamBytes len) = some ((List.range (streamBytes len)).map code) :=
  State.readCode_eq_some.2 ⟨by simp, fun j hj => (h j hj).trans (by simp [hj])⟩

section
variable {c : CodecParams} {s : State} {code : Nat → Byte} (hl : s.run.a0.toNat ≤ c.lmax)
  (h1 : 1 ≤ s.run.a1.toNat) (hn : s.run.a1.toNat ≤ c.n)
  (hcode : ∀ j, j < (s.run.a0.toNat + 7) / 8 → s.code? j = some (code j))
include hl h1 hn hcode

/-- On the codewords of `count` entries with a byte, the decoder writes their canonical bytes (R311). -/
theorem hufDec_of_isStream (hbook : codebookValid c.book = true) {es : Nat → CodeEntry}
    (h : IsStream c.book code s.run.a0.toNat s.run.a1.toNat es) :
    hufDec c s = .next (s.commitSymbols es s.run.a1.toNat) := by
  have hreads := isStream_iff_reads.1 h
  have hwalk := decodeBits_of_reads hbook hreads
    (fun hpos => (codebookValid_entry hbook (hreads.entry 0 hpos).1).1) []
  rw [bitsAfterPad] at hwalk
  rw [hufDec, withArg_legal (by simp [hl, h1, hn]), State.readCode_of_written hcode]
  simp only [hwalk]
  rfl

/-- On any other bits, the decoder finds the stream corrupt (R311). -/
theorem hufDec_of_not_isStream (h : ¬ ∃ es, IsStream c.book code s.run.a0.toNat s.run.a1.toNat es) :
    hufDec c s = .next (s.fail .corrupt) := by
  have hwalk : decodeBits c.book (bitsAfterPad code s.run.a0.toNat) s.run.a1.toNat 0 0 [] = none := by
    refine Option.eq_none_iff_forall_ne_some.2 fun out hout => h ?_
    obtain ⟨es, hreads⟩ := reads_of_decodeBits hout fun _ => ⟨rfl, rfl⟩
    exact ⟨es, isStream_iff_reads.2 hreads⟩
  rw [bitsAfterPad] at hwalk
  rw [hufDec, withArg_legal (by simp [hl, h1, hn]), State.readCode_of_written hcode]
  simp only [hwalk]

end

end Sys2Proof.Machine
end

section
/-! CERTIFICATES. 44_huffman.md: what HUF.ENC writes, what HUF.DEC reads, and the round trip. -/

namespace Sys2Proof.Claims

open Sys2Proof.Machine

theorem hufEnc_writesTheStream {c : CodecParams} (hc : Admitted c) (s : State) :
    WritesTheStream c (hufEnc c) s := by
  constructor
  · intro b es h1 hn hsym hfit
    have hlen : (BitVec.ofNat 32 (codeLength es 0 s.run.a0.toNat)).toNat = codeLength es 0 s.run.a0.toNat :=
      Nat.mod_eq_of_lt (by obtain ⟨_, _, hlmax⟩ := hc; omega)
    exact ⟨_, hufEnc_of_stream hc hn h1 hsym hfit, hlen, fun j => s.commitStream_code _,
      s.commitStream_memory _ _, State.completes_commit rfl, rfl, rfl, rfl⟩
  · intro m b es hm hn hsym hfit hb
    exact ⟨fun hno => ⟨_, hufEnc_of_unencodable hc hn hm hsym hfit hb hno, s.failsWith_fail .symbol⟩,
      fun henc hlong => ⟨_, hufEnc_of_overflow hc hn hm hsym hfit hb henc hlong, s.failsWith_fail .overflow⟩⟩

/-- Settles O58: the command is the encoder on its kind's codec, whose codebook and limits R301 and R302 allow. -/
theorem hufEncWritesTheStream : Obligations.HufEncWritesTheStream := by
  refine ⟨fun c s hc => hufEnc_writesTheStream hc s, fun s k hk => ?_⟩
  rw [WritesTheStream, exec_hufEnc hk]
  exact hufEnc_writesTheStream (admitted_codec k) s

theorem hufDec_readsTheStream {c : CodecParams} (hc : Admitted c) (s : State) :
    ReadsTheStream c (hufDec c) s := by
  intro code hl h1 hn hcode
  refine ⟨fun es hes => ⟨_, hufDec_of_isStream hl h1 hn hcode hc.1 hes, fun j hj => ?_,
    s.commitSymbols_memory es _, State.completes_commit rfl, rfl, ⟨rfl, rfl⟩, rfl⟩,
    fun hno => ⟨_, hufDec_of_not_isStream hl h1 hn hcode hno, s.failsWith_fail .corrupt⟩⟩
  obtain ⟨hentry, _⟩ := hes
  obtain ⟨_, hbyte⟩ := hentry j hj
  exact ⟨_, s.commitSymbols_sym es hj, toNat_canonByte (pairHasByte_iff.2 hbyte)⟩

/-- Settles O59: no codeword begins another one, so the walk finds the stream's codewords and no others. -/
theorem hufDecReadsTheStream : Obligations.HufDecReadsTheStream := by
  refine ⟨fun c s hc => hufDec_readsTheStream hc s, fun s k hk => ?_⟩
  rw [ReadsTheStream, exec_hufDec hk]
  exact hufDec_readsTheStream (admitted_codec k) s

theorem exists_entry_of_encodable (book : List CodeEntry) (b : Byte) :
    ∃ e, Unencodable book b ∨ Encodes book b e := by
  by_cases h : Unencodable book b
  · exact ⟨⟨0, 0, 0, 0⟩, .inl h⟩
  · obtain ⟨e, he⟩ := not_forall_not.1 h
    exact ⟨e, .inr he⟩

/-- A success of the encoder says that the count is legal, every symbol has an entry and the stream fits
(R310). -/
theorem encodes_of_success {c : CodecParams} {s t : State} {b : Nat → Byte} (hc : Admitted c)
    (hsym : ∀ j, j < s.run.a0.toNat → s.sym? j = some (b j)) (h : hufEnc c s = .next t)
    (hok : t.status.err = false) : (1 ≤ s.run.a0.toNat ∧ s.run.a0.toNat ≤ c.n) ∧
      ∃ es, (∀ j, j < s.run.a0.toNat → Encodes c.book (b j) (es j)) ∧
        codeLength es 0 s.run.a0.toNat ≤ c.lmax := by
  have hnofail (e : ErrCode) : hufEnc c s ≠ .next (s.fail e) := fun hfail => by
    cases h.symm.trans hfail
    cases hok
  have hlegal : 1 ≤ s.run.a0.toNat ∧ s.run.a0.toNat ≤ c.n :=
    by_contra fun hno => hnofail _ (hufEnc_of_illegal hno)
  choose es hes using fun j => exists_entry_of_encodable c.book (b j)
  have hupto (m : Nat) (hm : m ≤ s.run.a0.toNat) :
      (∀ j, j < m → Encodes c.book (b j) (es j)) ∧ codeLength es 0 m ≤ c.lmax := by
    induction m with
    | zero => exact ⟨nofun, Nat.zero_le _⟩
    | succ m ih =>
      obtain ⟨henc, hfit⟩ := ih (Nat.le_of_succ_le hm)
      have hread (j : Nat) (hj : j < m) := And.intro (hsym j (Nat.lt_trans hj hm)) (henc j hj)
      have hnext : Encodes c.book (b m) (es m) := (hes m).resolve_left fun hno =>
        hnofail _ (hufEnc_of_unencodable hc hlegal.2 hm hread hfit (hsym m hm) hno)
      refine ⟨fun j hj => ?_, Nat.le_of_not_lt fun hlong =>
        hnofail _ (hufEnc_of_overflow hc hlegal.2 hm hread hfit (hsym m hm) hnext hlong)⟩
      obtain hj | rfl := Nat.lt_succ_iff_lt_or_eq.1 hj
      · exact henc j hj
      · exact hnext
  exact ⟨hlegal, es, hupto _ le_rfl⟩

/-- The encoder's stream is one the decoder accepts (R303). -/
theorem isStream_of_encodes {book : List CodeEntry} (hbook : codebookValid book = true) {count : Nat}
    {b : Nat → Byte} {es : Nat → CodeEntry} (henc : ∀ j, j < count → Encodes book (b j) (es j)) :
    IsStream book (fun j => BitVec.ofNat 8 (streamNumber es count / 2 ^ (8 * j) % 256)) (codeLength es 0 count)
      count es := by
  have hlt : streamNumber es count < 2 ^ codeLength es 0 count :=
    streamNumber_lt fun j hj => (codebookValid_entry hbook (henc j hj).1).2.2
  exact ⟨fun j hj => ⟨(henc j hj).1, pairHasByte_iff.1 (pairHasByte_of_encodes (henc j hj))⟩, rfl,
    by rw [codeNumber_streamBytes hlt, Nat.mod_eq_of_lt hlt]⟩

theorem huf_roundTrips {c : CodecParams} (hc : Admitted c) (s u : State) :
    RoundTrips (hufEnc c) (hufDec c) s u := by
  intro t b hsym ht hok hL hcount hcopy
  obtain ⟨⟨h1, hn⟩, es, henc, hfit⟩ := encodes_of_success hc hsym ht hok
  obtain ⟨t', ht', hlen, hbytes, _⟩ := (hufEnc_writesTheStream hc s).1 b es h1 hn
    (fun j hj => ⟨hsym j hj, henc j hj⟩) hfit
  cases ht.symm.trans ht'
  have hstream := isStream_of_encodes hc.1 henc
  rw [← hlen, ← hL] at hstream hbytes hfit
  rw [← hcount] at hstream hbytes h1 hn henc ⊢
  have hcode (j : Nat) (hj : j < (u.run.a0.toNat + 7) / 8) := (hcopy j (by
    obtain ⟨_, _, hlmax⟩ := hc
    omega)).trans (hbytes j hj)
  obtain ⟨hdec, _⟩ := hufDec_readsTheStream hc u _ hfit h1 hn hcode
  obtain ⟨z, hz, hsyms, _, hcompletes, _⟩ := hdec es hstream
  refine ⟨z, hz, hcompletes, fun j hj => ?_⟩
  obtain ⟨y, hy, hval⟩ := hsyms j hj
  obtain ⟨_, hpair⟩ := henc j hj
  exact ⟨y, hy, by rw [hval, ← hpair]⟩

/-- Settles O60: the encoder's stream is the one the decoder reads, entry for entry. -/
theorem huffmanRoundTrip : Obligations.HuffmanRoundTrip := by
  refine ⟨fun c s u hc => huf_roundTrips hc s u, fun s u k hs hu => ?_⟩
  rw [RoundTrips, exec_hufEnc hs, exec_hufDec hu]
  exact huf_roundTrips (admitted_codec k) s u

end Sys2Proof.Claims
end

section
/-! SUPPORT. Writes of `CTRL` (10_state.md R42), the abort (60_exceptions.md R356), and the interrupt output
(60_exceptions.md R352). -/

namespace Sys2Proof.Machine

open Sys2Proof.Claims

/-! ### Writes of CTRL -/

theorem busAccess_ctrl_write {r : BusReq} {w : Word} (h : IsWrite r 0x08 w) (s : State) :
    busAccess r s = .next { s.writeCtrl w with resp := .writeDone } :=
  busAccess_of_isWrite h rfl rfl s

theorem State.writeCtrl_ctrl (s : State) (w : Word) : (s.writeCtrl w).ctrl = Ctrl.ofWord w := by
  obtain h | ⟨_, _, h⟩ := s.writeCtrl_cases w <;> rw [h]
  rfl

theorem State.writeCtrl_of_idle {s : State} (hidle : s.status.busy = false) (w : Word) :
    s.writeCtrl w = { s with ctrl := Ctrl.ofWord w } := by
  obtain h | ⟨_, hbusy, _⟩ := s.writeCtrl_cases w
  · exact h
  · cases hidle.symm.trans hbusy

theorem State.writeCtrl_of_abort {s : State} {w : Word} (hbusy : s.status.busy = true)
    (habort : w.getLsbD 16 = true) :
    s.writeCtrl w = State.fail { s with ctrl := Ctrl.ofWord w } .aborted :=
  if_pos (Bool.and_eq_true_iff.2 ⟨habort, hbusy⟩)

/-- A write of `CTRL` never clears `DONE`; an abort sets it (R356). -/
theorem State.done_writeCtrl {s : State} (h : s.status.done = true) (w : Word) :
    (s.writeCtrl w).status.done = true := by
  obtain hs | ⟨_, _, hs⟩ := s.writeCtrl_cases w <;> rw [hs]
  · exact h
  · rfl

/-- `ABORT` has no storage, so it reads 0 (R42). -/
theorem Ctrl.abort_reads_zero (w : Word) : (Ctrl.ofWord w).word.getLsbD 16 = false := by
  simp [Ctrl.word_ofWord]

/-! ### irq -/

theorem State.irq_iff (s : State) : s.irq = true ↔ s.ctrl.irqEn = true ∧ s.status.done = true :=
  Bool.and_eq_true_iff

theorem State.irq_of_disabled {s : State} (h : s.ctrl.irqEn = false) : s.irq = false :=
  Bool.and_eq_false_iff.2 (.inl h)

theorem State.irq_of_not_done {s : State} (h : s.status.done = false) : s.irq = false :=
  Bool.and_eq_false_iff.2 (.inr h)

end Sys2Proof.Machine
end

section
/-! SUPPORT. What one step does to `STATUS` (60_exceptions.md R350): it ends the running command in one of three
ways, or resets, or leaves a running command running and raises no `DONE`. -/

namespace Sys2Proof.Machine

open Sys2Proof.Claims

/-- From one status to the other a running command keeps running, and `DONE` does not rise. -/
def Status.GoesOn (st st' : Status) : Prop :=
  (st.busy = true → st'.busy = true) ∧ (st'.done = true → st.done = true)

theorem Status.GoesOn.refl (st : Status) : st.GoesOn st := ⟨id, id⟩

theorem Status.goesOn_writeClear (st : Status) (w : Word) : st.GoesOn (st.writeClear w) :=
  ⟨id, fun h => (Bool.and_eq_true_iff.1 h).1⟩

theorem Status.goesOn_accepted (st : Status) : st.GoesOn st.accepted := ⟨fun _ => rfl, nofun⟩

/-- A host write ends a running command only as an abort (R356). -/
theorem State.status_busStore (s : State) (tg : Target) (w : Word) :
    (tg = .ctrl ∧ abortBit w = true ∧ s.status.busy = true ∧
      (s.busStore tg w).status = s.status.failed .aborted) ∨
    s.status.GoesOn (s.busStore tg w).status := by
  obtain h | ⟨_, h⟩ | ⟨ht, h⟩ | ⟨_, h⟩ | ⟨_, _, _, h⟩ | ⟨_, _, h⟩ | ⟨_, _, _, h⟩ | ⟨_, _, _, h⟩ :=
    busStore_cases s tg w <;> rw [h]
  -- the third case is a write of `CTRL`
  case inr.inr.inl =>
    obtain hc | ⟨ha, hb, hc⟩ := s.writeCtrl_cases w <;> rw [hc]
    · exact .inr (.refl _)
    · exact .inl ⟨ht, ha, hb, rfl⟩
  case inr.inr.inr.inl => exact .inr (s.status.goesOn_writeClear w)
  case inr.inr.inr.inr.inl => exact .inr s.status.goesOn_accepted
  all_goals exact .inr (.refl _)

/-- An engine step keeps the status, commits, or fails in an error that is not the abort's (R340, R350). -/
theorem EngineStep.status_cases {s t : State} (h : EngineStep s t) :
    t.status = s.status ∨ t.status = s.status.completed ∨ ∃ e, e ≠ .aborted ∧ t = s.fail e := by
  cases h with
  | failed e he => exact .inr (.inr ⟨e, he, rfl⟩)
  | draw | nextSample => exact .inl rfl
  | nothing | seed | bank | result | results | sym | code => exact .inr (.inl rfl)

/-- What one step from s to t does to `STATUS`. -/
inductive StatusStep (s t : State) : Prop
  | reset (hrst : t.rst = true) (hst : t.status = State.reset.status)
  | completed (hbusy : s.status.busy = true) (hst : t.status = s.status.completed)
  | failed (e : ErrCode) (he : e ≠ .aborted) (hbusy : s.status.busy = true)
      (hst : t.status = s.status.failed e)
  | aborted (r : BusReq) (ops : List HostOp) (hop : s.inbox = .access r :: ops)
      (hw : IsWrite r 0x08 r.wdata) (habort : r.wdata.getLsbD 16 = true) (hbusy : s.status.busy = true)
      (hst : t.status = s.status.failed .aborted)
  | goesOn (h : s.status.GoesOn t.status)

/-- R350 for every step: a case for each kind of step. -/
theorem step_status {s t : State} (h : step s = .next t) : StatusStep s t := by
  cases step_kind h with
  | engine _ rest i hb _ h =>
    obtain hst | hst | ⟨e, he, rfl⟩ := (exec_engineStep h).status_cases
    · exact .goesOn (by rw [hst]; exact .refl _)
    · exact .completed hb hst
    · exact .failed e he hb rfl
  | illegal rest e hb _ => exact .failed .illegal nofun hb rfl
  | idle rest => exact .goesOn (.refl _)
  | host _ rest op ops hi h =>
    obtain ⟨_, rfl⟩ | ⟨_, rfl⟩ | ⟨_, _, _, _, rfl⟩ | ⟨r, tg, rfl, _, hw, ht, rfl⟩ := hostOp_cases h
    · exact .reset rfl rfl
    · exact .goesOn (.refl _)
    · exact .goesOn (.refl _)
    · obtain ⟨rfl, ha, hb, hst⟩ | hon :=
        State.status_busStore { s with turns := rest, inbox := ops } tg r.wdata
      · exact .aborted r ops hi (isWrite_of_target hw ht rfl) ha hb hst
      · exact .goesOn hon

/-- The codes of the errors a command can end in by itself (R341). -/
theorem ErrCode.bits_of_not_aborted {e : ErrCode} (h : e ≠ .aborted) :
    1 ≤ e.bits.toNat ∧ e.bits.toNat ≤ 9 := by
  cases e with
  | aborted => exact absurd rfl h
  | _ => decide

end Sys2Proof.Machine
end

section
/-! SUPPORT. When a command ends in `ERR_KIND` or `ERR_ARG` (60_exceptions.md R343, R344; checks 2 and 3 of
40_control.md R143). -/

namespace Sys2Proof.Machine

open Sys2Proof.Claims

theorem withArg_illegal {s : State} {ok : Bool} (h : ok = false) (body : Result) :
    withArg s ok body = .next (s.fail .arg) := by
  simp [withArg, h]

/-- Check 2 fails for every command that uses the kind (R343). -/
theorem exec_of_invalid_kind {i : Instr} {s : State} (hi : UsesKind i) (hk : kindOf s.run.kind = none) :
    exec i s = .next (s.fail .kind) := by
  cases i with
  | nop | entSeed | entBit | entBits | entByte | entR16 | entR64 => exact False.elim hi
  | _ => exact withKind_none hk _

/-- The command's scalar operand is outside its legal range (R344). -/
def ArgOutOfRange (s : State) (i : Instr) : Prop :=
  (i = .entBits ∧ 32 < s.run.a0.toNat) ∨
  (∃ k, kindOf s.run.kind = some k ∧
    ((i = .smpBer ∧ Config.ELL k ≤ s.run.a0.toNat) ∨
     (i = .hufEnc ∧ (s.run.a0.toNat = 0 ∨ Config.N k < s.run.a0.toNat)) ∨
     (i = .hufDec ∧ (Config.LMAX k < s.run.a0.toNat ∨ s.run.a1.toNat = 0 ∨ Config.N k < s.run.a1.toNat))))

/-! The legality test of each command with a scalar operand, as its range. -/

theorem entBits_illegal {s : State} :
    decide (s.run.a0.toNat ≤ Config.RANDBITS_MAX) = false ↔ 32 < s.run.a0.toNat := by
  rw [decide_eq_false_iff_not, Nat.not_le]
  rfl

theorem smpBer_illegal {s : State} {k : Kind} :
    decide (s.run.a0.toNat < Config.ELL k) = false ↔ Config.ELL k ≤ s.run.a0.toNat := by
  rw [decide_eq_false_iff_not, Nat.not_lt]

theorem hufEnc_illegal {c : CodecParams} {s : State} :
    (decide (1 ≤ s.run.a0.toNat) && decide (s.run.a0.toNat ≤ c.n)) = false ↔
      s.run.a0.toNat = 0 ∨ c.n < s.run.a0.toNat := by
  simp only [Bool.and_eq_false_iff, decide_eq_false_iff_not]
  omega

theorem hufDec_illegal {c : CodecParams} {s : State} :
    (decide (s.run.a0.toNat ≤ c.lmax) && decide (1 ≤ s.run.a1.toNat) &&
        decide (s.run.a1.toNat ≤ c.n)) = false ↔
      c.lmax < s.run.a0.toNat ∨ s.run.a1.toNat = 0 ∨ c.n < s.run.a1.toNat := by
  simp only [Bool.and_eq_false_iff, decide_eq_false_iff_not]
  omega

/-- Check 3 fails for such an operand (R344). -/
theorem exec_of_argOutOfRange {i : Instr} {s : State} (h : ArgOutOfRange s i) :
    exec i s = .next (s.fail .arg) := by
  obtain ⟨rfl, h⟩ | ⟨k, hk, ⟨rfl, h⟩ | ⟨rfl, h⟩ | ⟨rfl, h⟩⟩ := h
  · exact withArg_illegal (entBits_illegal.2 h) _
  · exact (withKind_some hk _).trans (withArg_illegal (smpBer_illegal.2 h) _)
  · exact (withKind_some hk _).trans (withArg_illegal (hufEnc_illegal.2 h) _)
  · exact (withKind_some hk _).trans (withArg_illegal (hufDec_illegal.2 h) _)

theorem ErrCode.eq_kind_of_bits {e : ErrCode} (h : e.bits = 2) : e = .kind := by
  cases e with
  | kind => rfl
  | _ => exact absurd h (by decide)

theorem ErrCode.eq_arg_of_bits {e : ErrCode} (h : e.bits = 3) : e = .arg := by
  cases e with
  | arg => rfl
  | _ => exact absurd h (by decide)

/-- What a command needs to end in `ERR_KIND` or `ERR_ARG`; of the other errors nothing is said. -/
def MayRaise (s : State) (i : Instr) : ErrCode → Prop
  | .kind => UsesKind i
  | .arg => ArgOutOfRange s i
  | _ => True

/-- The error code after one engine step of the command i: kept, or that of an error it may raise. -/
def RaisesOnly (i : Instr) (s t : State) : Prop :=
  t.status.errcode = s.status.errcode ∨ ∃ e, MayRaise s i e ∧ t = s.fail e

namespace RaisesOnly

variable {i : Instr} {s t : State}

theorem fail {e : ErrCode} (h : MayRaise s i e) : RaisesOnly i s (s.fail e) := .inr ⟨e, h, rfl⟩

theorem ofKind {body : Kind → Result} (hi : UsesKind i) (h : withKind s body = .next t)
    (hbody : ∀ k, kindOf s.run.kind = some k → body k = .next t → RaisesOnly i s t) : RaisesOnly i s t := by
  obtain ⟨k, hk, h⟩ | ⟨_, rfl⟩ := withKind_next h
  · exact hbody k hk h
  · exact fail hi

theorem ofArg {ok : Bool} {body : Result} (hi : ok = false → ArgOutOfRange s i)
    (h : withArg s ok body = .next t) (hbody : body = .next t → RaisesOnly i s t) : RaisesOnly i s t := by
  obtain ⟨_, h⟩ | ⟨hok, rfl⟩ := withArg_next h
  · exact hbody h
  · exact fail (hi hok)

theorem ofTag {b : Bank} {tag : Bool} {body : Result} (h : withTag s b tag body = .next t)
    (hbody : body = .next t → RaisesOnly i s t) : RaisesOnly i s t := by
  obtain ⟨_, h⟩ | ⟨_, rfl⟩ := withTag_next h
  · exact hbody h
  · exact fail trivial

theorem ofCoeffs {b : Bank} {r : RingParams} {body : List Nat → Result}
    (h : withCoeffs s b r body = .next t) (hbody : ∀ v, body v = .next t → RaisesOnly i s t) :
    RaisesOnly i s t := by
  obtain ⟨_, _, ⟨_, h⟩ | ⟨_, rfl⟩⟩ := withCoeffs_next h
  · exact hbody _ h
  · exact fail trivial

theorem ofBank {d : Bank} {ws : List Word} {tag : Bool}
    (h : Host.Outcome.next (s.commitBank d ws tag) = (.next t : Result)) : RaisesOnly i s t := by
  cases h
  exact .inl rfl

theorem ofSampler {α : Type} {p : Sampler α} {f : α → Word}
    (h : runSampler p s (intoResult0 f) = .next t) : RaisesOnly i s t := by
  obtain ⟨_, _, rfl⟩ | ⟨_, _, _, rfl⟩ := runSampler_next h <;> exact .inl rfl

end RaisesOnly

/-- R343 and R344 for one engine step: a case for each command. -/
theorem exec_raisesOnly {i : Instr} {s t : State} (h : exec i s = .next t) : RaisesOnly i s t := by
  cases i with
  | nop | entSeed => cases h; exact .inl rfl
  | nttFwd d a | nttInv d a =>
    exact .ofKind trivial h fun k _ h => .ofTag h fun h => .ofCoeffs h fun v h => .ofBank h
  | nttPmul d a b | nttMul d a b =>
    exact .ofKind trivial h fun k _ h => .ofTag h fun h => .ofTag h fun h => .ofCoeffs h fun v h =>
      .ofCoeffs h fun w h => .ofBank h
  | nttNeg d a => exact .ofKind trivial h fun k _ h => .ofCoeffs h fun v h => .ofBank h
  | nttInvert d a =>
    refine .ofKind trivial h fun k _ h => .ofTag h fun h => .ofCoeffs h fun v h => ?_
    dsimp only at h
    split at h
    · cases h; exact .fail trivial
    · exact .ofBank h
  | nttModq d a =>
    refine .ofKind trivial h fun k _ h => ?_
    obtain ⟨ws, _, h⟩ := withWords_next h
    exact .ofBank h
  | smpGauss d =>
    refine .ofKind trivial h fun k _ h => ?_
    split at h
    · cases h; exact .inl rfl
    · dsimp only at h
      split at h
      · cases h; exact .inl rfl
      · exact .ofBank h
  | smpGauss1 | smpPosbin | smpBerexp | smpBercosh =>
    exact .ofKind trivial h fun k _ h => .ofSampler h
  | smpBer =>
    exact .ofKind trivial h fun k hk h =>
      .ofArg (fun hno => .inr ⟨k, hk, .inl ⟨rfl, smpBer_illegal.1 hno⟩⟩) h fun h => .ofSampler h
  | entBit | entByte | entR16 => exact .ofSampler h
  | entBits =>
    exact .ofArg (fun hno => .inl ⟨rfl, entBits_illegal.1 hno⟩) h fun h => .ofSampler h
  | entR64 =>
    rw [exec, execEntR64] at h
    obtain ⟨_, _, rfl⟩ | ⟨_, _, _, rfl⟩ := runSampler_next h <;> exact .inl rfl
  | hufEnc =>
    refine .ofKind trivial h fun k hk h =>
      .ofArg (fun hno => .inr ⟨k, hk, .inr (.inl ⟨rfl, hufEnc_illegal.1 hno⟩)⟩) h fun h => ?_
    split at h
    · cases h; exact .inl rfl
    · cases h
      obtain rfl | rfl := encodeFrom_failed ‹_› <;> exact .fail trivial
    · cases h
  | hufDec =>
    refine .ofKind trivial h fun k hk h =>
      .ofArg (fun hno => .inr ⟨k, hk, .inr (.inr ⟨rfl, hufDec_illegal.1 hno⟩)⟩) h fun h => ?_
    split at h
    · cases h
    · split at h
      · cases h; exact .inl rfl
      · cases h; exact .fail trivial

end Sys2Proof.Machine
end

section
/-! CERTIFICATES. 60_exceptions.md: how a command ends, the abort, the interrupt, and the first two checks. -/

namespace Sys2Proof.Claims

open Sys2Proof.Machine

/-- Settles O22: each way a step can touch STATUS is an ending of R350, a reset, or leaves the command running
and DONE as it was. -/
theorem onlyCompletionSetsDone : Obligations.OnlyCompletionSetsDone := by
  intro s t hstep
  cases step_status hstep with
  | reset hrst hst =>
    rw [hst]
    exact ⟨fun _ _ => .inl hrst, nofun⟩
  | completed hbusy hst =>
    rw [hst]
    exact ⟨fun _ _ => .inr ⟨rfl, .inl ⟨rfl, rfl⟩⟩, fun _ _ => ⟨hbusy, rfl⟩⟩
  | failed e he hbusy hst =>
    rw [hst]
    exact ⟨fun _ _ => .inr ⟨rfl, .inr (.inl ⟨rfl, ErrCode.bits_of_not_aborted he⟩)⟩, fun _ _ => ⟨hbusy, rfl⟩⟩
  | aborted r ops hop hw habort hbusy hst =>
    rw [hst]
    exact ⟨fun _ _ => .inr ⟨rfl, .inr (.inr ⟨rfl, rfl, r, ops, r.wdata, hop, hw, habort⟩)⟩,
      fun _ _ => ⟨hbusy, rfl⟩⟩
  | goesOn h =>
    obtain ⟨hbusy, hdone⟩ := h
    refine ⟨fun hb hb' => ?_, fun hd hd' => ?_⟩
    · cases (hbusy hb).symm.trans hb'
    · cases hd.symm.trans (hdone hd')

/-- Settles O25: with no turn scheduled the step is the engine's, and its one error is the error completion. -/
theorem errorsChangeOnlyStatus : Obligations.ErrorsChangeOnlyStatus := by
  intro s t hbusy hnoerr hturns hstep herr
  rw [step_of_busy hbusy hturns] at hstep
  obtain ⟨e, he, rfl⟩ : ∃ e, e ≠ .aborted ∧ t = s.fail e := by
    cases hd : decode s.run.cmd with
    | error e =>
      rw [engineTurn_of_illegal hbusy hd] at hstep
      cases hstep
      exact ⟨.illegal, nofun, rfl⟩
    | ok i =>
      rw [engineTurn_of_command hbusy hd] at hstep
      obtain hst | hst | hfail := (exec_engineStep hstep).status_cases
      · cases hnoerr.symm.trans (hst ▸ herr)
      · cases hnoerr.symm.trans (hst ▸ herr)
      · exact hfail
  obtain ⟨h1, h9⟩ := ErrCode.bits_of_not_aborted he
  exact ⟨_, h1, h9, s.failsWith_fail e⟩

/-- Settles O13: while idle the write stores CTRL alone; while busy it is the error completion too. -/
theorem abortEndsTheRunningCommand : Obligations.AbortEndsTheRunningCommand := by
  intro s r w hw habort
  refine ⟨_, busAccess_ctrl_write hw s, ?_⟩
  have hctrl := s.writeCtrl_ctrl w
  refine ⟨by rw [hctrl]; rfl, by rw [hctrl]; rfl, by rw [hctrl]; rfl, fun hidle => ?_, fun hbusy => ?_,
    fun r' hr => ⟨_, answers_regValue hr rfl rfl rfl _, ?_⟩⟩
  · rw [State.writeCtrl_of_idle hidle]
  · rw [State.writeCtrl_of_abort hbusy habort]
    exact ⟨rfl, rfl, rfl, rfl, rfl, rfl, rfl, ⟨rfl, rfl⟩, rfl,
      ⟨rfl, rfl, rfl, rfl, rfl, rfl, rfl, rfl, rfl⟩, rfl, rfl, rfl, rfl⟩
  · rw [State.regValue, hctrl]
    exact Ctrl.abort_reads_zero w

/-- Settles O14: each access by what it does to IRQ_EN and DONE, and a completion by R350. -/
theorem irqFollowsEnableAndDone : Obligations.IrqFollowsEnableAndDone := by
  refine ⟨rfl, rfl, fun s r w => ⟨s.irq_iff, fun hw => ?_, fun hw hclear => ?_, fun hw hidle hnoerr => ?_,
    fun t hstep hbusy hidle hrst hen => ?_⟩⟩
  · refine ⟨_, busAccess_ctrl_write hw s, fun hen => State.irq_of_disabled ?_,
      fun hen hdone => (State.irq_iff _).2 ⟨?_, s.done_writeCtrl hdone w⟩⟩ <;>
    · rw [s.writeCtrl_ctrl w]
      exact hen
  · refine ⟨_, busAccess_of_isWrite hw rfl rfl s, State.irq_of_not_done ?_⟩
    obtain ⟨_, hdone, _⟩ := s.status.writeClear_fields w
    exact hdone.trans (if_pos hclear)
  · refine ⟨_, busAccess_cmd_write hw s, State.irq_of_not_done ?_⟩
    rw [State.issue_accepted hidle hnoerr]
    rfl
  · obtain hreset | ⟨hdone, _⟩ := (onlyCompletionSetsDone s t hstep).1 hbusy hidle
    · cases hrst.symm.trans hreset
    · exact t.irq_iff.2 ⟨hen, hdone⟩

/-- Settles O30: check 2 comes first, only commands that use the kind have it, and CTRL stores any kind. -/
theorem kindErrors : Obligations.KindErrors := by
  refine ⟨fun i s hi hk => ⟨_, exec_of_invalid_kind hi (kindOf_eq_none hk), s.failsWith_fail .kind⟩,
    fun i s t hi hne hexec => ?_, fun s r w hw => ⟨_, busAccess_ctrl_write hw s, ?_⟩⟩
  · obtain hkept | ⟨e, he, rfl⟩ := exec_raisesOnly hexec
    · rwa [hkept]
    · rintro hcode
      cases ErrCode.eq_kind_of_bits hcode
      exact hi he
  · rw [s.writeCtrl_ctrl w]
    rfl

/-- Settles O31: an operand out of range fails check 3, and nothing else ends in ERR_ARG. -/
theorem argErrors : Obligations.ArgErrors := by
  have hfails {i : Instr} {s : State} (h : ArgOutOfRange s i) : ∃ t, exec i s = .next t ∧ FailsWith s t 3 :=
    ⟨_, exec_of_argOutOfRange h, s.failsWith_fail .arg⟩
  refine ⟨fun i s t hne hexec => ⟨fun harg => ?_, fun hout => ?_⟩, fun s h => hfails (.inl ⟨rfl, h⟩),
    fun s k hk => ⟨fun h => hfails (.inr ⟨k, hk, .inl ⟨rfl, h⟩⟩),
      fun h => hfails (.inr ⟨k, hk, .inr (.inl ⟨rfl, h⟩)⟩),
      fun h => hfails (.inr ⟨k, hk, .inr (.inr ⟨rfl, h⟩)⟩)⟩⟩
  · obtain hkept | ⟨e, he, rfl⟩ := exec_raisesOnly hexec
    · exact absurd (hkept ▸ harg) hne
    · cases ErrCode.eq_arg_of_bits (BitVec.eq_of_toNat_eq harg)
      exact he
  · obtain ⟨u, hu, hfail⟩ := hfails hout
    cases hexec.symm.trans hu
    exact hfail.errcode

end Sys2Proof.Claims
end

section
/-! SUPPORT. Whose turn a step is, and what the host does in its turn (70_reset_and_hazards.md R380, R387). -/

namespace Sys2Proof.Machine

theorem step_of_host_scheduled {s : State} {rest : List Agent} (hturns : s.turns = .host :: rest) :
    step s = hostTurn { s with turns := rest } := by
  simp only [step, State.takeTurn, hturns]

/-- With no turn scheduled and no command running, the host has the next one (log 1). -/
theorem step_of_idle {s : State} (hidle : s.status.busy = false) (hturns : s.turns = []) :
    step s = hostTurn s := by
  simp [step, State.takeTurn, hturns, hidle]

/-- Every step is a turn of the engine or of the host, after the turn is taken from the schedule. -/
theorem step_is_turn (s : State) : ∃ rest,
    step s = engineTurn { s with turns := rest } ∨ step s = hostTurn { s with turns := rest } := by
  cases hturns : s.turns with
  | nil =>
    refine ⟨[], ?_⟩
    rw [← hturns]
    cases hbusy : s.status.busy with
    | true => exact .inl (step_of_busy hbusy hturns)
    | false => exact .inr (step_of_idle hbusy hturns)
  | cons a rest =>
    cases a with
    | engine => exact ⟨rest, .inl (step_of_engine_scheduled hturns)⟩
    | host => exact ⟨rest, .inr (step_of_host_scheduled hturns)⟩

theorem engineTurn_of_idle {s : State} (hidle : s.status.busy = false) : engineTurn s = .next s := by
  simp only [engineTurn, hidle, Bool.false_eq_true, if_false]

theorem hostTurn_of_nothing {s : State} (h : s.inbox = []) : hostTurn s = .next s := by
  simp only [hostTurn, h]

theorem hostTurn_of_action {s : State} {op : HostOp} {ops : List HostOp} (h : s.inbox = op :: ops) :
    hostTurn s = hostOp op { s with inbox := ops } := by
  simp only [hostTurn, h]

theorem hostOp_access {s : State} (hrst : s.rst = false) (r : BusReq) :
    hostOp (.access r) s = busAccess r s := by
  simp only [hostOp, hrst, Bool.false_eq_true, if_false]

theorem hostOp_access_in_reset {s : State} (hrst : s.rst = true) (r : BusReq) :
    hostOp (.access r) s = .next (s.answerInReset r) := if_pos hrst

end Sys2Proof.Machine
end

section
/-! SUPPORT. Memory of which every byte has been written: each reader finds what it reads, and no step unwrites
a byte but the reset (10_state.md R33, R36). -/

namespace Sys2Proof.Machine

theorem Memory.word?_ne_none {m : Memory} {a : Nat} (h : ∀ i, i < 4 → m.byte? (a + i) ≠ none) :
    m.word? a ≠ none := by
  obtain ⟨b0, h0⟩ := Option.ne_none_iff_exists'.1 (h 0 (by decide))
  obtain ⟨b1, h1⟩ := Option.ne_none_iff_exists'.1 (h 1 (by decide))
  obtain ⟨b2, h2⟩ := Option.ne_none_iff_exists'.1 (h 2 (by decide))
  obtain ⟨b3, h3⟩ := Option.ne_none_iff_exists'.1 (h 3 (by decide))
  rw [Nat.add_zero] at h0
  simp [Memory.word?, h0, h1, h2, h3]

/-- A store never unwrites a byte. -/
theorem Memory.byte?_write_ne_none {m : Memory} {x : Nat} (h : m.byte? x ≠ none) (a : Nat) (bs : List Byte) :
    (m.write a bs).byte? x ≠ none := by
  rw [Memory.byte?_write]
  split
  next hin => rw [List.getElem?_eq_getElem (by omega)]; exact Option.some_ne_none _
  next => exact h

/-- The encoder stops for an unwritten symbol only if it comes to one (44_huffman.md R310). -/
theorem encodeFrom_ne_unwritten {book : List CodeEntry} {lmax : Nat} {rd : Nat → Option Byte} {left j a len : Nat}
    (h : ∀ i, i < j + left → rd i ≠ none) : encodeFrom book lmax rd left j a len ≠ .unwritten := by
  induction left generalizing j a len with
  | zero => nofun
  | succ left ih =>
    rw [encodeFrom]
    split
    next hnone => exact absurd hnone (h j (by omega))
    next b _ =>
      split
      · nofun
      · split
        · nofun
        · exact ih fun i hi => h i (by omega)

/-- What a host write does to memory: nothing, or one store. It leaves the host's own list alone. -/
theorem State.busStore_mem_inbox (s : State) (tg : Target) (w : Word) :
    ((s.busStore tg w).mem = s.mem ∨ ∃ a bs, (s.busStore tg w).mem = s.mem.write a bs) ∧
      (s.busStore tg w).inbox = s.inbox := by
  obtain h | ⟨_, h⟩ | ⟨_, h⟩ | ⟨_, h⟩ | ⟨_, _, _, h⟩ | ⟨_, _, h⟩ | ⟨_, _, _, h⟩ | ⟨_, _, _, h⟩ :=
    busStore_cases s tg w <;> rw [h]
  -- the third case is a write of `CTRL`, the last one of a memory word
  case inr.inr.inl =>
    obtain hc | ⟨_, _, hc⟩ := s.writeCtrl_cases w <;> rw [hc]
    · exact ⟨.inl rfl, rfl⟩
    · exact ⟨.inl rfl, rfl⟩
  case inr.inr.inr.inr.inr.inr.inr => exact ⟨.inr ⟨_, _, rfl⟩, rfl⟩
  all_goals exact ⟨.inl rfl, rfl⟩

theorem EngineStep.inbox {s t : State} (h : EngineStep s t) : t.inbox = s.inbox := by
  cases h <;> rfl

namespace State.allWritten

variable {s t : State} (hs : s.allWritten)
include hs

theorem of_mem (h : t.mem = s.mem) : t.allWritten := by
  rw [State.allWritten, h]
  exact hs

theorem of_write {a : Nat} {bs : List Byte} (h : t.mem = s.mem.write a bs) : t.allWritten := by
  rw [State.allWritten, h]
  exact fun x hx => Memory.byte?_write_ne_none (hs x hx) a bs

theorem word {a : Nat} (ha : isStore a = true) (hal : a % 4 = 0) : s.mem.word? a ≠ none :=
  Memory.word?_ne_none fun _ hi => hs _ (isStore_word ha hal hi)

theorem bankWord (b : Bank) {i : Nat} (hi : i < 512) : s.bankWord? b i ≠ none :=
  Memory.word?_ne_none fun _ hk => hs _ (isStore_bank b hi hk)

theorem readBank (b : Bank) {n : Nat} (hn : n ≤ 512) : ∃ ws, s.readBank b n = some ws :=
  exists_readBank fun _ hj => hs.bankWord b (Nat.lt_of_lt_of_le hj hn)

theorem sym {j : Nat} (hj : j < 512) : s.sym? j ≠ none := hs _ (isStore_sym hj)

theorem readCode {n : Nat} (hn : n ≤ 512) : s.readCode n ≠ none := fun hnone =>
  let ⟨_, hj, hcode⟩ := State.readCode_eq_none.1 hnone
  hs _ (isStore_code (Nat.lt_of_lt_of_le hj hn)) hcode

theorem engineStep (h : EngineStep s t) : t.allWritten := by
  cases h with
  | bank | sym | code => exact hs.of_write rfl
  | failed | draw | nextSample | nothing | seed | result | results => exact hs.of_mem rfl

end State.allWritten

end Sys2Proof.Machine
end

section
/-! SUPPORT. On written memory every command goes on: each operand form, and then each command. -/

namespace Sys2Proof.Machine

/-- The answer is a next state: no fault and no refusal. -/
def Proceeds (x : Result) : Prop := ∃ t, x = .next t

namespace Proceeds

variable {s : State}

theorem next (t : State) : Proceeds (.next t) := ⟨t, rfl⟩

theorem ofKind {body : Kind → Result} (h : ∀ k, Proceeds (body k)) : Proceeds (withKind s body) := by
  rw [withKind]
  split
  · exact h _
  · exact next _

theorem ofArg {ok : Bool} {body : Result} (h : ok = true → Proceeds body) : Proceeds (withArg s ok body) := by
  cases ok with
  | true => exact h rfl
  | false => exact next _

theorem ofTag {b : Bank} {tag : Bool} {body : Result} (h : Proceeds body) : Proceeds (withTag s b tag body) := by
  rw [withTag]
  split
  · exact h
  · exact next _

theorem ofSampler {α : Type} (p : Sampler α) (finish : α → State → State) :
    Proceeds (runSampler p s finish) := by
  rw [runSampler]
  split <;> exact next _

variable (hs : s.allWritten)
include hs

theorem ofWords {b : Bank} {k : Kind} {body : List Word → Result} (h : ∀ ws, Proceeds (body ws)) :
    Proceeds (withWords s b (Config.N k) body) := by
  obtain ⟨ws, hread⟩ := hs.readBank b (N_le k)
  rw [withWords_some hread]
  exact h ws

theorem ofCoeffs {b : Bank} {k : Kind} {body : List Nat → Result} (h : ∀ v, Proceeds (body v)) :
    Proceeds (withCoeffs s b (Config.ring k) body) := by
  refine ofWords hs fun ws => ?_
  split
  · exact h _
  · exact next _

theorem hufEnc (k : Kind) : Proceeds (hufEnc (Config.codec k) s) := by
  refine ofArg fun hlegal => ?_
  simp only [Bool.and_eq_true, decide_eq_true_eq] at hlegal
  have hcount : s.run.a0.toNat ≤ 512 := Nat.le_trans hlegal.2 (N_le k)
  have hsym : ∀ i, i < 0 + s.run.a0.toNat → s.sym? i ≠ none := fun i hi => hs.sym (by omega)
  split
  next => exact next _
  next => exact next _
  next hstop => exact absurd hstop (encodeFrom_ne_unwritten hsym)

theorem hufDec (k : Kind) : Proceeds (hufDec (Config.codec k) s) := by
  refine ofArg fun hlegal => ?_
  simp only [Bool.and_eq_true, decide_eq_true_eq] at hlegal
  have hlen : streamBytes s.run.a0.toNat ≤ 512 := streamBytes_le (Nat.le_trans hlegal.1.1 (LMAX_le k))
  split
  next hstop => exact absurd hstop (hs.readCode hlen)
  next => split <;> exact next _

end Proceeds

/-- On written memory one engine step of any command goes on: a case for each command. -/
theorem exec_proceeds (i : Instr) {s : State} (hs : s.allWritten) : Proceeds (exec i s) := by
  cases i with
  | nop | entSeed => exact .next _
  | nttFwd d a | nttInv d a =>
    exact .ofKind fun k => .ofTag <| .ofCoeffs hs fun v => .next _
  | nttPmul d a b | nttMul d a b =>
    exact .ofKind fun k => .ofTag <| .ofTag <| .ofCoeffs hs fun v => .ofCoeffs hs fun w => .next _
  | nttNeg d a => exact .ofKind fun k => .ofCoeffs hs fun v => .next _
  | nttInvert d a =>
    refine .ofKind fun k => .ofTag <| .ofCoeffs hs fun v => ?_
    dsimp only
    split <;> exact .next _
  | nttModq d a => exact .ofKind fun k => .ofWords hs fun ws => .next _
  | smpGauss d =>
    refine .ofKind fun k => ?_
    split
    · exact .next _
    · dsimp only
      split <;> exact .next _
  | smpGauss1 | smpPosbin | smpBerexp | smpBercosh => exact .ofKind fun k => .ofSampler _ _
  | smpBer => exact .ofKind fun k => .ofArg fun _ => .ofSampler _ _
  | entBit | entByte | entR16 => exact .ofSampler _ _
  | entR64 => rw [exec, execEntR64]; exact .ofSampler _ _
  | entBits => exact .ofArg fun _ => .ofSampler _ _
  | hufEnc => exact .ofKind (.hufEnc hs)
  | hufDec => exact .ofKind (.hufDec hs)

/-- An aligned and mapped access to written memory goes on (20_memory.md R87). -/
theorem busAccess_proceeds {s : State} {r : BusReq} (hs : s.allWritten) (hr : r.target ≠ none) :
    Proceeds (busAccess r s) := by
  obtain ⟨hnone, _⟩ | ⟨tg, ht, ⟨_, h⟩ | ⟨_, _, _, h⟩ | ⟨_, _, h⟩ | ⟨_, a, rfl, hnone, _⟩⟩ := busAccess_cases r s
  · exact absurd hnone hr
  · exact ⟨_, h⟩
  · exact ⟨_, h⟩
  · exact ⟨_, h⟩
  · obtain ⟨_, hal, hat⟩ := BusReq.target_some ht
    obtain ⟨rfl, hstore⟩ := targetAt_store hat
    exact absurd hnone (hs.word hstore hal)

theorem hostOp_proceeds {s : State} {op : HostOp} (hs : s.allWritten) (hop : op.isSafe) :
    Proceeds (hostOp op s) := by
  cases op with
  | rst level => cases level <;> exact .next _
  | access r =>
    cases hrst : s.rst with
    | true => exact ⟨_, hostOp_access_in_reset hrst r⟩
    | false => rw [hostOp_access hrst]; exact busAccess_proceeds hs hop

end Sys2Proof.Machine
end

section
/-! SUPPORT. The invariant of a run that never stops (70_reset_and_hazards.md R388): each agent's turn, and so each
step, goes on and keeps it. -/

namespace Sys2Proof.Machine

/-- Every byte is written, and every host action to come is safe. -/
structure State.SafeToRun (s : State) : Prop where
  written : s.allWritten
  actions : ∀ op ∈ s.inbox, op.isSafe

/-- The answer is a next state from which the run is safe again. -/
def StaysSafe (x : Result) : Prop := ∃ t, x = .next t ∧ t.SafeToRun

/-- A host action that is no reset keeps every written byte, and leaves the actions to come alone. -/
theorem hostOp_keeps {s t : State} {op : HostOp} (hs : s.allWritten) (hop : op.isSafe)
    (h : hostOp op s = .next t) : t.allWritten ∧ t.inbox = s.inbox := by
  obtain ⟨rfl, _⟩ | ⟨_, rfl⟩ | ⟨_, _, _, _, rfl⟩ | ⟨r, tg, _, _, _, _, rfl⟩ := hostOp_cases h
  · cases hop
  · exact ⟨hs.of_mem rfl, rfl⟩
  · exact ⟨hs.of_mem rfl, rfl⟩
  · obtain ⟨hmem | ⟨_, _, hmem⟩, hinbox⟩ := s.busStore_mem_inbox tg r.wdata
    · exact ⟨hs.of_mem hmem, hinbox⟩
    · exact ⟨hs.of_write hmem, hinbox⟩

namespace State.SafeToRun

variable {s : State} (hs : s.SafeToRun)
include hs

theorem setTurns (rest : List Agent) : State.SafeToRun { s with turns := rest } := ⟨hs.written, hs.actions⟩

theorem engineTurn : StaysSafe (engineTurn s) := by
  cases hbusy : s.status.busy with
  | false => exact ⟨s, engineTurn_of_idle hbusy, hs⟩
  | true =>
    cases hd : decode s.run.cmd with
    | error e => exact ⟨_, engineTurn_of_illegal hbusy hd, hs.written.of_mem rfl, hs.actions⟩
    | ok i =>
      obtain ⟨t, ht⟩ := exec_proceeds i hs.written
      have hstep := exec_engineStep ht
      refine ⟨t, (engineTurn_of_command hbusy hd).trans ht, hs.written.engineStep hstep, ?_⟩
      rw [hstep.inbox]
      exact hs.actions

theorem hostTurn : StaysSafe (hostTurn s) := by
  cases hinbox : s.inbox with
  | nil => exact ⟨s, hostTurn_of_nothing hinbox, hs⟩
  | cons op ops =>
    have hsafe := hs.actions
    rw [hinbox, List.forall_mem_cons] at hsafe
    obtain ⟨hop, hops⟩ := hsafe
    have hw : State.allWritten { s with inbox := ops } := hs.written
    obtain ⟨t, ht⟩ := hostOp_proceeds hw hop
    obtain ⟨hwt, hkept⟩ := hostOp_keeps hw hop ht
    refine ⟨t, (hostTurn_of_action hinbox).trans ht, hwt, ?_⟩
    rw [hkept]
    exact hops

theorem step : StaysSafe (step s) := by
  obtain ⟨rest, h | h⟩ := step_is_turn s <;> rw [h]
  · exact (hs.setTurns rest).engineTurn
  · exact (hs.setTurns rest).hostTurn

/-- The induction over the steps of a run. -/
theorem runsSafely (n : Nat) : s.runsSafely n := by
  induction n generalizing s with
  | zero => trivial
  | succ n ih =>
    obtain ⟨t, hstep, ht⟩ := hs.step
    exact ⟨t, hstep, ih ht⟩

end State.SafeToRun

end Sys2Proof.Machine
end

section
/-! CERTIFICATES. 70_reset_and_hazards.md: safe runs, the reset pin, and the interleaving of the two agents. -/

namespace Sys2Proof.Claims

open Sys2Proof.Machine

/-- Settles O29: every step of a safe run goes on and leaves it safe. -/
theorem writtenMachineRunsSafely : Obligations.WrittenMachineRunsSafely :=
  fun _ n hwritten hactions => State.SafeToRun.runsSafely ⟨hwritten, hactions⟩ n

/-- Settles O19: the pin's reset has the reset values but for `rst` and the environment, and while it is high
every access is answered by `answerInReset`. -/
theorem resetPinResets : Obligations.ResetPinResets := by
  intro s
  obtain ⟨hctrl, hstatus, hcmd, hdomain, harg0, harg1, hresult0, hresult1, hseeds, hmem, hent⟩ := resetValues
  obtain ⟨hS, hbpos, hhpos, hwpos, hbits⟩ := hent
  refine ⟨⟨s.pinReset, rfl, rfl, hctrl, hstatus, hcmd, hdomain, harg0, harg1, hresult0, hresult1, hseeds,
    hS, hbpos, hhpos, hwpos, hbits, hmem, State.irq_of_not_done rfl⟩, rfl, fun r hrst => ?_⟩
  rw [hostOp_access_in_reset hrst, State.answerInReset]
  exact ⟨fun hread => by simp [hread], fun hwrite => by simp [hwrite]⟩

/-- Settles O5: the schedule's first entry names the agent, or with none left the running command does; each
agent's turn then follows its own cases. -/
theorem turnsInterleave : Obligations.TurnsInterleave := by
  refine fun s rest => ⟨fun hturns hnone => ?_, fun op ops hturns hop => ?_, fun hturns hidle => ?_,
    fun i hturns hbusy hcmd => ?_, fun e hturns hbusy hcmd => ?_, fun op ops hturns hidle hop => ?_,
    fun hturns hidle hnone => ?_⟩
  · exact (step_of_host_scheduled hturns).trans (hostTurn_of_nothing hnone)
  · exact (step_of_host_scheduled hturns).trans (hostTurn_of_action hop)
  · exact (step_of_engine_scheduled hturns).trans (engineTurn_of_idle hidle)
  · exact (step_of_engine_scheduled hturns).trans (engineTurn_of_command hbusy hcmd)
  · exact ⟨_, (step_of_engine_scheduled hturns).trans (engineTurn_of_illegal hbusy hcmd),
      State.failsWith_fail _ .illegal⟩
  · exact (step_of_idle hidle hturns).trans (hostTurn_of_action hop)
  · exact (step_of_idle hidle hturns).trans (hostTurn_of_nothing hnone)

end Sys2Proof.Claims
end
